-- ==== Sys2Proof/Word.lean ====
section
/-! DEFINITION. The word types of the engine (spec/00_scope.md R6, R9, R10). -/

namespace Sys2Proof

/-- One byte of a buffer (R10). -/
abbrev Byte := BitVec 8

/-- One 32-bit register, address or length (R9). -/
abbrev Word := BitVec 32

/-- One cipher block, `Bytes16` (R6, R170): byte `i` is bits `8i+7 : 8i`, which is the packing of
IV0..IV3 read as one 128-bit number (R29) and the width R34 gives CV. -/
abbrev Block := BitVec 128

/-- One key, `Bytes32` (R6, R170): byte `i` is bits `8i+7 : 8i`, the packing of KEY0..KEY7 (R26). -/
abbrev Key := BitVec 256

end Sys2Proof
end

