-- ==== Sys2Proof/Syntax.lean ====
section
/-! DEFINITION. The commands of the engine: one constructor per row of spec/opcode_table.json (spec/30_encoding.md R91). -/

namespace Sys2Proof

/-- A decoded command word (R91, R94). Commands carry no operand: every operand is a register latched at issue (R95). -/
inductive Instr where
  /-- Draw a fresh IV (R140). -/
  | geniv
  /-- Apply the block padding (R153). -/
  | pad
  /-- Check and remove the block padding (R154). -/
  | unpad
  /-- CBC encryption of an aligned buffer (R174). -/
  | encrypt
  /-- CBC decryption of an aligned buffer (R175). -/
  | decrypt
  /-- Pad, draw an IV, encrypt (R190). -/
  | encryptMsg
  /-- Decrypt, check and remove the padding (R191). -/
  | decryptMsg
  /-- Zeroise key and IV (R210). -/
  | clear
  /-- Any other word, with its two fields OPCODE and RSVD (R92, R93). Log 20. -/
  | illegal (opcode : BitVec 4) (rsvd : BitVec 28)
  deriving DecidableEq, Repr

end Sys2Proof
end

