-- ==== Sys2Proof/WellFormed.lean ====
section
/-! DEFINITION. Which terms of `Instr` stand for a command word (spec/30_encoding.md R91 to R93). -/

namespace Sys2Proof

/-- The opcodes of R91 that name a command: 0x1 to 0x8. -/
def legalOpcode (opcode : BitVec 4) : Bool := decide (1#4 ≤ opcode) && decide (opcode ≤ 8#4)

/-- A legal command is always well formed; an illegal one is well formed when its fields are those of an illegal
word: RSVD not zero (R92), or OPCODE 0x0 or 0x9 to 0xF (R93). -/
def Instr.wellFormed : Instr → Bool
  | .geniv => true
  | .pad => true
  | .unpad => true
  | .encrypt => true
  | .decrypt => true
  | .encryptMsg => true
  | .decryptMsg => true
  | .clear => true
  | .illegal opcode rsvd => decide (rsvd ≠ 0#28) || !legalOpcode opcode

end Sys2Proof
end

