-- ==== Sys2Proof/Decode.lean ====
section
/-! DEFINITION. The decoder and the encoder of the command word (spec/30_encoding.md R90 to R96). -/

namespace Sys2Proof

/-- Field OPCODE, bits 3:0 (R90). -/
def opcodeField (w : Word) : BitVec 4 := w.extractLsb' 0 4

/-- Field RSVD, bits 31:4 (R90). -/
def rsvdField (w : Word) : BitVec 28 := w.extractLsb' 4 28

/-- `decode` of R94: total on every 32-bit word; ILLEGAL is its own verdict. -/
def decodeWord (w : Word) : Instr :=
  if rsvdField w ≠ 0#28 then .illegal (opcodeField w) (rsvdField w)
  else match (opcodeField w).toNat with
    | 1 => .geniv
    | 2 => .pad
    | 3 => .unpad
    | 4 => .encrypt
    | 5 => .decrypt
    | 6 => .encryptMsg
    | 7 => .decryptMsg
    | 8 => .clear
    | _ => .illegal (opcodeField w) (rsvdField w)

/-- Why a string of bytes is no command word. -/
inductive DecodeError where
  /-- Fewer than the four bytes every command word has (R96). -/
  | truncated
  deriving DecidableEq, Repr

/-- A command word laid out as bytes, least significant first (the packing of R63; log 22), and the bytes after it. -/
def decodeBytes : List Byte → Except DecodeError (Instr × List Byte)
  | b0 :: b1 :: b2 :: b3 :: rest => .ok (decodeWord (b3 ++ b2 ++ b1 ++ b0), rest)
  | _ => .error .truncated

/-- OPCODE of an instruction's word (R91). -/
def opcodeOf : Instr → BitVec 4
  | .geniv => 1#4
  | .pad => 2#4
  | .unpad => 3#4
  | .encrypt => 4#4
  | .decrypt => 5#4
  | .encryptMsg => 6#4
  | .decryptMsg => 7#4
  | .clear => 8#4
  | .illegal opcode _ => opcode

/-- RSVD of an instruction's word (R91, R92). -/
def rsvdOf : Instr → BitVec 28
  | .geniv => 0#28
  | .pad => 0#28
  | .unpad => 0#28
  | .encrypt => 0#28
  | .decrypt => 0#28
  | .encryptMsg => 0#28
  | .decryptMsg => 0#28
  | .clear => 0#28
  | .illegal _ rsvd => rsvd

/-- The command word of an instruction (R90, R91). -/
def encode (i : Instr) : Word := rsvdOf i ++ opcodeOf i

/-- The bytes of an instruction's word, least significant first (log 22). -/
def encodeBytes (i : Instr) : List Byte :=
  [(encode i).extractLsb' 0 8, (encode i).extractLsb' 8 8, (encode i).extractLsb' 16 8, (encode i).extractLsb' 24 8]

/-- The bytes, least significant first, of a table row's word `w`. -/
def tableBytes (w : Nat) : List Byte :=
  [BitVec.ofNat 8 w, BitVec.ofNat 8 (w / 2 ^ 8), BitVec.ofNat 8 (w / 2 ^ 16), BitVec.ofNat 8 (w / 2 ^ 24)]

/-- What the decoder reads from a word of spec/opcode_table.json: every row is one 32-bit word (R96). -/
def decodeTableWord (nbits w : Nat) : Option Instr :=
  if nbits ≤ 32 ∧ w < 2 ^ 32 then
    match decodeBytes (tableBytes w) with
    | .ok (i, _) => some i
    | .error _ => none
  else none

end Sys2Proof
end

