-- ==== Sys2Proof/Config.lean ====
section
/-! DEFINITION. What an implementation or the platform fixes, and the free values (spec/00_scope.md R7). An `opaque`
constant has no value any proof can see: what is proved of the machine holds whatever it is. -/

namespace Sys2Proof.Config

/-- `BS`, bytes in a cipher block (R6). -/
abbrev blockSize : Nat := 16

/-- `KS`, bytes in the key (R6). -/
abbrev keySize : Nat := 32

/-- `IVS`, bytes in the IV (R6). -/
abbrev ivSize : Nat := 16

/-- One past the last byte address of system memory (R60, R61). -/
abbrev memorySize : Nat := 2 ^ 32

/-- `BC` (R7, R171, I1): under each key a permutation of the blocks. That is all R171 asks: `D(k, E(k, b)) = b`
makes `E(k, ·)` a bijection and `D(k, ·)` its inverse. Log 4. -/
opaque blockCipher : Key → Equiv.Perm Block

/-- `BC.E` (R7, R170). -/
def encryptBlock (k : Key) (b : Block) : Block := blockCipher k b

/-- `BC.D` (R7, R170). -/
def decryptBlock (k : Key) (b : Block) : Block := (blockCipher k).symm b

/-- `RNG` (R7, R141, I2, I3): the free answer to the `n`-th draw for which `State.entropy` holds no answer; `none`
is `Fail`. It depends on no key, buffer or register. Log 5. -/
opaque rng : Nat → Option Block

/-- The free byte a destination address holds after BUS_ERR or after reset during a command (R74, R271, I4, I5):
the first argument numbers the event, the second is the address. Log 6. -/
opaque freeByte : Nat → Nat → Byte

/-- The free choice between two outcomes (R244, R125, I6, I7), numbered by the event. Log 7. -/
opaque freeBit : Nat → Bool

/-- Bits 31:8 of `ENGINE_BASE` (R7, R21, R80, I13): the window is 256-byte aligned. Log 18. -/
opaque engineBase : BitVec 24

/-- The physical address of window offset `off` (R21). -/
def windowAddress (off : BitVec 8) : Word := engineBase ++ off

/-- How the irq output reaches the host's interrupt controller: the controller's input, and the priority and the vector
it has there (R7, R248). -/
structure IrqRoute where
  line : Nat
  priority : Nat
  vector : Nat
  deriving DecidableEq, Repr, Inhabited

/-- `IRQ_ROUTE` (R7, R248, I13). Log 31. -/
opaque irqRoute : IrqRoute

/-- `NO_DOT_PATH_RULE` (R7, R228, I18): host software only. Log 23. -/
opaque noDotPathRule : List Char → List Char

end Sys2Proof.Config
end

