-- ==== Sys2Proof/Machine/State.lean ====
section
/-! DEFINITION. The state of the engine, its memory, the platform and the pending inputs (spec/10_state.md), as plain data. -/

namespace Sys2Proof.Machine

/-- KEY0..KEY7 (R26). -/
structure KeyRegs where
  k0 : Word
  k1 : Word
  k2 : Word
  k3 : Word
  k4 : Word
  k5 : Word
  k6 : Word
  k7 : Word
  deriving DecidableEq, Repr

/-- IV0..IV3 (R29). -/
structure IvRegs where
  i0 : Word
  i1 : Word
  i2 : Word
  i3 : Word
  deriving DecidableEq, Repr

/-- The errors a command can complete with (R240). -/
inductive Error where
  | illegalCmd
  | noKey
  | ivStale
  | cipherErr
  | paddingErr
  | rangeErr
  | overlap
  | rngFail
  | busErr
  deriving DecidableEq, Repr

/-- The kind of an engine memory access (R61). -/
inductive AccessKind where
  | read
  | write
  deriving DecidableEq, Repr

/-- A piece of system memory and what the platform says of it: whether it admits engine reads and writes (R61), and
whether an access there has side effects (R75). -/
structure Region where
  base : Nat
  size : Nat
  readable : Bool
  writable : Bool
  sideEffects : Bool
  deriving DecidableEq, Repr

/-- The byte range `[base, base + size)` (R66). -/
structure Range where
  base : Nat
  size : Nat
  deriving DecidableEq, Repr

/-- The source range and the maximal destination range of a command (R66). -/
structure Buffers where
  src : Range
  dst : Range
  deriving DecidableEq, Repr

/-- The width of a host access to the window (R64). -/
inductive Width where
  | byte
  | half
  | word
  | double
  deriving DecidableEq, Repr

/-- What an agent does next (R12; log 1). -/
inductive Input where
  /-- The engine sequencer's turn (R124). -/
  | engine
  /-- The input `rst` is asserted and released (R270). -/
  | reset
  /-- A host write to window offset `off`: `HostWrite(off, v)` when `width` is `word` (R110, R64). -/
  | regWrite (off : BitVec 8) (width : Width) (v : Word)
  /-- A host read of window offset `off`: `HostRead(off)` when `width` is `word` (R112, R64). -/
  | regRead (off : BitVec 8) (width : Width)
  /-- The host writes a byte of system memory by its own path (R60). -/
  | memStore (addr : Word) (b : Byte)
  /-- The host reads a byte of system memory by its own path (R60). -/
  | memLoad (addr : Word)
  /-- The host executes `HOST_FENCE` (R73). -/
  | fence
  /-- The host senses the irq wire (R41, R248). -/
  | senseIrq
  deriving DecidableEq, Repr

/-- What the bus returned to the host's last access (log 27). -/
inductive Reply where
  | none
  /-- A write was taken. -/
  | ack
  /-- The word a window read returned (R112). -/
  | data (v : Word)
  /-- The byte a memory read returned. -/
  | byte (b : Byte)
  /-- The level of irq (R41). -/
  | irq (level : Bool)
  deriving DecidableEq, Repr

/-- CUR, the latched command (R38, R119). -/
structure Latched where
  op : Instr
  src : Word
  dst : Word
  len : Word
  ivEnforce : Bool
  key : Key
  iv : Block
  deriving DecidableEq, Repr

/-- System memory: the listed bytes, addresses strictly rising, none equal to what an unlisted address reads as. -/
abbrev Memory := List Host.Cell

/-- The whole state: the engine's (R20), system memory (R61), the platform (R7), and the model's own fields. -/
structure State where
  /-- CTRL.IE (R22). -/
  ie : Bool
  /-- CTRL.IV_ENFORCE (R22). -/
  ivEnforce : Bool
  /-- STATUS.DONE (R40). -/
  done : Bool
  /-- STATUS.BUSY_VIOL (R39). -/
  busyViol : Bool
  /-- KEY_WR (R27). -/
  keyWr : BitVec 8
  /-- IV_FRESH (R30). -/
  ivFresh : Bool
  /-- ERRCODE.CODE (R37). -/
  errCode : BitVec 4
  /-- SRC_ADDR (R31). -/
  srcAddr : Word
  /-- DST_ADDR (R32). -/
  dstAddr : Word
  /-- LEN (R33). -/
  len : Word
  /-- OUT_LEN (R35). -/
  outLen : Word
  /-- PADN.N (R36). -/
  padN : BitVec 5
  /-- KEY0..KEY7 (R26). -/
  key : KeyRegs
  /-- IV0..IV3 (R29). -/
  iv : IvRegs
  /-- CV (R34). -/
  cv : Block
  /-- CUR (R38); STATUS.BUSY is 1 exactly while this holds a command. -/
  cur : Option Latched
  /-- System memory (R61). -/
  mem : Memory
  /-- `Admit` and the places with access side effects (R7, R61, R75); no step changes it. Log 9. -/
  platform : List Region
  /-- Answers the entropy source has ready, next first; `none` is `Fail` (R141). Log 5. -/
  entropy : List (Option Block)
  /-- The model's own: how many draws were answered by `Config.rng`. Log 8. -/
  draws : Nat
  /-- The model's own: how many times the other free values were used. Log 8. -/
  frees : Nat
  /-- The model's own: what the agents do next, first first. Log 1. -/
  inputs : List Input
  /-- The model's own: the answer to the host's last access. Log 27. -/
  reply : Reply
  /-- The model's own: addresses the host has written since its last fence (R73). Log 14. -/
  unfenced : List Nat
  /-- The model's own: buffers of the memory commands issued since the host last observed BUSY = 0 (R273). Logs 14, 17. -/
  pending : List Buffers
  /-- The model's own: destination ranges the host may not read before its next fence (R73). Log 14. -/
  results : List Range
  deriving DecidableEq, Repr

/-- How a run can stop. Every one is the host breaking a rule of the spec; no error of a command is a fault (R247). -/
inductive Fault where
  /-- Raised by a window access that is not 32 bits wide or not 4-byte aligned (R64, R245). Safe: the run stops. -/
  | hostBusError
  /-- Raised by a host memory access to a buffer of a command not yet observed complete (R246, R273). Safe. -/
  | bufferHazard
  /-- Raised by issuing a command over source bytes written since the last fence, or by reading a destination
  before the fence owed after completion (R73, R246). Safe. -/
  | missingFence
  /-- Raised by a memory command pointed at memory with access side effects (R75, R246): by the CMD write that would issue
  it, and by `exec` of one that a state holds all the same. Safe: the run stops. -/
  | sideEffectMemory
  /-- Raised by a host load or store at an address the platform says has side effects: a device, which the spec does
  not describe (R75). Safe. -/
  | deviceAccess
  deriving DecidableEq, Repr

/-- How the model can refuse. -/
inductive Refusal where
  /-- Raised only by an arm of `exec` for an instruction without a meaning; there is none now. Safe. -/
  | notModelled (mnemonic : String)
  deriving DecidableEq, Repr

/-- The outcome of a meaning or of a step. -/
abbrev Result := Host.Outcome State Fault Refusal

/-- KEY0..KEY7 all zero (R43, R122). -/
def KeyRegs.zero : KeyRegs := ⟨0, 0, 0, 0, 0, 0, 0, 0⟩

/-- IV0..IV3 all zero (R43, R210). -/
def IvRegs.zero : IvRegs := ⟨0, 0, 0, 0⟩

/-- The state after reset (R43, R270), with nothing in memory, every address ordinary admitted memory (log 9), and
nothing waiting. -/
def State.reset : State where
  ie := false
  ivEnforce := true
  done := false
  busyViol := false
  keyWr := 0
  ivFresh := false
  errCode := 0
  srcAddr := 0
  dstAddr := 0
  len := 0
  outLen := 0
  padN := 0
  key := KeyRegs.zero
  iv := IvRegs.zero
  cv := 0
  cur := none
  mem := []
  platform := [⟨0, Config.memorySize, true, true, false⟩]
  entropy := []
  draws := 0
  frees := 0
  inputs := []
  reply := .none
  unfenced := []
  pending := []
  results := []

end Sys2Proof.Machine
end

