-- ==== Sys2Proof/Machine/Ops.lean ====
section
/-! DEFINITION. The operations every command shares: byte packing, memory, the key and IV registers, the entropy draw,
issue, and completion with and without an error (spec/20_memory.md, spec/40_register_interface.md). -/

namespace Sys2Proof.Machine

/-! ## Byte packing (R10, R26, R29) -/

/-- The number whose little-endian bytes are `b`. -/
def leNat : List Byte → Nat
  | [] => 0
  | b :: bs => b.toNat + 256 * leNat bs

/-- The `n` low bytes of `v`, least significant first. -/
def leBytes : Nat → Nat → List Byte
  | 0, _ => []
  | n + 1, v => BitVec.ofNat 8 v :: leBytes n (v / 256)

/-- A `Bytes16` as a block. -/
def blockOfBytes (b : List Byte) : Block := BitVec.ofNat 128 (leNat b)

/-- A block as a `Bytes16`. -/
def bytesOfBlock (b : Block) : List Byte := leBytes Config.blockSize b.toNat

/-- K assembled from KEY0..KEY7: byte `4j+b` is bits `8b+7 : 8b` of KEYj (R26). -/
def keyOfRegs (r : KeyRegs) : Key := r.k7 ++ r.k6 ++ r.k5 ++ r.k4 ++ r.k3 ++ r.k2 ++ r.k1 ++ r.k0

/-- IVb assembled from IV0..IV3 (R29). -/
def blockOfIv (r : IvRegs) : Block := r.i3 ++ r.i2 ++ r.i1 ++ r.i0

/-- IV0..IV3 holding the bytes of a block (R29). -/
def ivOfBlock (b : Block) : IvRegs :=
  ⟨b.extractLsb' 0 32, b.extractLsb' 32 32, b.extractLsb' 64 32, b.extractLsb' 96 32⟩

/-- KEYj <- v (R114). -/
def setKeyWord (r : KeyRegs) (j : Fin 8) (v : Word) : KeyRegs :=
  match j with
  | 0 => { r with k0 := v }
  | 1 => { r with k1 := v }
  | 2 => { r with k2 := v }
  | 3 => { r with k3 := v }
  | 4 => { r with k4 := v }
  | 5 => { r with k5 := v }
  | 6 => { r with k6 := v }
  | 7 => { r with k7 := v }

/-- IVj (R112). -/
def ivWord (r : IvRegs) (j : Fin 4) : Word :=
  match j with
  | 0 => r.i0
  | 1 => r.i1
  | 2 => r.i2
  | 3 => r.i3

/-- IVj <- v (R115). -/
def setIvWord (r : IvRegs) (j : Fin 4) (v : Word) : IvRegs :=
  match j with
  | 0 => { r with i0 := v }
  | 1 => { r with i1 := v }
  | 2 => { r with i2 := v }
  | 3 => { r with i3 := v }

/-! ## System memory (R61, R62) -/

/-- What an unlisted address reads as (R271 leaves memory unreset; DESIGN CHOICE, unsafe, log 10). -/
def Memory.unlisted : Byte := 0#8

/-- The canonical form from address `lo` on: addresses strictly rising and inside memory, no entry equal to the
unlisted byte. -/
def Memory.wfFrom (lo : Nat) : Memory → Bool
  | [] => true
  | (a, b) :: m => decide (lo ≤ a) && decide (a < Config.memorySize) && (b != Memory.unlisted) && Memory.wfFrom (a + 1) m

/-- The canonical form of memory. -/
def Memory.wf (m : Memory) : Bool := Memory.wfFrom 0 m

/-- `Mem(a)` (R61). -/
def Memory.read : Memory → Nat → Byte
  | [], _ => Memory.unlisted
  | (k, v) :: m, a => if a = k then v else Memory.read m a

/-- Memory without an entry for `a`. -/
def Memory.erase (m : Memory) (a : Nat) : Memory := m.filter fun c => c.1 != a

/-- Memory with an entry for `a` placed before the first larger address. -/
def Memory.insert : Memory → Nat → Byte → Memory
  | [], a, b => [(a, b)]
  | (k, v) :: m, a, b => if a < k then (a, b) :: (k, v) :: m else (k, v) :: Memory.insert m a b

/-- `Mem(a) <- b` (R62), keeping the canonical form. -/
def Memory.write (m : Memory) (a : Nat) (b : Byte) : Memory :=
  if b = Memory.unlisted then Memory.erase m a else Memory.insert (Memory.erase m a) a b

/-- `MemRead(a, n)` (R62). -/
def Memory.readBytes (m : Memory) : Nat → Nat → List Byte
  | _, 0 => []
  | a, n + 1 => Memory.read m a :: Memory.readBytes m (a + 1) n

/-- `MemWrite(a, n, v)` (R62). -/
def Memory.writeBytes : Memory → Nat → List Byte → Memory
  | m, _, [] => m
  | m, a, b :: bs => Memory.writeBytes (Memory.write m a b) (a + 1) bs

/-- The `n` free bytes of event `idx` for the addresses from `a` on (R74, R271). -/
def freeBytes (idx : Nat) : Nat → Nat → List Byte
  | _, 0 => []
  | a, n + 1 => Config.freeByte idx a :: freeBytes idx (a + 1) n

/-- MemWrite as an update of the state. -/
def State.store (s : State) (a : Nat) (bytes : List Byte) : State :=
  { s with mem := Memory.writeBytes s.mem a bytes }

/-- Every byte of `[a, a + n)` that lies in memory holds any value (R74, R271; logs 6, 26). -/
def State.scramble (s : State) (a n : Nat) : State :=
  { s with
    mem := Memory.writeBytes s.mem a (freeBytes s.frees a (min n (Config.memorySize - a)))
    frees := s.frees + 1 }

/-! ## The model's own queue and the host's reply (logs 1, 27) -/

/-- The state with the inputs `l` waiting. -/
def State.withInputs (l : List Input) (s : State) : State := { s with inputs := l }

/-- The state with the reply `r` to the host's last access. -/
def State.withReply (r : Reply) (s : State) : State := { s with reply := r }

/-- The state with the buffers `p` not yet observed complete (log 14). -/
def State.withPending (p : List Buffers) (s : State) : State := { s with pending := p }

/-! ## The entropy draw (R141) -/

/-- The answer of the next `Draw()`: the first one waiting, else the free stream (log 5). -/
def State.nextDraw (s : State) : Option Block :=
  match s.entropy with
  | d :: _ => d
  | [] => Config.rng s.draws

/-- The state after one `Draw()`. -/
def State.dropDraw (s : State) : State :=
  { s with
    entropy := s.entropy.tail
    draws := if s.entropy.isEmpty then s.draws + 1 else s.draws }

/-- IV0..IV3 <- the bytes of `b`, fresh or not (R140, R190). -/
def State.setIv (b : Block) (fresh : Bool) (s : State) : State := { s with iv := ivOfBlock b, ivFresh := fresh }

/-- IV_FRESH <- 0 (R174). -/
def State.useIv (s : State) : State := { s with ivFresh := false }

/-- Key, KEY_WR, IV, IV_FRESH and CV <- 0 (R210). -/
def State.zeroise (s : State) : State :=
  { s with key := KeyRegs.zero, keyWr := 0, iv := IvRegs.zero, ivFresh := false, cv := 0 }

/-! ## Issue and completion (R119 to R123) -/

/-- CUR as issue would fill it now (R38, R119). -/
def State.latch (op : Instr) (s : State) : Latched :=
  ⟨op, s.srcAddr, s.dstAddr, s.len, s.ivEnforce, keyOfRegs s.key, blockOfIv s.iv⟩

/-- The operands a command runs on: CUR, or the registers where no command is latched (R38; log 11). -/
def State.operands (op : Instr) (s : State) : Latched := s.cur.getD (s.latch op)

/-- The issue step (R119). -/
def State.issue (w : Word) (s : State) : State :=
  { s with
    cur := some (s.latch (decodeWord w))
    done := false
    errCode := 0
    outLen := 0
    padN := 0 }

/-- ERRCODE.CODE of an error (R240). -/
def errorCode : Error → BitVec 4
  | .illegalCmd => 1#4
  | .noKey => 2#4
  | .ivStale => 3#4
  | .cipherErr => 4#4
  | .paddingErr => 5#4
  | .rangeErr => 6#4
  | .overlap => 7#4
  | .rngFail => 8#4
  | .busErr => 9#4

/-- The keyed commands (R91, R122). -/
def isKeyed : Instr → Bool
  | .geniv => false
  | .pad => false
  | .unpad => false
  | .encrypt => true
  | .decrypt => true
  | .encryptMsg => true
  | .decryptMsg => true
  | .clear => false
  | .illegal _ _ => false

/-- `keyed_cleanup()` (R122). -/
def State.keyedCleanup (op : Instr) (s : State) : State :=
  { s with
    key := if isKeyed op then KeyRegs.zero else s.key
    keyWr := if isKeyed op then 0 else s.keyWr }

/-- What every completion does, whatever its code: results, clean-up, CV, DONE and BUSY (R120 to R123). -/
def State.finish (op : Instr) (code : BitVec 4) (outLen : Nat) (n : Nat) (s : State) : State :=
  { s.keyedCleanup op with
    outLen := BitVec.ofNat 32 outLen
    padN := BitVec.ofNat 5 n
    errCode := code
    cv := 0
    done := true
    cur := none }

/-- `complete(out_len, n)` (R120). -/
def State.complete (op : Instr) (outLen n : Nat) (s : State) : State := s.finish op 0#4 outLen n

/-- `raise E` (R121): the whole of the engine's exception entry (R247). There is no return from it (R250). -/
def State.raise (op : Instr) (e : Error) (s : State) : State := s.finish op (errorCode e) 0 0

end Sys2Proof.Machine
end

