-- ==== Sys2Proof/Machine/Flags.lean ====
section
/-! DEFINITION. The flags: STATUS and its computed bits, CTRL, irq (spec/10_state.md R22, R24, R27, R41, R45). -/

namespace Sys2Proof.Machine

/-- STATUS.BUSY (R24, R38). -/
def State.busy (s : State) : Bool := s.cur.isSome

/-- KEY_VALID (R27). -/
def State.keyValid (s : State) : Bool := s.keyWr == 0xFF#8

/-- The irq wire (R41). -/
def State.irq (s : State) : Bool := s.done && s.ie

/-- What the engine asks of the host's interrupt controller: an interrupt on `IRQ_ROUTE` while irq is 1 (R248; log 31). -/
def State.interruptRequest (s : State) : Option Config.IrqRoute := if s.irq then some Config.irqRoute else none

/-- What a read of CTRL returns (R112). -/
def State.ctrlWord (s : State) : Word := BitVec.ofNat 32 (2 * s.ivEnforce.toNat + s.ie.toNat)

/-- What a read of STATUS returns (R24, R112). -/
def State.statusWord (s : State) : Word :=
  BitVec.ofNat 32 (s.busy.toNat + 2 * s.done.toNat + 4 * s.keyValid.toNat + 8 * s.ivFresh.toNat
    + 16 * s.busyViol.toNat + 256 * s.keyWr.toNat)

/-- A write to CTRL (R113). -/
def State.writeCtrl (v : Word) (s : State) : State := { s with ie := v.getLsbD 0, ivEnforce := v.getLsbD 1 }

/-- A write to STATUS: DONE and BUSY_VIOL are cleared by writing 1 (R117). -/
def State.writeStatus (v : Word) (s : State) : State :=
  { s with done := s.done && !v.getLsbD 1, busyViol := s.busyViol && !v.getLsbD 4 }

end Sys2Proof.Machine
end

