-- ==== Sys2Proof/Machine/Operands.lean ====
section
/-! DEFINITION. The operands of the commands: ranges, the checks on them, what the platform admits, and the memory phase
the commands share (spec/20_memory.md R66 to R75, spec/60_exceptions.md R242, R244). -/

namespace Sys2Proof.Machine

/-- `padlen(L)` (R150). -/
def padlen (l : Nat) : Nat := Config.blockSize - l % Config.blockSize

/-- The commands that access memory (R60, R91). -/
def isMemoryCommand : Instr → Bool
  | .geniv => false
  | .pad => true
  | .unpad => true
  | .encrypt => true
  | .decrypt => true
  | .encryptMsg => true
  | .decryptMsg => true
  | .clear => false
  | .illegal _ _ => false

/-- `maxout` (R66). -/
def maxout : Instr → Nat → Nat
  | .geniv, _ => 0
  | .pad, l => l + padlen l
  | .unpad, l => l
  | .encrypt, l => l
  | .decrypt, l => l
  | .encryptMsg, l => l + padlen l
  | .decryptMsg, l => l
  | .clear, _ => 0
  | .illegal _ _, _ => 0

/-- `a` is one of the addresses of `r`. -/
def Range.contains (r : Range) (a : Nat) : Bool := decide (r.base ≤ a) && decide (a < r.base + r.size)

/-- `r` and `q` have an address in common. -/
def Range.meets (r q : Range) : Bool :=
  decide (0 < r.size) && decide (0 < q.size) && decide (r.base < q.base + q.size) && decide (q.base < r.base + r.size)

/-- The source range and the maximal destination range of a memory command (R66). -/
def buffersOf (op : Instr) (c : Latched) : Option Buffers :=
  if isMemoryCommand op then
    some ⟨⟨c.src.toNat, c.len.toNat⟩, ⟨c.dst.toNat, maxout op c.len.toNat⟩⟩
  else none

/-- The range rule fails (R68). -/
def rangeFails (op : Instr) (c : Latched) : Bool :=
  decide (Config.memorySize < c.src.toNat + c.len.toNat) ||
    decide (Config.memorySize < c.dst.toNat + maxout op c.len.toNat)

/-- The overlap rule fails (R69). -/
def overlapFails (op : Instr) (c : Latched) : Bool :=
  decide (0 < c.len.toNat) && (c.src != c.dst) &&
    decide (c.src.toNat < c.dst.toNat + maxout op c.len.toNat) && decide (c.dst.toNat < c.src.toNat + c.len.toNat)

/-- LEN is no positive multiple of 16 (R174, R175, R191). -/
def misaligned (c : Latched) : Bool :=
  decide (c.len.toNat = 0) || decide (c.len.toNat % Config.blockSize ≠ 0)

/-- LEN is below 16 or no multiple of 16 (R154). -/
def unpadLengthFails (c : Latched) : Bool :=
  decide (c.len.toNat < Config.blockSize) || decide (c.len.toNat % Config.blockSize ≠ 0)

/-- Checks in the order of R242: the first that fails is the one reported. -/
def firstError : List (Bool × Error) → Option Error
  | [] => none
  | (fails, e) :: rest => if fails then some e else firstError rest

/-- The platform allows an access of this kind in this region. -/
def Region.allows (r : Region) : AccessKind → Bool
  | .read => r.readable
  | .write => r.writable

/-- `Admit(a, kind)` (R61, R7). -/
def admits (p : List Region) (kind : AccessKind) (a : Nat) : Bool :=
  p.any fun r => Range.contains ⟨r.base, r.size⟩ a && r.allows kind

/-- Every address of `[a, a + n)` is admitted. -/
def admitsAll (p : List Region) (kind : AccessKind) : Nat → Nat → Bool
  | _, 0 => true
  | a, n + 1 => admits p kind a && admitsAll p kind (a + 1) n

/-- A buffer reaches memory with access side effects (R75). -/
def touchesSideEffects (p : List Region) (b : Buffers) : Bool :=
  p.any fun r => r.sideEffects && (Range.meets ⟨r.base, r.size⟩ b.src || Range.meets ⟨r.base, r.size⟩ b.dst)

/-- The source bytes (R62, R70). -/
def State.source (s : State) (c : Latched) : List Byte := Memory.readBytes s.mem c.src.toNat c.len.toNat

/-- The platform admits reading the source range (R74). -/
def State.sourceAdmitted (s : State) (c : Latched) : Bool :=
  admitsAll s.platform .read c.src.toNat c.len.toNat

/-- The platform admits reading the source range and writing `n` bytes at DST (R74). -/
def State.accessible (s : State) (c : Latched) (n : Nat) : Bool :=
  s.sourceAdmitted c && admitsAll s.platform .write c.dst.toNat n

/-- Completion with BUS_ERR: the maximal destination range holds any value (R74). -/
def State.busError (op : Instr) (c : Latched) (s : State) : State :=
  (s.scramble c.dst.toNat (maxout op c.len.toNat)).raise op .busErr

/-- Both a padding failure and a bus error apply: which is reported is a draw (R244; log 7). -/
def State.paddingOrBusError (op : Instr) (c : Latched) (s : State) : State :=
  if Config.freeBit s.frees then s.busError op c
  else State.raise op .paddingErr { s with frees := s.frees + 1 }

/-- The memory phase that writes `out` at DST and completes, or ends in BUS_ERR (R74, R120). -/
def State.writeOut (op : Instr) (c : Latched) (out : List Byte) (n : Nat) (s : State) : State :=
  if s.accessible c out.length then (s.store c.dst.toNat out).complete op out.length n
  else s.busError op c

/-- The memory phase of UNPAD and DECRYPT_MSG: the content check against the bus errors (R242 step 9, R244). -/
def State.writeUnpadded (op : Instr) (c : Latched) (r : Option (List Byte × Nat)) (s : State) : State :=
  match r with
  | some (p, n) => s.writeOut op c p n
  | none => if s.sourceAdmitted c then s.raise op .paddingErr else s.paddingOrBusError op c

/-- The frame of a memory command: the side-effect fault (R75; log 15), the operand checks in order (R242), and its
memory phase. -/
def State.memoryCommand (op : Instr) (s : State) (checks : Latched → List (Bool × Error)) (body : Latched → State) :
    Result :=
  let c := s.operands op
  if (buffersOf op c).any (touchesSideEffects s.platform) then .fault .sideEffectMemory
  else match firstError (checks c) with
    | some e => .next (s.raise op e)
    | none => .next (body c)

end Sys2Proof.Machine
end

