-- ==== Sys2Proof/Machine/Cipher.lean ====
section
/-! DEFINITION. The CBC functions, ENCRYPT and DECRYPT (spec/43_cipher.md). -/

namespace Sys2Proof.Machine

/-- The first `n` blocks of a byte string (R10). -/
def blocksOf : Nat → List Byte → List Block
  | 0, _ => []
  | n + 1, b => blockOfBytes (b.take Config.blockSize) :: blocksOf n (b.drop Config.blockSize)

/-- `blocks(b)` (R10). -/
def toBlocks (b : List Byte) : List Block := blocksOf (b.length / Config.blockSize) b

/-- The concatenation of blocks. -/
def ofBlocks : List Block → List Byte
  | [] => []
  | b :: bs => bytesOfBlock b ++ ofBlocks bs

/-- The block loop of CBC_Enc under the block encryption `e`: `cv` is the chaining value (R172). -/
def cbcEncBlocks (e : Block → Block) (cv : Block) : List Block → List Block
  | [] => []
  | p :: ps => e (p ^^^ cv) :: cbcEncBlocks e (e (p ^^^ cv)) ps

/-- The block loop of CBC_Dec under the block decryption `d` (R173). -/
def cbcDecBlocks (d : Block → Block) (cv : Block) : List Block → List Block
  | [] => []
  | c :: cs => (d c ^^^ cv) :: cbcDecBlocks d c cs

/-- CBC encryption of a byte string under a block encryption. -/
def cbcEncWith (e : Block → Block) (iv : Block) (p : List Byte) : List Byte := ofBlocks (cbcEncBlocks e iv (toBlocks p))

/-- CBC decryption of a byte string under a block decryption. -/
def cbcDecWith (d : Block → Block) (iv : Block) (c : List Byte) : List Byte := ofBlocks (cbcDecBlocks d iv (toBlocks c))

/-- `CBC_Enc(k, iv, P)` (R172). -/
def cbcEnc (k : Key) (iv : Block) (p : List Byte) : List Byte := cbcEncWith (Config.encryptBlock k) iv p

/-- `CBC_Dec(k, iv, C)` (R173). -/
def cbcDec (k : Key) (iv : Block) (c : List Byte) : List Byte := cbcDecWith (Config.decryptBlock k) iv c

/-- ENCRYPT (R174). -/
def execEncrypt (s : State) : Result :=
  s.memoryCommand .encrypt
    (fun c => [(!s.keyValid, .noKey), (c.ivEnforce && !s.ivFresh, .ivStale), (misaligned c, .cipherErr),
      (rangeFails .encrypt c, .rangeErr), (overlapFails .encrypt c, .overlap)])
    (fun c => s.useIv.writeOut .encrypt c (cbcEnc c.key c.iv (s.source c)) 0)

/-- DECRYPT (R175). -/
def execDecrypt (s : State) : Result :=
  s.memoryCommand .decrypt
    (fun c => [(!s.keyValid, .noKey), (misaligned c, .cipherErr),
      (rangeFails .decrypt c, .rangeErr), (overlapFails .decrypt c, .overlap)])
    (fun c => s.writeOut .decrypt c (cbcDec c.key c.iv (s.source c)) 0)

end Sys2Proof.Machine
end

