-- ==== Sys2Proof/Machine/Generator.lean ====
section
/-! DEFINITION. GENIV (spec/41_iv_generator.md). -/

namespace Sys2Proof.Machine

/-- GENIV (R140). -/
def execGeniv (s : State) : Result :=
  match s.nextDraw with
  | none => .next (s.dropDraw.raise .geniv .rngFail)
  | some b => .next ((s.dropDraw.setIv b true).complete .geniv 0 0)

end Sys2Proof.Machine
end

