-- ==== Sys2Proof/Machine/Maintenance.lean ====
section
/-! DEFINITION. CLEAR and the illegal words (spec/45_maintenance.md, spec/30_encoding.md R92, R93). -/

namespace Sys2Proof.Machine

/-- CLEAR (R210). -/
def execClear (s : State) : Result :=
  .next (s.zeroise.complete .clear 0 0)

/-- ILLEGAL: ILLEGAL_CMD is its only action (R92, R93, R127). -/
def execIllegal (opcode : BitVec 4) (rsvd : BitVec 28) (s : State) : Result :=
  .next (s.raise (.illegal opcode rsvd) .illegalCmd)

end Sys2Proof.Machine
end

