-- ==== Sys2Proof/Machine/Padding.lean ====
section
/-! DEFINITION. The padding functions, PAD and UNPAD (spec/42_padding.md). -/

namespace Sys2Proof.Machine

/-- `Pad` (R151). -/
def padBytes (d : List Byte) : List Byte :=
  d ++ List.replicate (padlen d.length) (BitVec.ofNat 8 (padlen d.length))

/-- `Unpad` (R152). -/
def unpadBytes (d : List Byte) : Option (List Byte × Nat) :=
  if d.length < Config.blockSize then none
  else if d.length % Config.blockSize ≠ 0 then none
  else
    let last := d.getD (d.length - 1) 0#8
    let n := last.toNat
    if n < 1 ∨ Config.blockSize < n then none
    else if (d.drop (d.length - n)).all (· == last) then some (d.take (d.length - n), n)
    else none

/-- PAD (R153). -/
def execPad (s : State) : Result :=
  s.memoryCommand .pad
    (fun c => [(rangeFails .pad c, .rangeErr), (overlapFails .pad c, .overlap)])
    (fun c => s.writeOut .pad c (padBytes (s.source c)) (padlen c.len.toNat))

/-- UNPAD (R154). -/
def execUnpad (s : State) : Result :=
  s.memoryCommand .unpad
    (fun c => [(unpadLengthFails c, .paddingErr), (rangeFails .unpad c, .rangeErr), (overlapFails .unpad c, .overlap)])
    (fun c => s.writeUnpadded .unpad c (unpadBytes (s.source c)))

end Sys2Proof.Machine
end

