-- ==== Sys2Proof/Machine/Message.lean ====
section
/-! DEFINITION. ENCRYPT_MSG and DECRYPT_MSG (spec/44_message.md). -/

namespace Sys2Proof.Machine

/-- ENCRYPT_MSG (R190). -/
def execEncryptMsg (s : State) : Result :=
  s.memoryCommand .encryptMsg
    (fun c => [(!s.keyValid, .noKey), (rangeFails .encryptMsg c, .rangeErr), (overlapFails .encryptMsg c, .overlap)])
    (fun c => match s.nextDraw with
      | none => s.dropDraw.raise .encryptMsg .rngFail
      | some b =>
        (s.dropDraw.setIv b false).writeOut .encryptMsg c (cbcEnc c.key b (padBytes (s.source c))) (padlen c.len.toNat))

/-- DECRYPT_MSG (R191). -/
def execDecryptMsg (s : State) : Result :=
  s.memoryCommand .decryptMsg
    (fun c => [(!s.keyValid, .noKey), (misaligned c, .cipherErr),
      (rangeFails .decryptMsg c, .rangeErr), (overlapFails .decryptMsg c, .overlap)])
    (fun c => s.writeUnpadded .decryptMsg c (unpadBytes (cbcDec c.key c.iv (s.source c))))

end Sys2Proof.Machine
end

