-- ==== Sys2Proof/Machine/Dispatch.lean ====
section
/-! DEFINITION. The completion step of each command (spec/40_register_interface.md R124): one arm per constructor. -/

namespace Sys2Proof.Machine

def exec (i : Instr) (s : State) : Host.Outcome State Fault Refusal :=
  match i with
  | .geniv => Sys2Proof.Machine.execGeniv s
  | .pad => Sys2Proof.Machine.execPad s
  | .unpad => Sys2Proof.Machine.execUnpad s
  | .encrypt => Sys2Proof.Machine.execEncrypt s
  | .decrypt => Sys2Proof.Machine.execDecrypt s
  | .encryptMsg => Sys2Proof.Machine.execEncryptMsg s
  | .decryptMsg => Sys2Proof.Machine.execDecryptMsg s
  | .clear => Sys2Proof.Machine.execClear s
  | .illegal opcode rsvd => Sys2Proof.Machine.execIllegal opcode rsvd s

end Sys2Proof.Machine
end

