-- ==== Sys2Proof/Machine/HostInterface.lean ====
section
/-! DEFINITION. What the agents outside the sequencer do: host accesses to the window, host accesses to memory, the fence,
sensing irq, and reset (spec/40_register_interface.md, spec/60_exceptions.md, spec/70_reset_and_hazards.md). -/

namespace Sys2Proof.Machine

/-- A register of the window (R21). -/
inductive Reg where
  | ctrl
  | cmd
  | status
  | errcode
  | srcAddr
  | dstAddr
  | len
  | outLen
  | padn
  | key (j : Fin 8)
  | iv (j : Fin 4)
  | reserved
  deriving DecidableEq, Repr

/-- The register at window offset `off` (R21). -/
def regAt (off : BitVec 8) : Reg :=
  if off = 0x00#8 then .ctrl
  else if off = 0x04#8 then .cmd
  else if off = 0x08#8 then .status
  else if off = 0x0C#8 then .errcode
  else if off = 0x10#8 then .srcAddr
  else if off = 0x14#8 then .dstAddr
  else if off = 0x18#8 then .len
  else if off = 0x1C#8 then .outLen
  else if off = 0x20#8 then .padn
  else if 0x30#8 ≤ off ∧ off ≤ 0x4C#8 then .key (Fin.ofNat 8 ((off.toNat - 0x30) / 4))
  else if 0x50#8 ≤ off ∧ off ≤ 0x5C#8 then .iv (Fin.ofNat 4 ((off.toNat - 0x50) / 4))
  else .reserved

/-- The only window access the engine answers: 32 bits wide at a multiple of 4 (R64). -/
def wellFormedAccess (off : BitVec 8) (width : Width) : Bool :=
  (width == .word) && decide (off.toNat % 4 = 0)

/-! ## Host writes -/

/-- A write to KEYj (R114). -/
def State.writeKey (j : Fin 8) (v : Word) (s : State) : State :=
  { s with key := setKeyWord s.key j v, keyWr := s.keyWr ||| (1#8 <<< j.val) }

/-- A write to IVj (R115). -/
def State.writeIv (j : Fin 4) (v : Word) (s : State) : State :=
  { s with iv := setIvWord s.iv j v, ivFresh := false }

/-- The buffers of the command that word `v` would issue now (R66). -/
def State.issueBuffers (v : Word) (s : State) : Option Buffers := buffersOf (decodeWord v) (s.latch (decodeWord v))

/-- Issue by the host: from here on a memory command's buffers are the host's to leave alone until it observes completion
(R119, R273; log 14). -/
def State.accept (v : Word) (s : State) : State :=
  (s.issue v).withPending ((s.issueBuffers v).toList ++ s.pending)

/-- A write to CMD while idle (R118, R119). A memory command over source bytes the host has written since its last
fence has no meaning (R73), and so has one pointed at memory with access side effects (R75, R246; log 15). -/
def State.writeCmd (v : Word) (s : State) : Result :=
  if (s.issueBuffers v).any fun b => s.unfenced.any b.src.contains then .fault .missingFence
  else if (s.issueBuffers v).any (touchesSideEffects s.platform) then .fault .sideEffectMemory
  else .next (s.accept v)

/-- `HostWrite(off, v)` (R110, R111, R128, R42). -/
def hostWrite (off : BitVec 8) (v : Word) (s : State) : Result :=
  if regAt off = .status then .next (s.writeStatus v)
  else if s.busy then .next { s with busyViol := true }
  else match regAt off with
    | .ctrl => .next (s.writeCtrl v)
    | .cmd => s.writeCmd v
    | .status => .next (s.writeStatus v)
    | .errcode => .next s
    | .srcAddr => .next { s with srcAddr := v }
    | .dstAddr => .next { s with dstAddr := v }
    | .len => .next { s with len := v }
    | .outLen => .next s
    | .padn => .next s
    | .key j => .next (s.writeKey j v)
    | .iv j => .next (s.writeIv j v)
    | .reserved => .next s

/-! ## Host reads -/

/-- What a window read returns when no command writes the IV at the same time (R112, R28). -/
def State.readReg (s : State) : Reg → Word
  | .ctrl => s.ctrlWord
  | .cmd => 0#32
  | .status => s.statusWord
  | .errcode => s.errCode.setWidth 32
  | .srcAddr => s.srcAddr
  | .dstAddr => s.dstAddr
  | .len => s.len
  | .outLen => s.outLen
  | .padn => s.padN.setWidth 32
  | .key _ => 0#32
  | .iv j => ivWord s.iv j
  | .reserved => 0#32

/-- The commands that write the IV while they run (R125). -/
def writesIv : Instr → Bool
  | .geniv => true
  | .pad => false
  | .unpad => false
  | .encrypt => false
  | .decrypt => false
  | .encryptMsg => true
  | .decryptMsg => false
  | .clear => true
  | .illegal _ _ => false

/-- IV0..IV3 as the running command leaves them (R125; log 19). -/
def State.ivAfter (op : Instr) (s : State) : IvRegs :=
  match exec op s with
  | .next t => t.iv
  | .fault _ => s.iv
  | .refused _ => s.iv

/-- Where `seen` holds the host has observed BUSY = 0: the buffers of the commands issued before are free of the
hazard of R273, and their destinations wait for the fence of R73 (log 14; for a command that reset abandoned, log 17). -/
def State.observe (seen : Bool) (s : State) : State :=
  { s with
    pending := if seen then [] else s.pending
    results := if seen then s.pending.map (·.dst) ++ s.results else s.results }

/-- The command running now writes the IV (R125). -/
def State.ivInFlight (s : State) : Bool := s.cur.any fun c => writesIv c.op

/-- The IV words a read finds: during a command that writes them, those before or those after, a draw (R125). -/
def State.visibleIv (s : State) : IvRegs :=
  match s.cur with
  | some c => if writesIv c.op && Config.freeBit s.frees then s.ivAfter c.op else s.iv
  | none => s.iv

/-- A read of IVj (R112, R125). -/
def State.readIv (j : Fin 4) (s : State) : State :=
  { s with
    reply := .data (ivWord s.visibleIv j)
    frees := if s.ivInFlight then s.frees + 1 else s.frees }

/-- A read of STATUS, by which the host observes whether the engine is idle (R112, R273). -/
def State.readStatus (s : State) : State := (s.observe (!s.busy)).withReply (.data s.statusWord)

/-- `HostRead(off)` (R112). -/
def hostRead (off : BitVec 8) (s : State) : State :=
  match regAt off with
  | .iv j => s.readIv j
  | .status => s.readStatus
  | r => s.withReply (.data (s.readReg r))

/-- The host senses irq; irq = 1 tells it the engine is idle (R41, R72, R273). -/
def State.senseIrq (s : State) : State := (s.observe s.irq).withReply (.irq s.irq)

/-! ## Host accesses to system memory (R60, R73, R246, R273; log 14) -/

/-- The buffers of the running command (R66). -/
def State.runningBuffers (s : State) : Option Buffers :=
  match s.cur with
  | some c => buffersOf c.op c
  | none => none

/-- Writing address `a` now breaks the buffer hazard rule (R246, R273). -/
def State.storeHazard (s : State) (a : Nat) : Bool :=
  s.runningBuffers.any (fun b => b.src.contains a || b.dst.contains a) ||
    s.pending.any (fun b => b.src.contains a || b.dst.contains a)

/-- Reading address `a` now breaks the buffer hazard rule (R246, R273). -/
def State.loadHazard (s : State) (a : Nat) : Bool :=
  s.runningBuffers.any (fun b => b.src.contains a || b.dst.contains a) ||
    s.pending.any (fun b => b.dst.contains a)

/-- The platform says an access at `a` has side effects: `a` belongs to a device, whose behaviour is not the spec's (R75). -/
def State.isDevice (s : State) (a : Nat) : Bool :=
  s.platform.any fun r => r.sideEffects && Range.contains ⟨r.base, r.size⟩ a

/-- The host writes a byte of memory. -/
def hostStore (addr : Word) (b : Byte) (s : State) : Result :=
  if s.isDevice addr.toNat then .fault .deviceAccess
  else if s.storeHazard addr.toNat then .fault .bufferHazard
  else .next { s with
    mem := Memory.write s.mem addr.toNat b
    unfenced := addr.toNat :: s.unfenced
    reply := .ack }

/-- The host reads a byte of memory. -/
def hostLoad (addr : Word) (s : State) : Result :=
  if s.isDevice addr.toNat then .fault .deviceAccess
  else if s.loadHazard addr.toNat then .fault .bufferHazard
  else if s.results.any (·.contains addr.toNat) then .fault .missingFence
  else .next (s.withReply (.byte (Memory.read s.mem addr.toNat)))

/-- `HOST_FENCE` (R73): earlier host writes reach the engine, and later host reads see observed completions. -/
def State.fence (s : State) : State := { s with unfenced := [], results := [] }

/-! ## Reset -/

/-- Reset (R270, R271): every register takes its value of R43; a running command is abandoned and its maximal
destination range holds any value, the source bytes in it with the others (log 29); memory, the platform and what has yet
to happen are not the engine's to reset. What the host owes outlasts reset: the hazard of R273 ends when the host observes
BUSY = 0, and a destination is read after a fence, an abandoned command's too (log 17). An abandoned GENIV or ENCRYPT_MSG
consumes no draw, and the entropy source goes on with the answer that was next (log 33). -/
def State.resetEngine (s : State) : State :=
  { State.reset with
    mem := match s.runningBuffers with
      | some b => (s.scramble b.dst.base b.dst.size).mem
      | none => s.mem
    frees := if s.runningBuffers.isSome then s.frees + 1 else s.frees
    platform := s.platform
    entropy := s.entropy
    draws := s.draws
    inputs := s.inputs
    unfenced := s.unfenced
    pending := s.pending
    results := s.results }

/-! ## Whose turn it is -/

/-- The engine's turn: the command it runs completes (R124, R126); an idle engine stays as it is (R25, R256). -/
def engineTurn (s : State) : Result :=
  match s.cur with
  | some c => exec c.op s
  | none => .next s

/-- A host write, answered if it is well formed (R64, R110). -/
def hostWriteAccess (off : BitVec 8) (width : Width) (v : Word) (s : State) : Result :=
  if wellFormedAccess off width then hostWrite off v (s.withReply .ack) else .fault .hostBusError

/-- A host read, answered if it is well formed (R64, R112). -/
def hostReadAccess (off : BitVec 8) (width : Width) (s : State) : Result :=
  if wellFormedAccess off width then .next (hostRead off s) else .fault .hostBusError

/-- What one input does. -/
def perform (e : Input) (s : State) : Result :=
  match e with
  | .engine => engineTurn s
  | .reset => .next s.resetEngine
  | .regWrite off width v => hostWriteAccess off width v s
  | .regRead off width => hostReadAccess off width s
  | .memStore addr b => hostStore addr b s
  | .memLoad addr => hostLoad addr s
  | .fence => .next s.fence
  | .senseIrq => .next s.senseIrq

end Sys2Proof.Machine
end

