-- ==== Sys2Proof/Machine/Step.lean ====
section
/-! DEFINITION. One step: the agent whose turn it is acts (spec/00_scope.md R12, spec/40_register_interface.md R124). -/

namespace Sys2Proof.Machine

/-- One step: the first input waiting, or the engine's turn where none waits (log 1). -/
def step (s : State) : Host.Outcome State Fault Refusal :=
  match s.inputs with
  | e :: rest => perform e (s.withInputs rest)
  | [] => engineTurn s

/-- `s` with the command word `w` issued and the engine's turn next, so that the next step runs it (R119, R124; log 3). -/
def State.withFetchWord (s : State) (_nbits w : Nat) : State :=
  (s.issue (BitVec.ofNat 32 w)).withInputs (.engine :: s.inputs)

end Sys2Proof.Machine
end

