-- ==== Sys2Proof/Machine/HostSoftware.lean ====
section
/-! DEFINITION. The host's duties: key fitting, the envelope, the host notation, error reporting, output naming, and the two
file flows as programs that run on the machine (spec/49_host_software.md, spec/30_encoding.md R98). No step of the engine
depends on this file. -/

namespace Sys2Proof.Machine

/-! ## Bytes and words -/

/-- The passphrase as bytes: UTF-8 (R221). -/
def passphraseBytes (p : List Char) : List Byte := p.flatMap fun c => (String.utf8EncodeChar c).map (·.toBitVec)

/-- `Fit` (R220). -/
def fit (p : List Byte) : List Byte :=
  if Config.keySize ≤ p.length then p.take Config.keySize
  else p ++ List.replicate (Config.keySize - p.length) 0x30#8

/-- Word `j` of a byte string, little-endian (R26, R29). -/
def wordAt (b : List Byte) (j : Nat) : Word := BitVec.ofNat 32 (leNat ((b.drop (4 * j)).take 4))

/-- The bytes of register words, each little-endian: IV0..IV3 as 16 bytes (R29, R223). -/
def bytesOfWords (l : List Word) : List Byte := l.flatMap fun v => leBytes 4 v.toNat

/-! ## The envelope -/

/-- The errors of the source that only the host raises (R241). -/
inductive HostError where
  | formatError
  | ioError
  deriving DecidableEq, Repr

/-- `Build(iv, c)` (R223). -/
def buildEnvelope (iv c : List Byte) : List Byte := iv ++ c

/-- `Parse(env)` (R224). -/
def parseEnvelope (env : List Byte) : Except HostError (List Byte × List Byte) :=
  if env.length < Config.ivSize then .error .formatError
  else if env.length - Config.ivSize = 0 ∨ (env.length - Config.ivSize) % Config.blockSize ≠ 0 then .error .formatError
  else .ok (env.take Config.ivSize, env.drop Config.ivSize)

/-! ## The host notation (R98) -/

/-- `wr REG, imm32`. -/
def wr (off : BitVec 8) (v : Word) : Input := .regWrite off .word v

/-- `rd REG`. -/
def rd (off : BitVec 8) : Input := .regRead off .word

/-- `cmd MNEMONIC`. -/
def cmd (i : Instr) : Input := wr 0x04 (encode i)

/-- `wait`: STATUS reads that find BUSY = 1, `polls` of them, then the engine's turn, then the read that finds BUSY = 0
(R98, R126; log 32). -/
def waitDone (polls : Nat) : List Input := List.replicate polls (rd 0x08) ++ [.engine, rd 0x08]

/-- `ack`. -/
def ack : Input := wr 0x08 2

/-- `ldkey`. -/
def ldkey (k : List Byte) : List Input :=
  [wr 0x30 (wordAt k 0), wr 0x34 (wordAt k 1), wr 0x38 (wordAt k 2), wr 0x3C (wordAt k 3),
   wr 0x40 (wordAt k 4), wr 0x44 (wordAt k 5), wr 0x48 (wordAt k 6), wr 0x4C (wordAt k 7)]

/-- `ldiv`. -/
def ldiv (v : List Byte) : List Input :=
  [wr 0x50 (wordAt v 0), wr 0x54 (wordAt v 1), wr 0x58 (wordAt v 2), wr 0x5C (wordAt v 3)]

/-- `fence`. -/
def hostFence : Input := .fence

/-- The host places bytes in memory from address `a` on. Bytes past the last address wrap to address 0: the spec does not
say what the host does there (log 30). -/
def place : Word → List Byte → List Input
  | _, [] => []
  | a, b :: bs => .memStore a b :: place (a + 1) bs

/-- A memory command from its operands to the fence after it: `fence ; wr SRC_ADDR ; wr DST_ADDR ; wr LEN ; cmd ; wait ;
fence` (R225, R226, R272). -/
def command (i : Instr) (src dst len : Word) (polls : Nat) : List Input :=
  [hostFence, wr 0x10 src, wr 0x14 dst, wr 0x18 len, cmd i] ++ waitDone polls ++ [hostFence]

/-- Steps 2 to 5 of EncryptFile as far as the second fence: the plaintext at `src`, the ciphertext to `dst` (R222, R225).
LEN takes the length mod 2^32: the spec does not say what the host does with a longer file (log 30). -/
def encryptFlow (plain passphrase : List Byte) (src dst : Word) (polls : Nat) : List Input :=
  ldkey (fit passphrase) ++ place src plain ++ command .encryptMsg src dst (BitVec.ofNat 32 plain.length) polls

/-- Steps 3 and 4 of DecryptFile: the ciphertext at `src`, the plaintext to `dst` (R222, R226). LEN as in `encryptFlow`. -/
def decryptFlow (iv cipher passphrase : List Byte) (src dst : Word) (polls : Nat) : List Input :=
  ldkey (fit passphrase) ++ ldiv iv ++ place src cipher ++
    command .decryptMsg src dst (BitVec.ofNat 32 cipher.length) polls

/-! ## Reporting and naming -/

/-- The source's error an engine code stands for, if any (R241). -/
inductive SourceError where
  | cipherError
  | paddingError
  deriving DecidableEq, Repr

/-- R241: CIPHER_ERR is CipherError and PADDING_ERR is PaddingError; no other code has a counterpart. -/
def sourceError : Error → Option SourceError
  | .illegalCmd => none
  | .noKey => none
  | .ivStale => none
  | .cipherErr => some .cipherError
  | .paddingErr => some .paddingError
  | .rangeErr => none
  | .overlap => none
  | .rngFail => none
  | .busErr => none

/-- The name under which the host reports an engine code (R227, R240). -/
def errorName : Error → String
  | .illegalCmd => "ILLEGAL_CMD"
  | .noKey => "NO_KEY"
  | .ivStale => "IV_STALE"
  | .cipherErr => "CipherError"
  | .paddingErr => "PaddingError"
  | .rangeErr => "RANGE_ERR"
  | .overlap => "OVERLAP"
  | .rngFail => "RNG_FAIL"
  | .busErr => "BUS_ERR"

/-- The first `.` of a path replaced by `_encrypted.` (R228). -/
def replaceFirstDot : List Char → List Char
  | [] => []
  | c :: cs =>
    if c = '.' then ['_', 'e', 'n', 'c', 'r', 'y', 'p', 't', 'e', 'd', '.'] ++ cs else c :: replaceFirstDot cs

/-- `encrypted_path` (R225, R228); a path without `.` is the open parameter. -/
def encryptedPath (path : List Char) : List Char :=
  if path.contains '.' then replaceFirstDot path else Config.noDotPathRule path

/-! ## The structured result (R227) -/

/-- Every failure the host reports (R227, R241). -/
inductive Failure where
  | host (e : HostError)
  | engine (e : Error)
  /-- An ERRCODE the engine never gives (R240, I22). -/
  | unnamed (code : Word)
  deriving DecidableEq, Repr

/-- The errors of the engine, in the order of R240. -/
def engineErrors : List Error :=
  [.illegalCmd, .noKey, .ivStale, .cipherErr, .paddingErr, .rangeErr, .overlap, .rngFail, .busErr]

/-- The failure a word read from ERRCODE stands for; none is OK (R240, R225: `if e != 0: fail`). -/
def failureOf (e : Word) : Option Failure :=
  if e = 0 then none
  else match engineErrors.find? fun x => (errorCode x).setWidth 32 == e with
    | some x => some (.engine x)
    | none => some (.unnamed e)

/-- The message a failure is reported with (R227; log 32). -/
def Failure.message : Failure → String
  | .host .formatError => "FormatError"
  | .host .ioError => "IOError"
  | .engine e => errorName e
  | .unnamed _ => "unnamed ERRCODE"

/-- The one structured result of a flow: the success flag, the message, what the flow returns, and the file it wrote, as
its path and its bytes (R225 to R227). -/
structure Report (α : Type) where
  success : Bool
  message : String
  value : Option α
  file : Option (List Char × List Byte)
  deriving DecidableEq, Repr

/-- A failure at any step: no value, and no output file written (R227). -/
def Report.failed {α : Type} (f : Failure) : Report α := ⟨false, f.message, none, none⟩

/-- The last step of a flow: the write of its file, which fails with IOError where the path cannot be written (R225, R226). -/
def Report.writing {α : Type} (writable : Bool) (value : α) (path : List Char) (bytes : List Byte) : Report α :=
  if writable then ⟨true, "", some value, some (path, bytes)⟩ else .failed (.host .ioError)

/-- What EncryptFile returns; `ivBase64` is its IV before the base64 of the file codec (R225; log 23). -/
structure Encrypted where
  encryptedPath : List Char
  iv : List Byte
  deriving DecidableEq, Repr

/-- What DecryptFile returns (R226). -/
structure Decrypted where
  decryptedPath : List Char
  deriving DecidableEq, Repr

/-! ## The host at the machine -/

/-- What the host has after accesses: what it learned and the machine, unless the run has stopped. -/
abbrev HostRun (α : Type) := Host.Outcome (α × State) Fault Refusal

/-- The host goes on from what it learned. -/
def andThen {α β : Type} (r : Host.Outcome α Fault Refusal) (k : α → Host.Outcome β Fault Refusal) :
    Host.Outcome β Fault Refusal :=
  match r with
  | .next a => k a
  | .fault f => .fault f
  | .refused f => .refused f

/-- One access: the step of the machine with that input first. -/
def access (e : Input) (s : State) : Result := step (s.withInputs (e :: s.inputs))

/-- The accesses `l` in turn. -/
def tell : List Input → State → Result
  | [], s => .next s
  | e :: l, s => andThen (access e s) (tell l)

/-- The word the bus returned; a window read returns no other reply (R112). -/
def Reply.word : Reply → Word
  | .data v => v
  | .none => 0
  | .ack => 0
  | .byte _ => 0
  | .irq _ => 0

/-- The byte the bus returned; a memory read returns no other reply. -/
def Reply.memByte : Reply → Byte
  | .byte b => b
  | .none => 0
  | .ack => 0
  | .data _ => 0
  | .irq _ => 0

/-- `rd REG -> name` (R98). -/
def readWord (off : BitVec 8) (s : State) : HostRun Word :=
  andThen (access (rd off) s) fun t => .next (t.reply.word, t)

/-- `rd` of several registers in turn. -/
def readWords : List (BitVec 8) → State → HostRun (List Word)
  | [], s => .next ([], s)
  | off :: l, s => andThen (readWord off s) fun p => andThen (readWords l p.2) fun q => .next (p.1 :: q.1, q.2)

/-- The host fetches `n` bytes of memory from address `a` on. -/
def fetchBytes : Nat → Word → State → HostRun (List Byte)
  | 0, _, s => .next ([], s)
  | n + 1, a, s =>
    andThen (access (.memLoad a) s) fun t =>
      andThen (fetchBytes n (a + 1) t) fun p => .next (t.reply.memByte :: p.1, p.2)

/-- `rd ERRCODE -> e ; if e != 0: fail` (R225 to R227): no retry, and `k` only after OK. -/
def whenOk {α : Type} (k : State → HostRun (Report α)) (s : State) : HostRun (Report α) :=
  andThen (readWord 0x0C s) fun p =>
    match failureOf p.1 with
    | some f => .next (.failed f, p.2)
    | none => k p.2

/-- The end of EncryptFile: `rd OUT_LEN -> n ; rd IV0..IV3 -> iv`, the envelope of iv and the n bytes at `dst`, and its
write (R223, R225 steps 5 to 9). -/
def sealEnvelope (writable : Bool) (path : List Char) (dst : Word) (s : State) : HostRun (Report Encrypted) :=
  andThen (readWord 0x1C s) fun n =>
    andThen (readWords [0x50, 0x54, 0x58, 0x5C] n.2) fun iv =>
      andThen (fetchBytes n.1.toNat dst iv.2) fun c =>
        .next (.writing writable ⟨encryptedPath path, bytesOfWords iv.1⟩ (encryptedPath path)
          (buildEnvelope (bytesOfWords iv.1) c.1), c.2)

/-- The end of DecryptFile: `rd OUT_LEN -> n`, and the write of the n bytes at `dst` (R226 steps 5 to 7). -/
def writePlain (writable : Bool) (outputPath : List Char) (dst : Word) (s : State) : HostRun (Report Decrypted) :=
  andThen (readWord 0x1C s) fun n =>
    andThen (fetchBytes n.1.toNat dst n.2) fun p =>
      .next (.writing writable ⟨outputPath⟩ outputPath p.1, p.2)

/-! ## The two flows (R225, R226)

`file` is what reading the input path gives, `none` where that is an IOError, and `writable` says whether the output path
can be written: the file accesses themselves are out of scope (R4, log 23). -/

/-- EncryptFile (R225). -/
def encryptFile (file : Option (List Byte)) (writable : Bool) (path passphrase : List Char) (src dst : Word) (polls : Nat)
    (s : State) : HostRun (Report Encrypted) :=
  match file with
  | none => .next (.failed (.host .ioError), s)
  | some plain =>
    andThen (tell (encryptFlow plain (passphraseBytes passphrase) src dst polls) s) (whenOk (sealEnvelope writable path dst))

/-- The split form of EncryptFile: PAD from `src` to `tmp`, GENIV, ENCRYPT from `tmp` to `dst` with LEN = the PAD's OUT_LEN
(R225). -/
def encryptFileSplit (file : Option (List Byte)) (writable : Bool) (path passphrase : List Char) (src tmp dst : Word)
    (polls : Nat) (s : State) : HostRun (Report Encrypted) :=
  match file with
  | none => .next (.failed (.host .ioError), s)
  | some plain =>
    andThen (tell (ldkey (fit (passphraseBytes passphrase)) ++ place src plain ++
        command .pad src tmp (BitVec.ofNat 32 plain.length) polls) s) (whenOk fun t =>
      andThen (readWord 0x1C t) fun n =>
        andThen (tell (cmd .geniv :: waitDone polls) n.2) (whenOk fun u =>
          andThen (tell (command .encrypt tmp dst n.1 polls) u) (whenOk (sealEnvelope writable path dst))))

/-- DecryptFile (R226). -/
def decryptFile (file : Option (List Byte)) (writable : Bool) (passphrase outputPath : List Char) (src dst : Word)
    (polls : Nat) (s : State) : HostRun (Report Decrypted) :=
  match file with
  | none => .next (.failed (.host .ioError), s)
  | some env =>
    match parseEnvelope env with
    | .error e => .next (.failed (.host e), s)
    | .ok (iv, cipher) =>
      andThen (tell (decryptFlow iv cipher (passphraseBytes passphrase) src dst polls) s)
        (whenOk (writePlain writable outputPath dst))

end Sys2Proof.Machine
end

