-- ==== Sys2Proof/Safety.lean ====
section
/-! DEFINITION. What claims say of a run: its steps, the invariant of the engine, and the terms for what a command needs and
leaves. -/

namespace Sys2Proof.Safety

open Sys2Proof.Machine

/-- `n` steps, ending at the first that stops. -/
def run : Nat → State → Result
  | 0, s => .next s
  | n + 1, s =>
    match Machine.step s with
    | .next t => run n t
    | .fault f => .fault f
    | .refused r => .refused r

/-- CUR equals the registers for the whole command (R38). -/
def latchedMatches (s : State) (c : Latched) : Prop :=
  c.src = s.srcAddr ∧ c.dst = s.dstAddr ∧ c.len = s.len ∧ c.ivEnforce = s.ivEnforce ∧
    c.key = keyOfRegs s.key ∧ c.iv = blockOfIv s.iv

/-- KEYj (R26). -/
def keyWord (r : KeyRegs) (j : Fin 8) : Word :=
  match j with
  | 0 => r.k0
  | 1 => r.k1
  | 2 => r.k2
  | 3 => r.k3
  | 4 => r.k4
  | 5 => r.k5
  | 6 => r.k6
  | 7 => r.k7

/-- A command's buffers lie in memory without access side effects (R75): those of the latched command, or of the command
that issue would latch now. -/
def ordinary (i : Instr) (s : State) : Prop :=
  (buffersOf i (s.operands i)).any (touchesSideEffects s.platform) = false

/-- The invariant of the engine between steps. -/
structure Inv (s : State) : Prop where
  /-- Memory is in its canonical form. -/
  memory : Memory.wf s.mem = true
  /-- ERRCODE values 10 to 15 are never written (R37, R240, I22). -/
  code : s.errCode ≤ 9#4
  /-- PADN holds at most 16 (R36). -/
  padding : s.padN ≤ 16#5
  /-- An error leaves OUT_LEN and PADN at 0 (R35, R36, R121). -/
  results : s.errCode ≠ 0#4 → s.outLen = 0#32 ∧ s.padN = 0#5
  /-- CV is zero between commands (R34, R123). -/
  chain : s.cv = 0#128
  /-- DONE = 1 and BUSY = 1 never hold together (R40). -/
  exclusive : s.busy = true → s.done = false
  /-- The result registers read 0 while a command runs (R112, R119). -/
  cleared : s.busy = true → s.errCode = 0#4 ∧ s.outLen = 0#32 ∧ s.padN = 0#5
  /-- The latched operands equal the registers, and the latched command is one a word decodes to (R38, R94). -/
  latched : ∀ c, s.cur = some c → latchedMatches s c ∧ c.op.wellFormed = true
  /-- A running command is pointed at no memory with access side effects: its CMD write would have stopped (R75, R246). -/
  ordinaryCommand : ∀ c, s.cur = some c → ordinary c.op s
  /-- A key word not written since the last key clear is zero (R27, R43, R122, R210). -/
  keyWords : ∀ j : Fin 8, s.keyWr.getLsbD j.val = false → keyWord s.key j = 0#32

/-- The reset value of every piece of engine state (R43). -/
def resetTable (s : State) : Prop :=
  s.ie = false ∧ s.ivEnforce = true ∧ s.busy = false ∧ s.cur = none ∧ s.done = false ∧ s.busyViol = false ∧
    s.keyWr = 0x00#8 ∧ s.keyValid = false ∧ s.ivFresh = false ∧ s.errCode = 0#4 ∧ s.srcAddr = 0#32 ∧
    s.dstAddr = 0#32 ∧ s.len = 0#32 ∧ s.outLen = 0#32 ∧ s.padN = 0#5 ∧ (∀ j, keyWord s.key j = 0#32) ∧
    (∀ j, ivWord s.iv j = 0#32) ∧ s.cv = 0#128 ∧ s.irq = false

/-! ## The terms the statements about commands use -/

/-- The range rule and the overlap rule hold (R68, R69): both ranges end by 2^32, and they are equal, one of them is
empty, or they have no byte in common. -/
def fits (i : Instr) (c : Latched) : Prop :=
  c.src.toNat + c.len.toNat ≤ 2 ^ 32 ∧ c.dst.toNat + maxout i c.len.toNat ≤ 2 ^ 32 ∧
    (c.len.toNat = 0 ∨ c.src = c.dst ∨ c.dst.toNat + maxout i c.len.toNat ≤ c.src.toNat ∨
      c.src.toNat + c.len.toNat ≤ c.dst.toNat)

/-- The platform admits every engine access of this kind in `[a, a + n)` (R61). -/
def admitted (s : State) (kind : AccessKind) (a n : Nat) : Prop :=
  ∀ x, a ≤ x → x < a + n → admits s.platform kind x = true

/-- LEN is a positive multiple of 16 (R174, R175, R191). -/
def aligned (c : Latched) : Prop := 0 < c.len.toNat ∧ c.len.toNat % 16 = 0

/-- What every completion leaves in the result registers and flags (R120, R121, R123). -/
structure Completed (t : State) (code : BitVec 4) (o n : Nat) : Prop where
  errCode : t.errCode = code
  outLen : t.outLen = BitVec.ofNat 32 o
  padN : t.padN = BitVec.ofNat 5 n
  done : t.done = true
  idle : t.busy = false
  chain : t.cv = 0#128

/-- Exactly the bytes `out` from `a` on were written. -/
def written (a : Nat) (out : List Byte) (m m' : Memory) : Prop :=
  ∀ x, Memory.read m' x = if a ≤ x ∧ x < a + out.length then out.getD (x - a) 0#8 else Memory.read m x

/-- What no command changes: the control bits, the operand registers, the platform, and the host's side. -/
structure CommandFrame (s t : State) : Prop where
  ie : t.ie = s.ie
  ivEnforce : t.ivEnforce = s.ivEnforce
  busyViol : t.busyViol = s.busyViol
  srcAddr : t.srcAddr = s.srcAddr
  dstAddr : t.dstAddr = s.dstAddr
  len : t.len = s.len
  platform : t.platform = s.platform
  inputs : t.inputs = s.inputs
  reply : t.reply = s.reply
  unfenced : t.unfenced = s.unfenced
  pending : t.pending = s.pending
  results : t.results = s.results

/-- The key registers and KEY_WR are as they were. -/
def keyKept (s t : State) : Prop := t.key = s.key ∧ t.keyWr = s.keyWr

/-- The key registers and KEY_WR are zero (R122). -/
def keyGone (t : State) : Prop := t.key = KeyRegs.zero ∧ t.keyWr = 0#8

/-- The IV registers and IV_FRESH are as they were. -/
def ivKept (s t : State) : Prop := t.iv = s.iv ∧ t.ivFresh = s.ivFresh

/-- No entropy was drawn. -/
def noDraw (s t : State) : Prop := t.entropy = s.entropy ∧ t.draws = s.draws

/-- The checks of R242 before the draw and the memory phase, steps 2 to 7, in its order, for every command. -/
def checks (i : Instr) (c : Latched) (s : State) : List (Bool × Error) :=
  [(isKeyed i && !s.keyValid, .noKey),
   (decide (i = .encrypt) && c.ivEnforce && !s.ivFresh, .ivStale),
   ((decide (i = .encrypt) || decide (i = .decrypt) || decide (i = .decryptMsg)) &&
      decide (c.len.toNat = 0 ∨ c.len.toNat % 16 ≠ 0), .cipherErr),
   (decide (i = .unpad) && decide (c.len.toNat < 16 ∨ c.len.toNat % 16 ≠ 0), .paddingErr),
   (isMemoryCommand i && decide (2 ^ 32 < c.src.toNat + c.len.toNat ∨ 2 ^ 32 < c.dst.toNat + maxout i c.len.toNat),
      .rangeErr),
   (isMemoryCommand i && decide (0 < c.len.toNat ∧ c.src ≠ c.dst ∧
      c.src.toNat < c.dst.toNat + maxout i c.len.toNat ∧ c.dst.toNat < c.src.toNat + c.len.toNat), .overlap)]

/-- What UNPAD and DECRYPT_MSG check the padding of and, if it is valid, would write (R154, R191). -/
def content (i : Instr) (c : Latched) (s : State) : Option (List Byte × Nat) :=
  if i = .decryptMsg then unpadBytes (cbcDec c.key c.iv (s.source c)) else unpadBytes (s.source c)

/-- The codes each command can complete with (R243). -/
def codes : Instr → List (BitVec 4)
  | .geniv => [0#4, 8#4]
  | .pad => [0#4, 6#4, 7#4, 9#4]
  | .unpad => [0#4, 5#4, 6#4, 7#4, 9#4]
  | .encrypt => [0#4, 2#4, 3#4, 4#4, 6#4, 7#4, 9#4]
  | .decrypt => [0#4, 2#4, 4#4, 6#4, 7#4, 9#4]
  | .encryptMsg => [0#4, 2#4, 6#4, 7#4, 8#4, 9#4]
  | .decryptMsg => [0#4, 2#4, 4#4, 6#4, 7#4, 5#4, 9#4]
  | .clear => [0#4]
  | .illegal _ _ => [1#4]

/-- The host may write CMD word `w` now: no source byte of the command it names waits for a fence (R73). -/
def fenced (w : Word) (s : State) : Prop :=
  ∀ b, buffersOf (decodeWord w) (s.latch (decodeWord w)) = some b → ∀ a ∈ s.unfenced, b.src.contains a = false

end Sys2Proof.Safety
end

