-- ==== Sys2Proof/Certificates/Slice0/Obligations.lean ====
section
/-! DEFINITION. What is claimed of the engine. Each docstring names the rule it states; a clause that rests on a choice of
the model names its log entry. -/

open Sys2Proof Sys2Proof.Machine Sys2Proof.Safety

/-! ## Encoding -/

/-- Decoding an encoded well-formed instruction gives it back, with every value of its fields (R90 to R94; that ILLEGAL
carries its fields is log 20). -/
def Obligations.DecodeOfEncodeIsTheInstruction : Prop :=
  ∀ i : Instr, i.wellFormed = true → decodeWord (encode i) = i

/-- Every 32-bit word decodes to a well-formed instruction whose encoding is that word (R94; log 20). -/
def Obligations.EveryWordDecodesAndEncodesBack : Prop :=
  ∀ w : Word, (decodeWord w).wellFormed = true ∧ encode (decodeWord w) = w

/-- The opcode map: 1 to 8 are the commands, every other word is ILLEGAL (R91, R93, R94). -/
def Obligations.OpcodeMapIsTotal : Prop :=
  decodeWord 1#32 = .geniv ∧ decodeWord 2#32 = .pad ∧ decodeWord 3#32 = .unpad ∧ decodeWord 4#32 = .encrypt ∧
    decodeWord 5#32 = .decrypt ∧ decodeWord 6#32 = .encryptMsg ∧ decodeWord 7#32 = .decryptMsg ∧
    decodeWord 8#32 = .clear ∧
    ∀ w : Word, w = 0#32 ∨ 9#32 ≤ w → ∃ opcode rsvd, decodeWord w = .illegal opcode rsvd

/-- Words written out from the encoding: bit 31 set beside opcode 4 is ILLEGAL, opcode 6 alone is ENCRYPT_MSG (R91, R92). -/
def Obligations.SampleWordsDecode : Prop :=
  decodeWord 0b00000000000000000000000000000110#32 = .encryptMsg ∧
    decodeWord 0b10000000000000000000000000000100#32 = .illegal 4#4 0x8000000#28 ∧
    decodeWord 0b00000000000000000000000000010000#32 = .illegal 0#4 1#28

/-! ## Reset -/

/-- The reset table (R43): it holds of the state after reset and of the state any reset leaves; reset touches no memory
unless it abandons a command. -/
def Obligations.ResetLeavesTheTable : Prop :=
  resetTable State.reset ∧
    ∀ (s : State) (rest : List Input), s.inputs = .reset :: rest →
      ∃ t, step s = .next t ∧ resetTable t ∧ (s.cur = none → t.mem = s.mem)

/-- Reset at any moment gives every register its reset value, sets no DONE, and changes no byte outside the maximal
destination range of the command it abandons (R270, R271). What the host owes is as before reset (log 17), and so are
the answers of the entropy source (log 33). -/
def Obligations.ResetAbandonsTheCommand : Prop :=
  ∀ (s : State) (rest : List Input), s.inputs = .reset :: rest →
    ∃ t, step s = .next t ∧
      t = { State.reset with
            mem := t.mem, platform := s.platform, entropy := s.entropy, draws := s.draws, frees := t.frees,
            inputs := rest, unfenced := s.unfenced, pending := s.pending, results := s.results } ∧
      ∀ x, (∀ c, s.cur = some c → isMemoryCommand c.op = true →
          x < c.dst.toNat ∨ c.dst.toNat + maxout c.op c.len.toNat ≤ x) →
        Memory.read t.mem x = Memory.read s.mem x

/-! ## Host writes -/

/-- A write to CTRL takes IE and IV_ENFORCE from bits 0 and 1, ignores the others, changes nothing else, and moves irq at
once (R113). -/
def Obligations.CtrlWriteSetsBothBits : Prop :=
  ∀ (s : State) (rest : List Input) (v : Word), s.inputs = .regWrite 0x00#8 .word v :: rest → s.busy = false →
    ∃ t, step s = .next t ∧ t.irq = (s.done && v.getLsbD 0) ∧
      t = { s with inputs := rest, reply := .ack, ie := v.getLsbD 0, ivEnforce := v.getLsbD 1 }

/-- A write to STATUS clears DONE and BUSY_VIOL where it writes 1 and does nothing else, busy or not (R117). -/
def Obligations.StatusWriteClearsByOnes : Prop :=
  ∀ (s : State) (rest : List Input) (v : Word), s.inputs = .regWrite 0x08#8 .word v :: rest →
    ∃ t, step s = .next t ∧
      t = { s with
            inputs := rest, reply := .ack
            done := if v.getLsbD 1 then false else s.done
            busyViol := if v.getLsbD 4 then false else s.busyViol } ∧
      (Inv s → s.busy = true → t.done = s.done)

/-- While busy, a write anywhere but to STATUS sets BUSY_VIOL and changes no other state (R111). -/
def Obligations.BusyWriteIsDropped : Prop :=
  ∀ (s : State) (rest : List Input) (off : BitVec 8) (v : Word), s.inputs = .regWrite off .word v :: rest →
    off.toNat % 4 = 0 → off ≠ 0x08#8 → s.busy = true →
    step s = .next { s with inputs := rest, reply := .ack, busyViol := true }

/-- Writes to the read-only registers and to reserved offsets change nothing but BUSY_VIOL while busy (R128, R42). -/
def Obligations.ReadOnlyAndReservedWritesAreIgnored : Prop :=
  ∀ (s : State) (rest : List Input) (off : BitVec 8) (v : Word), s.inputs = .regWrite off .word v :: rest →
    off.toNat % 4 = 0 →
    (off = 0x0C#8 ∨ off = 0x1C#8 ∨ off = 0x20#8 ∨ off = 0x24#8 ∨ off = 0x28#8 ∨ off = 0x2C#8 ∨ 0x60#8 ≤ off) →
    step s = .next { s with inputs := rest, reply := .ack, busyViol := s.busyViol || s.busy }

/-- A write to SRC_ADDR, DST_ADDR or LEN while idle: that register takes the value, whatever it is (R116). -/
def Obligations.OperandWriteTakesAnyValue : Prop :=
  ∀ (s : State) (rest : List Input) (v : Word), s.busy = false →
    (s.inputs = .regWrite 0x10#8 .word v :: rest →
      step s = .next { s with inputs := rest, reply := .ack, srcAddr := v }) ∧
    (s.inputs = .regWrite 0x14#8 .word v :: rest →
      step s = .next { s with inputs := rest, reply := .ack, dstAddr := v }) ∧
    (s.inputs = .regWrite 0x18#8 .word v :: rest →
      step s = .next { s with inputs := rest, reply := .ack, len := v })

/-- A write to KEYj while idle sets that word and its bit of KEY_WR alone; KEY_VALID then holds exactly when every other
bit was set (R114, R27). -/
def Obligations.KeyWriteSetsWordAndMask : Prop :=
  ∀ (s : State) (rest : List Input) (j : Fin 8) (v : Word),
    s.inputs = .regWrite (0x30#8 + 4#8 * BitVec.ofNat 8 j.val) .word v :: rest → s.busy = false →
    ∃ t, step s = .next t ∧
      (∀ k : Fin 8, keyWord t.key k = if k = j then v else keyWord s.key k) ∧
      (∀ k : Fin 8, t.keyWr.getLsbD k.val = (decide (k = j) || s.keyWr.getLsbD k.val)) ∧
      (t.keyValid = true ↔ ∀ k : Fin 8, k = j ∨ s.keyWr.getLsbD k.val = true) ∧
      t = { s with inputs := rest, reply := .ack, key := t.key, keyWr := t.keyWr }

/-- A write to IVj while idle sets that word and clears IV_FRESH, whatever the value (R115). -/
def Obligations.IvWriteClearsFreshness : Prop :=
  ∀ (s : State) (rest : List Input) (j : Fin 4) (v : Word),
    s.inputs = .regWrite (0x50#8 + 4#8 * BitVec.ofNat 8 j.val) .word v :: rest → s.busy = false →
    ∃ t, step s = .next t ∧ (∀ k : Fin 4, ivWord t.iv k = if k = j then v else ivWord s.iv k) ∧
      t = { s with inputs := rest, reply := .ack, iv := t.iv, ivFresh := false }

/-- The eight writes of `ldkey` load exactly the key bytes they were given and make KEY_VALID 1 (R26, R98, R114). -/
def Obligations.LdkeyLoadsTheKey : Prop :=
  ∀ (s : State) (rest : List Input) (k : List Byte), k.length = 32 → s.busy = false → s.inputs = ldkey k ++ rest →
    ∃ t, run 8 s = .next t ∧ leBytes 32 (keyOfRegs t.key).toNat = k ∧ t.keyValid = true ∧
      t = { s with inputs := rest, reply := .ack, key := t.key, keyWr := t.keyWr }

/-- The packing of the key and the IV: `K[4j+b]` is bits `8b+7 : 8b` of KEYj, `IVb[4j+b]` of IVj, and the engine's own IV
write keeps it (R26, R29). -/
def Obligations.KeyAndIvWordsPackLittleEndian : Prop :=
  (∀ (r : KeyRegs) (j : Fin 8) (b : Fin 4),
    (leBytes 32 (keyOfRegs r).toNat).getD (4 * j.val + b.val) 0#8 = (keyWord r j).extractLsb' (8 * b.val) 8) ∧
  (∀ (r : IvRegs) (j b : Fin 4),
    (bytesOfBlock (blockOfIv r)).getD (4 * j.val + b.val) 0#8 = (ivWord r j).extractLsb' (8 * b.val) 8) ∧
  ∀ v : Block, blockOfIv (ivOfBlock v) = v

/-! ## Host reads -/

/-- What each offset reads as, with no effect on any register (R112, R28, R42); IVj while a command that writes it runs is
the next statement. While busy the result registers read 0. The STATUS read also tells the host whether the engine is idle (log 14). -/
def Obligations.ReadsReturnTheRegisters : Prop :=
  ∀ (s : State) (rest : List Input) (off : BitVec 8), s.inputs = .regRead off .word :: rest → off.toNat % 4 = 0 →
    (0x50#8 ≤ off → off ≤ 0x5C#8 → ∀ c, s.cur = some c → c.op ≠ .geniv ∧ c.op ≠ .encryptMsg ∧ c.op ≠ .clear) →
    ∃ t v, step s = .next t ∧ t.reply = .data v ∧
      t = { s with inputs := rest, reply := .data v, pending := t.pending, results := t.results } ∧
      v = (if off = 0x00#8 then BitVec.ofNat 32 (2 * s.ivEnforce.toNat + s.ie.toNat)
          else if off = 0x08#8 then
            BitVec.ofNat 32 (s.busy.toNat + 2 * s.done.toNat + 4 * s.keyValid.toNat + 8 * s.ivFresh.toNat +
              16 * s.busyViol.toNat + 256 * s.keyWr.toNat)
          else if off = 0x0C#8 then s.errCode.setWidth 32
          else if off = 0x10#8 then s.srcAddr
          else if off = 0x14#8 then s.dstAddr
          else if off = 0x18#8 then s.len
          else if off = 0x1C#8 then s.outLen
          else if off = 0x20#8 then s.padN.setWidth 32
          else if off = 0x50#8 then s.iv.i0
          else if off = 0x54#8 then s.iv.i1
          else if off = 0x58#8 then s.iv.i2
          else if off = 0x5C#8 then s.iv.i3
          else 0#32) ∧
      (Inv s → s.busy = true → off = 0x0C#8 ∨ off = 0x1C#8 ∨ off = 0x20#8 → v = 0#32)

/-- While GENIV, ENCRYPT_MSG or CLEAR runs, a read of IVj returns the word before the command or the word the command
leaves, and changes no register (R125). That the second is the word of the state the running command completes in is log
19. -/
def Obligations.IvReadDuringCommandIsOldOrNew : Prop :=
  ∀ (s : State) (rest : List Input) (c : Latched) (j : Fin 4),
    s.inputs = .regRead (0x50#8 + 4#8 * BitVec.ofNat 8 j.val) .word :: rest → s.cur = some c →
    c.op = .geniv ∨ c.op = .encryptMsg ∨ c.op = .clear →
    ∃ t v, step s = .next t ∧ t = { s with inputs := rest, reply := .data v, frees := t.frees } ∧
      (v = ivWord s.iv j ∨ ∃ u, exec c.op (s.withInputs rest) = .next u ∧ v = ivWord u.iv j)

/-- No window read tells anything of the key: two states that differ only in KEY0..KEY7 and the latched key answer every
read alike (R28). -/
def Obligations.ReadsDoNotRevealTheKey : Prop :=
  ∀ (s : State) (rest : List Input) (off : BitVec 8) (width : Width) (r : KeyRegs) (k : Key),
    s.inputs = .regRead off width :: rest →
    let s' := { s with key := r, cur := s.cur.map fun c => { c with key := k } }
    (∃ t t', step s = .next t ∧ step s' = .next t' ∧ t.reply = t'.reply) ∨
      (step s = .fault .hostBusError ∧ step s' = .fault .hostBusError)

/-- A window access that is not 32 bits wide or not 4-byte aligned is a host bus error (R64, R245). -/
def Obligations.BadWindowAccessFaults : Prop :=
  ∀ (s : State) (rest : List Input) (off : BitVec 8) (width : Width) (v : Word),
    width ≠ .word ∨ off.toNat % 4 ≠ 0 →
    (s.inputs = .regWrite off width v :: rest → step s = .fault .hostBusError) ∧
    (s.inputs = .regRead off width :: rest → step s = .fault .hostBusError)

/-- The host senses irq as DONE AND IE (R41). -/
def Obligations.IrqIsDoneAndIe : Prop :=
  ∀ (s : State) (rest : List Input), s.inputs = .senseIrq :: rest →
    ∃ t, step s = .next t ∧ t.reply = .irq (s.done && s.ie) ∧
      t = { s with inputs := rest, reply := t.reply, pending := t.pending, results := t.results }

/-! ## Issue, and the step -/

/-- Issue: a fenced write to CMD while idle, its command pointed at ordinary memory, latches the decoded command and its operands, sets BUSY, and clears DONE,
ERRCODE, OUT_LEN, PADN and irq; every word issues (R118, R119). What becomes of the buffers is said in
`HostAccessToBusyBuffersFaults`, and a command pointed at other memory in `OnlySideEffectMemoryStopsACommand`. -/
def Obligations.CmdWriteIssuesTheCommand : Prop :=
  ∀ (s : State) (rest : List Input) (w : Word), s.inputs = .regWrite 0x04#8 .word w :: rest → s.busy = false →
    fenced w s → ordinary (decodeWord w) s →
    ∃ t, step s = .next t ∧ t.busy = true ∧ t.irq = false ∧
      t = { s with
            inputs := rest, reply := .ack, done := false, errCode := 0#4, outLen := 0#32, padN := 0#5
            cur := some { op := decodeWord w, src := s.srcAddr, dst := s.dstAddr, len := s.len,
                          ivEnforce := s.ivEnforce, key := keyOfRegs s.key, iv := blockOfIv s.iv }
            pending := t.pending }

/-- A memory command over a source byte the host has written since its last fence gets no meaning (R73). -/
def Obligations.IssueWithoutFenceFaults : Prop :=
  ∀ (s : State) (rest : List Input) (w : Word) (a : Nat), s.inputs = .regWrite 0x04#8 .word w :: rest →
    s.busy = false → isMemoryCommand (decodeWord w) = true → a ∈ s.unfenced →
    s.srcAddr.toNat ≤ a → a < s.srcAddr.toNat + s.len.toNat → step s = .fault .missingFence

/-- A step runs the decoded instruction: on the engine's turn, or with no input waiting, the step is `exec` of the latched
command, and after the issue of a word that command is the decoded word (R119, R124; logs 1 and 3). An idle engine does
nothing: it has no program counter and fetches nothing (R25, R256). -/
def Obligations.StepRunsTheDecodedCommand : Prop :=
  (∀ s : State, s.cur = none → s.inputs = [] → step s = .next s) ∧
  (∀ (s : State) (c : Latched), s.cur = some c → s.inputs = [] → step s = exec c.op s) ∧
  (∀ (s : State) (c : Latched) (rest : List Input), s.cur = some c → s.inputs = .engine :: rest →
    step s = exec c.op (s.withInputs rest)) ∧
  (∀ (s : State) (w : Word) (rest : List Input), s.inputs = .regWrite 0x04#8 .word w :: .engine :: rest →
    s.busy = false → fenced w s → ordinary (decodeWord w) s →
    ∃ t, step s = .next t ∧ step t = exec (decodeWord w) (t.withInputs rest)) ∧
  ∀ (s : State) (nbits w : Nat),
    step (s.withFetchWord nbits w) = exec (decodeWord (BitVec.ofNat 32 w)) (s.issue (BitVec.ofNat 32 w))

/-- Progress: on its turn the engine completes the running command, setting DONE and clearing BUSY; only a command pointed at
memory with side effects stops instead, and no state of the invariant runs one (R126, R75). -/
def Obligations.EngineTurnCompletesTheCommand : Prop :=
  ∀ (s : State) (c : Latched), s.cur = some c → s.inputs = [] ∨ s.inputs.head? = some .engine →
    (∃ t, step s = .next t ∧ t.done = true ∧ t.busy = false ∧ t.inputs = s.inputs.tail) ∨
      (step s = .fault .sideEffectMemory ∧ ¬ordinary c.op s ∧ ¬Inv s)

/-- Only the engine's turn and reset end a command; every other step leaves CUR as it is (R38, R126). -/
def Obligations.OnlyCompletionOrResetEndsACommand : Prop :=
  ∀ (s t : State) (c : Latched), s.cur = some c → step s = .next t →
    t.cur = some c ∨ (t.cur = none ∧ (s.inputs = [] ∨ s.inputs.head? = some .engine ∨ s.inputs.head? = some .reset))

/-! ## The host and system memory -/

/-- The buffer hazard, from the CMD write until the host has observed BUSY = 0 (R246, R273): the issue of a memory command
puts its buffers on the list of those not observed complete; while it runs, a host access to its source or maximal
destination range is a fault; as long as its buffers are on the list, a store to either range and a load of the destination
are; and only a STATUS read that finds BUSY = 0, or irq sensed as 1, takes them off it. The list is log 14, that reset leaves
it is log 17, and device addresses are log 9. -/
def Obligations.HostAccessToBusyBuffersFaults : Prop :=
  (∀ (s : State) (rest : List Input) (w : Word), s.inputs = .regWrite 0x04#8 .word w :: rest → s.busy = false →
    fenced w s → ordinary (decodeWord w) s → isMemoryCommand (decodeWord w) = true →
    ∃ t, step s = .next t ∧
      t.pending = ⟨⟨s.srcAddr.toNat, s.len.toNat⟩, ⟨s.dstAddr.toNat, maxout (decodeWord w) s.len.toNat⟩⟩ :: s.pending) ∧
  (∀ (s : State) (rest : List Input) (c : Latched) (a : Word) (b : Byte), s.cur = some c →
    isMemoryCommand c.op = true → s.isDevice a.toNat = false →
    (c.src.toNat ≤ a.toNat ∧ a.toNat < c.src.toNat + c.len.toNat) ∨
      (c.dst.toNat ≤ a.toNat ∧ a.toNat < c.dst.toNat + maxout c.op c.len.toNat) →
    (s.inputs = .memStore a b :: rest → step s = .fault .bufferHazard) ∧
    (s.inputs = .memLoad a :: rest → step s = .fault .bufferHazard)) ∧
  (∀ (s : State) (rest : List Input) (p : Buffers) (a : Word) (b : Byte), p ∈ s.pending → s.isDevice a.toNat = false →
    ((p.src.base ≤ a.toNat ∧ a.toNat < p.src.base + p.src.size) ∨
        (p.dst.base ≤ a.toNat ∧ a.toNat < p.dst.base + p.dst.size) →
      s.inputs = .memStore a b :: rest → step s = .fault .bufferHazard) ∧
    (p.dst.base ≤ a.toNat ∧ a.toNat < p.dst.base + p.dst.size →
      s.inputs = .memLoad a :: rest → step s = .fault .bufferHazard)) ∧
  ∀ (s t : State) (p : Buffers), p ∈ s.pending → step s = .next t →
    p ∈ t.pending ∨ (s.inputs.head? = some (.regRead 0x08#8 .word) ∧ s.busy = false) ∨
      (s.inputs.head? = some .senseIrq ∧ s.irq = true)

/-- The fence owed after completion: a host that reads STATUS and then a destination byte faults, and with a fence between
them it reads the byte (R72, R73). The ledger that holds this is log 14; that it holds of a command that reset abandoned is
log 17. -/
def Obligations.DestinationReadNeedsAFence : Prop :=
  ∀ (s : State) (rest : List Input) (b : Buffers) (a : Word), s.busy = false → b ∈ s.pending →
    b.dst.base ≤ a.toNat → a.toNat < b.dst.base + b.dst.size → s.isDevice a.toNat = false →
    (s.inputs = .regRead 0x08#8 .word :: .memLoad a :: rest → run 2 s = .fault .missingFence) ∧
    (s.inputs = .regRead 0x08#8 .word :: .fence :: .memLoad a :: rest →
      ∃ t, run 3 s = .next t ∧ t.reply = .byte (Memory.read s.mem a.toNat) ∧ t.mem = s.mem)

/-- A host store outside every buffer in use writes its byte, and no other byte and no register (R60, R61). -/
def Obligations.HostStoreWritesOneByte : Prop :=
  ∀ (s : State) (rest : List Input) (a : Word) (b : Byte), s.inputs = .memStore a b :: rest →
    s.isDevice a.toNat = false → s.storeHazard a.toNat = false →
    ∃ t, step s = .next t ∧ written a.toNat [b] s.mem t.mem ∧
      t = { s with inputs := rest, mem := t.mem, unfenced := a.toNat :: s.unfenced, reply := .ack }

/-! ## The commands -/

/-- GENIV: with an answer waiting it becomes the IV, which is then fresh; a failed draw gives RNG_FAIL and leaves the IV
and IV_FRESH; the key stays; memory stays (R140). -/
def Obligations.GenivDrawsAFreshIv : Prop :=
  ∀ s : State,
    (∀ b, s.nextDraw = some b → ∃ t, exec .geniv s = .next t ∧ Completed t 0#4 0 0 ∧ blockOfIv t.iv = b ∧
      t.ivFresh = true ∧ CommandFrame s t ∧ keyKept s t ∧ t.mem = s.mem ∧ t.frees = s.frees) ∧
    (s.nextDraw = none → ∃ t, exec .geniv s = .next t ∧ Completed t 8#4 0 0 ∧ ivKept s t ∧ CommandFrame s t ∧
      keyKept s t ∧ t.mem = s.mem ∧ t.frees = s.frees)

/-- PAD over admitted ordinary memory writes `Pad(src)` at DST and nothing else; key and IV stay (R153). -/
def Obligations.PadWritesThePaddedSource : Prop :=
  ∀ s : State,
    let c := s.operands .pad
    let l := c.len.toNat
    ordinary .pad s → fits .pad c → admitted s .read c.src.toNat l → admitted s .write c.dst.toNat (l + padlen l) →
    ∃ t, exec .pad s = .next t ∧ Completed t 0#4 (l + padlen l) (padlen l) ∧
      written c.dst.toNat (padBytes (Memory.readBytes s.mem c.src.toNat l)) s.mem t.mem ∧
      CommandFrame s t ∧ keyKept s t ∧ ivKept s t ∧ noDraw s t ∧ t.frees = s.frees

/-- UNPAD of a source with valid padding of `n` bytes writes the data without it and leaves every other byte (R154). -/
def Obligations.UnpadRemovesThePadding : Prop :=
  ∀ (s : State) (p : List Byte) (n : Nat),
    let c := s.operands .unpad
    let l := c.len.toNat
    ordinary .unpad s → fits .unpad c → unpadBytes (Memory.readBytes s.mem c.src.toNat l) = some (p, n) →
    admitted s .read c.src.toNat l → admitted s .write c.dst.toNat (l - n) →
    ∃ t, exec .unpad s = .next t ∧ Completed t 0#4 (l - n) n ∧ written c.dst.toNat p s.mem t.mem ∧
      p.length = l - n ∧ CommandFrame s t ∧ keyKept s t ∧ ivKept s t ∧ noDraw s t ∧ t.frees = s.frees

/-- ENCRYPT with a valid key and an acceptable IV writes `CBC_Enc(K, IVb, src)`, keeps IVb, consumes its freshness and
zeroises the key (R174). -/
def Obligations.EncryptWritesTheCbcCiphertext : Prop :=
  ∀ s : State,
    let c := s.operands .encrypt
    let l := c.len.toNat
    ordinary .encrypt s → s.keyWr = 0xFF#8 → (c.ivEnforce = false ∨ s.ivFresh = true) → aligned c → fits .encrypt c →
    admitted s .read c.src.toNat l → admitted s .write c.dst.toNat l →
    ∃ t, exec .encrypt s = .next t ∧ Completed t 0#4 l 0 ∧
      written c.dst.toNat (cbcEnc c.key c.iv (Memory.readBytes s.mem c.src.toNat l)) s.mem t.mem ∧
      (cbcEnc c.key c.iv (Memory.readBytes s.mem c.src.toNat l)).length = l ∧
      CommandFrame s t ∧ keyGone t ∧ t.iv = s.iv ∧ t.ivFresh = false ∧ noDraw s t ∧ t.frees = s.frees

/-- DECRYPT with a valid key writes `CBC_Dec(K, IVb, src)` whatever the source holds, keeps IVb and IV_FRESH and zeroises
the key (R175, R177). -/
def Obligations.DecryptWritesTheCbcPlaintext : Prop :=
  ∀ s : State,
    let c := s.operands .decrypt
    let l := c.len.toNat
    ordinary .decrypt s → s.keyWr = 0xFF#8 → aligned c → fits .decrypt c →
    admitted s .read c.src.toNat l → admitted s .write c.dst.toNat l →
    ∃ t, exec .decrypt s = .next t ∧ Completed t 0#4 l 0 ∧
      written c.dst.toNat (cbcDec c.key c.iv (Memory.readBytes s.mem c.src.toNat l)) s.mem t.mem ∧
      (cbcDec c.key c.iv (Memory.readBytes s.mem c.src.toNat l)).length = l ∧
      CommandFrame s t ∧ keyGone t ∧ ivKept s t ∧ noDraw s t ∧ t.frees = s.frees

/-- ENCRYPT_MSG draws its IV, whatever IV_ENFORCE and IV_FRESH are, and writes the CBC encryption of the padded source
under it; the IV stays in IV0..IV3, not fresh, and the key is zeroised (R190). -/
def Obligations.EncryptMsgPadsDrawsAndEncrypts : Prop :=
  ∀ (s : State) (b : Block),
    let c := s.operands .encryptMsg
    let l := c.len.toNat
    ordinary .encryptMsg s → s.keyWr = 0xFF#8 → fits .encryptMsg c → s.nextDraw = some b →
    admitted s .read c.src.toNat l → admitted s .write c.dst.toNat (l + padlen l) →
    ∃ t, exec .encryptMsg s = .next t ∧ Completed t 0#4 (l + padlen l) (padlen l) ∧
      written c.dst.toNat (cbcEnc c.key b (padBytes (Memory.readBytes s.mem c.src.toNat l))) s.mem t.mem ∧
      (cbcEnc c.key b (padBytes (Memory.readBytes s.mem c.src.toNat l))).length = l + padlen l ∧
      CommandFrame s t ∧ keyGone t ∧ blockOfIv t.iv = b ∧ t.ivFresh = false ∧ t.frees = s.frees

/-- ENCRYPT_MSG whose draw fails completes with RNG_FAIL, writes nothing, keeps the IV, and zeroises the key (R190). -/
def Obligations.EncryptMsgDrawFailure : Prop :=
  ∀ s : State, ordinary .encryptMsg s → s.keyWr = 0xFF#8 → fits .encryptMsg (s.operands .encryptMsg) →
    s.nextDraw = none →
    ∃ t, exec .encryptMsg s = .next t ∧ Completed t 8#4 0 0 ∧ t.mem = s.mem ∧ ivKept s t ∧ keyGone t ∧
      CommandFrame s t

/-- DECRYPT_MSG whose decrypted source has valid padding writes the data without it (R191). -/
def Obligations.DecryptMsgDecryptsAndUnpads : Prop :=
  ∀ (s : State) (p : List Byte) (n : Nat),
    let c := s.operands .decryptMsg
    let l := c.len.toNat
    ordinary .decryptMsg s → s.keyWr = 0xFF#8 → aligned c → fits .decryptMsg c →
    unpadBytes (cbcDec c.key c.iv (Memory.readBytes s.mem c.src.toNat l)) = some (p, n) →
    admitted s .read c.src.toNat l → admitted s .write c.dst.toNat (l - n) →
    ∃ t, exec .decryptMsg s = .next t ∧ Completed t 0#4 (l - n) n ∧ written c.dst.toNat p s.mem t.mem ∧
      p.length = l - n ∧ CommandFrame s t ∧ keyGone t ∧ ivKept s t ∧ noDraw s t ∧ t.frees = s.frees

/-- DECRYPT_MSG over admitted memory completes with PADDING_ERR exactly when Unpad of the decrypted bytes fails, and
otherwise with OK: nothing else of the key or the data decides (R194, R177). -/
def Obligations.WrongKeyIsDetectedOnlyByPadding : Prop :=
  ∀ s : State,
    let c := s.operands .decryptMsg
    let l := c.len.toNat
    ordinary .decryptMsg s → s.keyWr = 0xFF#8 → aligned c → fits .decryptMsg c →
    admitted s .read c.src.toNat l → admitted s .write c.dst.toNat l →
    ∃ t, exec .decryptMsg s = .next t ∧
      t.errCode = if unpadBytes (cbcDec c.key c.iv (Memory.readBytes s.mem c.src.toNat l)) = none then 5#4 else 0#4

/-- CLEAR zeroises key, KEY_WR, IV, IV_FRESH and CV, completes with OK, and leaves memory and every other register (R210). -/
def Obligations.ClearZeroisesEverySecret : Prop :=
  ∀ s : State, ∃ t, exec .clear s = .next t ∧ Completed t 0#4 0 0 ∧ keyGone t ∧ t.iv = IvRegs.zero ∧
    t.ivFresh = false ∧ t.keyValid = false ∧ CommandFrame s t ∧ t.mem = s.mem ∧ noDraw s t ∧ t.frees = s.frees

/-- An illegal word completes with ILLEGAL_CMD as its only effect: no clean-up, no memory, no IV, no KEY_WR (R127, R92). -/
def Obligations.IllegalWordOnlyReports : Prop :=
  ∀ (opcode : BitVec 4) (rsvd : BitVec 28) (s : State),
    ∃ t, exec (.illegal opcode rsvd) s = .next t ∧ Completed t 1#4 0 0 ∧ keyKept s t ∧ ivKept s t ∧
      CommandFrame s t ∧ t.mem = s.mem ∧ noDraw s t ∧ t.frees = s.frees

/-! ## Errors -/

/-- The check order: the first of the checks of R242 that fails is the code of the completion, and such a command changes
no memory, no IV, no IV_FRESH and draws nothing (R242 steps 2 to 7, R247). -/
def Obligations.FirstFailingCheckIsReported : Prop :=
  ∀ (i : Instr) (s : State) (e : Error), ordinary i s → firstError (checks i (s.operands i) s) = some e →
    ∃ t, exec i s = .next t ∧ Completed t (errorCode e) 0 0 ∧ t.mem = s.mem ∧ ivKept s t ∧ noDraw s t ∧
      CommandFrame s t ∧ (if isKeyed i then keyGone t else keyKept s t)

/-- BUS_ERR: past its checks, PAD, ENCRYPT, DECRYPT or ENCRYPT_MSG with an access not admitted completes with BUS_ERR, and
no byte outside the maximal destination range changes; ENCRYPT and ENCRYPT_MSG leave IV_FRESH at 0, ENCRYPT_MSG keeps the
IV it drew, the others keep IVb, and the keyed ones zeroise the key (R74, R121, R174, R190). What the range then holds is
free (log 6). -/
def Obligations.BusErrorSparesEverythingOutside : Prop :=
  ∀ (i : Instr) (s : State),
    let c := s.operands i
    i = .pad ∨ i = .encrypt ∨ i = .decrypt ∨ i = .encryptMsg → ordinary i s → firstError (checks i c s) = none →
    (i = .encryptMsg → s.nextDraw ≠ none) →
    ¬(admitted s .read c.src.toNat c.len.toNat ∧ admitted s .write c.dst.toNat (maxout i c.len.toNat)) →
    ∃ t, exec i s = .next t ∧ Completed t 9#4 0 0 ∧
      (∀ x, x < c.dst.toNat ∨ c.dst.toNat + maxout i c.len.toNat ≤ x → Memory.read t.mem x = Memory.read s.mem x) ∧
      (i = .encrypt ∨ i = .encryptMsg → t.ivFresh = false) ∧ (i = .pad ∨ i = .decrypt → t.ivFresh = s.ivFresh) ∧
      (∀ b, i = .encryptMsg → s.nextDraw = some b → blockOfIv t.iv = b) ∧ (i ≠ .encryptMsg → t.iv = s.iv) ∧
      (if isKeyed i then keyGone t else keyKept s t) ∧ CommandFrame s t

/-- The memory phase of UNPAD and DECRYPT_MSG: invalid padding in an admitted source is PADDING_ERR and nothing is
written; with the source not admitted it is PADDING_ERR or BUS_ERR, a draw (log 7); valid padding with an access not
admitted is BUS_ERR (R244, R74). Where the source is not admitted, that its padding is that of the bytes memory holds is the
model's (log 21). -/
def Obligations.PaddingAndBusErrors : Prop :=
  ∀ (i : Instr) (s : State),
    let c := s.operands i
    i = .unpad ∨ i = .decryptMsg → ordinary i s → firstError (checks i c s) = none →
    (content i c s = none → admitted s .read c.src.toNat c.len.toNat →
      ∃ t, exec i s = .next t ∧ Completed t 5#4 0 0 ∧ t.mem = s.mem) ∧
    (content i c s = none → ¬admitted s .read c.src.toNat c.len.toNat →
      ∃ t, exec i s = .next t ∧ (Completed t 5#4 0 0 ∧ t.mem = s.mem ∨ Completed t 9#4 0 0)) ∧
    ∀ p n, content i c s = some (p, n) →
      ¬(admitted s .read c.src.toNat c.len.toNat ∧ admitted s .write c.dst.toNat (c.len.toNat - n)) →
      ∃ t, exec i s = .next t ∧ Completed t 9#4 0 0

/-- The codes each command can complete with (R243). -/
def Obligations.CodesOfEachCommand : Prop :=
  ∀ (i : Instr) (s t : State), exec i s = .next t → t.errCode ∈ codes i

/-- Pointing a memory command at memory with side effects is a fault, and the only way a command stops (R75, R246, R247): the
CMD write that would issue it stops, and so does `exec` of one. That it goes before every check is log 15. -/
def Obligations.OnlySideEffectMemoryStopsACommand : Prop :=
  ∀ (i : Instr) (s : State),
    (¬ordinary i s → exec i s = .fault .sideEffectMemory) ∧ (ordinary i s → ∃ t, exec i s = .next t) ∧
    ∀ (w : Word) (rest : List Input), s.inputs = .regWrite 0x04#8 .word w :: rest → s.busy = false → fenced w s →
      ¬ordinary (decodeWord w) s → step s = .fault .sideEffectMemory

/-! ## Frames over all commands -/

/-- Whatever a command does, it leaves CTRL, BUSY_VIOL, the operand registers and every byte outside its maximal
destination range; the IV changes only by GENIV, ENCRYPT_MSG and CLEAR, and IV_FRESH only by those and ENCRYPT, whatever
the code; on an error other than BUS_ERR no byte changes; every completion sets DONE and clears BUSY (R29, R30, R67, R120,
R121). -/
def Obligations.CommandsChangeOnlyWhatTheirRulesName : Prop :=
  ∀ (i : Instr) (s t : State), exec i s = .next t →
    let c := s.operands i
    CommandFrame s t ∧ t.done = true ∧ t.busy = false ∧ t.cv = 0#128 ∧
      (∀ x, x < c.dst.toNat ∨ c.dst.toNat + maxout i c.len.toNat ≤ x → Memory.read t.mem x = Memory.read s.mem x) ∧
      (t.errCode ≠ 0#4 → t.outLen = 0#32 ∧ t.padN = 0#5) ∧
      (t.errCode ≠ 0#4 → t.errCode ≠ 9#4 → t.mem = s.mem) ∧
      (t.iv = s.iv ∨ i = .geniv ∨ i = .encryptMsg ∨ i = .clear) ∧
      (t.ivFresh = s.ivFresh ∨ i = .geniv ∨ i = .encrypt ∨ i = .encryptMsg ∨ i = .clear)

/-- Key clean-up: every keyed command zeroises KEY0..KEY7 and KEY_WR at completion, whatever its code; GENIV, PAD, UNPAD and
ILLEGAL leave them, and the clean-up step does nothing for them and for CLEAR (R122). -/
def Obligations.KeyedCommandsZeroiseTheKey : Prop :=
  ∀ (i : Instr) (s t : State), exec i s = .next t →
    (isKeyed i = true → keyGone t ∧ t.keyValid = false) ∧ (isKeyed i = false → i ≠ .clear → keyKept s t) ∧
      (isKeyed i = false → ∀ u : State, u.keyedCleanup i = u)

/-! ## Laws of the byte functions -/

/-- Unpad inverts Pad, accepts exactly the image of Pad, Pad is injective, and its length is the next multiple of 16
(R155). -/
def Obligations.PaddingLaws : Prop :=
  (∀ x : List Byte, unpadBytes (padBytes x) = some (x, padlen x.length)) ∧
  (∀ (d p : List Byte) (n : Nat), unpadBytes d = some (p, n) → padBytes p = d ∧ n = padlen p.length) ∧
  Function.Injective padBytes ∧ ∀ x : List Byte, (padBytes x).length = 16 * (x.length / 16 + 1)

/-- The chaining of encryption: `C_j = E(k, P_j xor C_{j-1})` with the IV before the first block, and the output is as
long as the input (R172). -/
def Obligations.CbcEncryptionChains : Prop :=
  ∀ (k : Key) (iv : Block) (p : List Byte), p.length % 16 = 0 →
    (cbcEnc k iv p).length = p.length ∧
      ∀ j, j < p.length / 16 →
        (toBlocks (cbcEnc k iv p)).getD j 0 =
          Config.encryptBlock k ((toBlocks p).getD j 0 ^^^ (iv :: toBlocks (cbcEnc k iv p)).getD j 0)

/-- The chaining of decryption: `P_j = D(k, C_j) xor C_{j-1}` with the IV before the first block; the output is as long as
the input, and decryption is the inverse of encryption both ways (R173, and with it R176 items 1 to 3). -/
def Obligations.CbcDecryptionChainsAndInverts : Prop :=
  ∀ (k : Key) (iv : Block) (c : List Byte), c.length % 16 = 0 →
    (cbcDec k iv c).length = c.length ∧ cbcDec k iv (cbcEnc k iv c) = c ∧ cbcEnc k iv (cbcDec k iv c) = c ∧
      ∀ j, j < c.length / 16 →
        (toBlocks (cbcDec k iv c)).getD j 0 =
          Config.decryptBlock k ((toBlocks c).getD j 0) ^^^ (iv :: toBlocks c).getD j 0

/-- Unpad looks at the last block alone, which is why DECRYPT_MSG can check before it writes (R192). -/
def Obligations.UnpadReadsOnlyTheLastBlock : Prop :=
  ∀ q : List Byte, 16 ≤ q.length → q.length % 16 = 0 →
    (unpadBytes q).map Prod.snd = (unpadBytes (q.drop (q.length - 16))).map Prod.snd

/-- What ENCRYPT_MSG wrote, DECRYPT_MSG under the same key and the IV it left turns back into the source bytes, with the
padding count (R193). The ciphertext length must fit LEN. -/
def Obligations.MessageRoundTrip : Prop :=
  ∀ s t u : State,
    let c := s.operands .encryptMsg
    let d := u.operands .decryptMsg
    let l := c.len.toNat
    exec .encryptMsg s = .next t → t.errCode = 0#4 →
    d.key = c.key → u.keyWr = 0xFF#8 → d.iv = blockOfIv t.iv → d.len.toNat = l + padlen l →
    Memory.readBytes u.mem d.src.toNat (l + padlen l) = Memory.readBytes t.mem c.dst.toNat (l + padlen l) →
    ordinary .decryptMsg u → fits .decryptMsg d → admitted u .read d.src.toNat (l + padlen l) →
    admitted u .write d.dst.toNat l →
    ∃ v, exec .decryptMsg u = .next v ∧ Completed v 0#4 l (padlen l) ∧
      Memory.readBytes v.mem d.dst.toNat l = Memory.readBytes s.mem c.src.toNat l

/-- The one case where OUT_LEN wraps: PAD of a length whose padded length is 2^32 fits only in place at address 0, and then
OUT_LEN reads 0 with PADN not 0 (R97). -/
def Obligations.OutLenWrapsOnlyAtTheTop : Prop :=
  ∀ s : State,
    let c := s.operands .pad
    let l := c.len.toNat
    (l + padlen l = 2 ^ 32 ↔ 2 ^ 32 - 16 ≤ l) ∧ l + padlen l ≤ 2 ^ 32 ∧
    (2 ^ 32 - 16 ≤ l → fits .pad c → c.src = 0#32 ∧ c.dst = 0#32) ∧
    (2 ^ 32 - 16 ≤ l → ordinary .pad s → fits .pad c → admitted s .read 0 l → admitted s .write 0 (2 ^ 32) →
      ∃ t, exec .pad s = .next t ∧ t.errCode = 0#4 ∧ t.outLen = 0#32 ∧ t.padN ≠ 0#5)

/-! ## Whole-machine rules -/

/-- The invariant holds after reset. -/
def Obligations.ResetSatisfiesTheInvariant : Prop := Inv State.reset

/-- Every step keeps the invariant, from every state that has it (R34, R35, R36, R37, R38, R40, R75, R123; memory's canonical
form is the model's own, and that no command pointed at memory with side effects runs is log 15). -/
def Obligations.EveryStepKeepsTheInvariant : Prop :=
  ∀ s t : State, Inv s → step s = .next t → Inv t

/-- BUSY_VIOL is sticky: only a write of 1 to STATUS bit 4 or reset clears it (R39). -/
def Obligations.BusyViolIsSticky : Prop :=
  ∀ s t : State, step s = .next t → s.busyViol = true →
    t.busyViol = true ∨ s.inputs.head? = some .reset ∨
      ∃ v, s.inputs.head? = some (.regWrite 0x08#8 .word v) ∧ v.getLsbD 4 = true

/-- IV_FRESH rises only when a running GENIV completes on an answered draw, and then IV0..IV3 hold that draw (R30). -/
def Obligations.FreshnessComesOnlyFromGeniv : Prop :=
  ∀ s t : State, step s = .next t → s.ivFresh = false → t.ivFresh = true →
    ∃ c b, s.cur = some c ∧ c.op = .geniv ∧ s.nextDraw = some b ∧ t.iv = ivOfBlock b

/-- With IV enforcement on, an ENCRYPT that wrote under a fresh IV leaves it stale, and ENCRYPT on a stale IV is refused
with IV_STALE, writing nothing (R142). -/
def Obligations.AFreshIvEncryptsOnce : Prop :=
  (∀ s t : State, exec .encrypt s = .next t → t.errCode = 0#4 ∨ t.errCode = 9#4 → t.ivFresh = false) ∧
  ∀ s : State, ordinary .encrypt s → s.keyWr = 0xFF#8 → (s.operands .encrypt).ivEnforce = true → s.ivFresh = false →
    ∃ t, exec .encrypt s = .next t ∧ Completed t 3#4 0 0 ∧ t.mem = s.mem

/-- A bit of KEY_WR rises only by the host's write of that key word, whose value is then the word (R27, R114). -/
def Obligations.KeyWrRisesOnlyByHostWrites : Prop :=
  ∀ (s t : State) (j : Fin 8), step s = .next t → s.keyWr.getLsbD j.val = false → t.keyWr.getLsbD j.val = true →
    ∃ v, s.inputs.head? = some (.regWrite (0x30#8 + 4#8 * BitVec.ofNat 8 j.val) .word v) ∧ keyWord t.key j = v

/-! ## The host's duties -/

/-- Fit gives 32 bytes: a front part of a long passphrase, or a short one filled up with 0x30 (R220). -/
def Obligations.FitGivesThirtyTwoBytes : Prop :=
  ∀ p : List Byte, (fit p).length = 32 ∧ (32 ≤ p.length → fit p = p.take 32) ∧
    (p.length < 32 → fit p = p ++ List.replicate (32 - p.length) 0x30#8) ∧ fit (p.take 32) = fit p

/-- Parse accepts exactly the envelopes Build makes of a 16-byte IV and a positive whole number of ciphertext blocks, and
gives back the two parts; anything else is a FormatError (R223, R224). -/
def Obligations.ParseInvertsBuild : Prop :=
  (∀ env iv c : List Byte, parseEnvelope env = .ok (iv, c) ↔
    env = buildEnvelope iv c ∧ iv.length = 16 ∧ 0 < c.length ∧ c.length % 16 = 0) ∧
  (∀ iv c : List Byte, buildEnvelope iv c = iv ++ c) ∧
  ∀ (env : List Byte) (e : HostError), parseEnvelope env = .error e → e = .formatError
end

