-- ==== Sys2Proof/Laws/Bytes.lean ====
section
/-! SUPPORT. Byte packing, lengths of the padding and CBC functions, and the block loops. -/

namespace Sys2Proof.Machine

/-! ## Little-endian packing -/

@[simp] theorem leBytes_length (n v : Nat) : (leBytes n v).length = n := by
  induction n generalizing v with
  | zero => rfl
  | succ n ih => simp [leBytes, ih]

theorem leNat_lt (b : List Byte) : leNat b < 256 ^ b.length := by
  induction b with
  | nil => simp [leNat]
  | cons x xs ih =>
    have hx := x.isLt
    simp only [leNat, List.length_cons, Nat.pow_succ]
    omega

theorem leBytes_leNat (b : List Byte) : leBytes b.length (leNat b) = b := by
  induction b with
  | nil => rfl
  | cons x xs ih =>
    have hx := x.isLt
    have h1 : (x.toNat + 256 * leNat xs) / 256 = leNat xs := by omega
    have h2 : BitVec.ofNat 8 (x.toNat + 256 * leNat xs) = x := by
      apply BitVec.eq_of_toNat_eq
      rw [BitVec.toNat_ofNat]
      omega
    simp only [leNat, List.length_cons, leBytes, h1, h2, ih]

theorem leNat_leBytes (n v : Nat) (h : v < 256 ^ n) : leNat (leBytes n v) = v := by
  induction n generalizing v with
  | zero => simp at h; simp [leNat, leBytes, h]
  | succ n ih =>
    have := ih (v / 256) (by rw [Nat.pow_succ] at h; omega)
    simp only [leBytes, leNat, this, BitVec.toNat_ofNat]
    omega

@[simp] theorem bytesOfBlock_length (b : Block) : (bytesOfBlock b).length = 16 := by
  simp [bytesOfBlock, Config.blockSize]

@[simp] theorem blockOfBytes_bytesOfBlock (b : Block) : blockOfBytes (bytesOfBlock b) = b := by
  apply BitVec.eq_of_toNat_eq
  have h : b.toNat < 256 ^ Config.blockSize := by simpa [Config.blockSize] using b.isLt
  simp only [blockOfBytes, bytesOfBlock, leNat_leBytes _ _ h, BitVec.toNat_ofNat]
  exact Nat.mod_eq_of_lt b.isLt

theorem bytesOfBlock_blockOfBytes (b : List Byte) (h : b.length = 16) : bytesOfBlock (blockOfBytes b) = b := by
  have hl := leNat_lt b
  rw [h] at hl
  have h2 : (BitVec.ofNat 128 (leNat b)).toNat = leNat b := by
    rw [BitVec.toNat_ofNat, Nat.mod_eq_of_lt (by simpa using hl)]
  have h3 := leBytes_leNat b
  rw [h] at h3
  simp [bytesOfBlock, blockOfBytes, Config.blockSize, h2, h3]

/-- The IV registers hold the block written to them (R29). -/
@[simp] theorem blockOfIv_ivOfBlock (b : Block) : blockOfIv (ivOfBlock b) = b := by
  simp only [blockOfIv, ivOfBlock]
  ext i hi
  simp only [BitVec.getElem_append, BitVec.getElem_extractLsb']
  repeat' split
  all_goals
    rw [← BitVec.getLsbD_eq_getElem]
    congr 1
    omega

@[simp] theorem ivOfBlock_blockOfIv (r : IvRegs) : ivOfBlock (blockOfIv r) = r := by
  obtain ⟨a, b, c, d⟩ := r
  simp only [blockOfIv, ivOfBlock, IvRegs.mk.injEq]
  refine ⟨?_, ?_, ?_, ?_⟩ <;>
  · ext i hi
    simp only [BitVec.getElem_extractLsb', BitVec.getLsbD_append]
    repeat' split
    all_goals first
      | omega
      | (rw [← BitVec.getLsbD_eq_getElem]; congr 1; omega)

/-! ## Blocks -/

@[simp] theorem blocksOf_length (n : Nat) (b : List Byte) : (blocksOf n b).length = n := by
  induction n generalizing b with
  | zero => rfl
  | succ n ih => simp [blocksOf, ih]

@[simp] theorem ofBlocks_length (bs : List Block) : (ofBlocks bs).length = 16 * bs.length := by
  induction bs with
  | nil => rfl
  | cons b bs ih => simp [ofBlocks, ih]; omega

theorem blocksOf_ofBlocks (bs : List Block) : blocksOf bs.length (ofBlocks bs) = bs := by
  induction bs with
  | nil => rfl
  | cons b bs ih => simp [blocksOf, ofBlocks, Config.blockSize, ih]

/-- Splitting into blocks undoes joining them (R10). -/
@[simp] theorem toBlocks_ofBlocks (bs : List Block) : toBlocks (ofBlocks bs) = bs := by
  rw [toBlocks, ofBlocks_length, Config.blockSize, Nat.mul_div_cancel_left _ (by omega), blocksOf_ofBlocks]

theorem ofBlocks_blocksOf (n : Nat) (b : List Byte) (h : b.length = 16 * n) : ofBlocks (blocksOf n b) = b := by
  induction n generalizing b with
  | zero => simp at h; simp [blocksOf, ofBlocks, h]
  | succ n ih =>
    have h1 : (b.take 16).length = 16 := by simp; omega
    simp only [blocksOf, ofBlocks, Config.blockSize, bytesOfBlock_blockOfBytes _ h1]
    rw [ih (b.drop 16) (by simp; omega), List.take_append_drop]

/-- Joining the blocks of an aligned byte string gives it back (R10). -/
theorem ofBlocks_toBlocks (b : List Byte) (h : b.length % 16 = 0) : ofBlocks (toBlocks b) = b :=
  ofBlocks_blocksOf _ b (by simp only [Config.blockSize]; omega)

@[simp] theorem toBlocks_length (b : List Byte) : (toBlocks b).length = b.length / 16 := by
  simp [toBlocks, Config.blockSize]

/-! ## The block loops (R172, R173) -/

@[simp] theorem cbcEncBlocks_length (e : Block → Block) (cv : Block) (ps : List Block) :
    (cbcEncBlocks e cv ps).length = ps.length := by
  induction ps generalizing cv with
  | nil => rfl
  | cons p ps ih => simp [cbcEncBlocks, ih]

@[simp] theorem cbcDecBlocks_length (d : Block → Block) (cv : Block) (cs : List Block) :
    (cbcDecBlocks d cv cs).length = cs.length := by
  induction cs generalizing cv with
  | nil => rfl
  | cons c cs ih => simp [cbcDecBlocks, ih]

/-- The loops are inverse when the block functions are (R171). -/
theorem cbcDecBlocks_cbcEncBlocks {e d : Block → Block} (h : ∀ b, d (e b) = b) (cv : Block) (ps : List Block) :
    cbcDecBlocks d cv (cbcEncBlocks e cv ps) = ps := by
  induction ps generalizing cv with
  | nil => rfl
  | cons p ps ih => simp [cbcEncBlocks, cbcDecBlocks, h, ih]

theorem cbcEncBlocks_cbcDecBlocks {e d : Block → Block} (h : ∀ b, e (d b) = b) (cv : Block) (cs : List Block) :
    cbcEncBlocks e cv (cbcDecBlocks d cv cs) = cs := by
  induction cs generalizing cv with
  | nil => rfl
  | cons c cs ih => simp [cbcEncBlocks, cbcDecBlocks, h, ih]

/-- CBC_Enc gives whole blocks. -/
@[simp] theorem cbcEnc_length (k : Key) (iv : Block) (p : List Byte) : (cbcEnc k iv p).length = 16 * (p.length / 16) := by
  simp [cbcEnc, cbcEncWith]

/-- CBC_Dec gives whole blocks. -/
@[simp] theorem cbcDec_length (k : Key) (iv : Block) (c : List Byte) : (cbcDec k iv c).length = 16 * (c.length / 16) := by
  simp [cbcDec, cbcDecWith]

/-- The law of BC (R171). -/
@[simp] theorem decryptBlock_encryptBlock (k : Key) (b : Block) :
    Config.decryptBlock k (Config.encryptBlock k b) = b := by
  simp [Config.decryptBlock, Config.encryptBlock]

@[simp] theorem encryptBlock_decryptBlock (k : Key) (b : Block) :
    Config.encryptBlock k (Config.decryptBlock k b) = b := by
  simp [Config.decryptBlock, Config.encryptBlock]

/-! ## Padding (R150, R151) -/

theorem padlen_pos (l : Nat) : 1 ≤ padlen l := by
  simp only [padlen, Config.blockSize]; omega

theorem padlen_le (l : Nat) : padlen l ≤ 16 := by
  simp only [padlen, Config.blockSize]; omega

theorem add_padlen_mod (l : Nat) : (l + padlen l) % 16 = 0 := by
  simp only [padlen, Config.blockSize]; omega

@[simp] theorem padBytes_length (d : List Byte) : (padBytes d).length = d.length + padlen d.length := by
  simp [padBytes]

/-- What Unpad gives is a front part of its input, with a count between 1 and 16 (R152). -/
theorem unpadBytes_some {d p : List Byte} {n : Nat} (h : unpadBytes d = some (p, n)) :
    1 ≤ n ∧ n ≤ 16 ∧ n ≤ d.length ∧ d.length % 16 = 0 ∧ p = d.take (d.length - n) ∧ p.length = d.length - n ∧
      d.drop (d.length - n) = List.replicate n (BitVec.ofNat 8 n) := by
  simp only [unpadBytes] at h
  by_cases h1 : d.length < 16
  · simp [h1] at h
  by_cases h2 : d.length % 16 ≠ 0
  · simp [h1, h2] at h
  by_cases h3 : (d.getD (d.length - 1) 0#8).toNat < 1 ∨ 16 < (d.getD (d.length - 1) 0#8).toNat
  · rw [if_neg h1, if_neg h2, if_pos h3] at h; cases h
  rw [if_neg h1, if_neg h2, if_neg h3] at h
  by_cases h4 : (d.drop (d.length - (d.getD (d.length - 1) 0#8).toNat)).all
      (fun x => x == d.getD (d.length - 1) 0#8) = true
  swap
  · rw [if_neg h4] at h; cases h
  rw [if_pos h4] at h
  simp only [Option.some.injEq, Prod.mk.injEq] at h
  obtain ⟨hp, hn⟩ := h
  rw [hn] at h3 h4 hp
  have hlast : BitVec.ofNat 8 n = d.getD (d.length - 1) 0#8 := by rw [← hn]; simp
  refine ⟨by omega, by omega, by omega, by omega, hp.symm, by rw [← hp]; simp, ?_⟩
  rw [List.eq_replicate_iff]
  refine ⟨by simp; omega, fun b hb => ?_⟩
  rw [List.all_eq_true] at h4
  simpa [hlast] using h4 b hb

end Sys2Proof.Machine
end

