-- ==== Sys2Proof/Laws/State.lean ====
section
/-! SUPPORT. One lemma per field of State per shared update, each true by unfolding the update once. -/

namespace Sys2Proof.Machine

variable (s : State)

/-- A successful completion is `finish` with code OK (R120). -/
@[simp] theorem State.complete_eq_finish (op : Instr) (o n : Nat) : s.complete op o n = s.finish op 0#4 o n := rfl

/-- An error completion is `finish` with the error's code and no output (R121). -/
@[simp] theorem State.raise_eq_finish (op : Instr) (e : Error) : s.raise op e = s.finish op (errorCode e) 0 0 := rfl

/-! ## store -/

@[simp] theorem State.store_ie (a : Nat) (bs : List Byte) : (s.store a bs).ie = s.ie := rfl
@[simp] theorem State.store_ivEnforce (a : Nat) (bs : List Byte) : (s.store a bs).ivEnforce = s.ivEnforce := rfl
@[simp] theorem State.store_done (a : Nat) (bs : List Byte) : (s.store a bs).done = s.done := rfl
@[simp] theorem State.store_busyViol (a : Nat) (bs : List Byte) : (s.store a bs).busyViol = s.busyViol := rfl
@[simp] theorem State.store_keyWr (a : Nat) (bs : List Byte) : (s.store a bs).keyWr = s.keyWr := rfl
@[simp] theorem State.store_ivFresh (a : Nat) (bs : List Byte) : (s.store a bs).ivFresh = s.ivFresh := rfl
@[simp] theorem State.store_errCode (a : Nat) (bs : List Byte) : (s.store a bs).errCode = s.errCode := rfl
@[simp] theorem State.store_srcAddr (a : Nat) (bs : List Byte) : (s.store a bs).srcAddr = s.srcAddr := rfl
@[simp] theorem State.store_dstAddr (a : Nat) (bs : List Byte) : (s.store a bs).dstAddr = s.dstAddr := rfl
@[simp] theorem State.store_len (a : Nat) (bs : List Byte) : (s.store a bs).len = s.len := rfl
@[simp] theorem State.store_outLen (a : Nat) (bs : List Byte) : (s.store a bs).outLen = s.outLen := rfl
@[simp] theorem State.store_padN (a : Nat) (bs : List Byte) : (s.store a bs).padN = s.padN := rfl
@[simp] theorem State.store_key (a : Nat) (bs : List Byte) : (s.store a bs).key = s.key := rfl
@[simp] theorem State.store_iv (a : Nat) (bs : List Byte) : (s.store a bs).iv = s.iv := rfl
@[simp] theorem State.store_cv (a : Nat) (bs : List Byte) : (s.store a bs).cv = s.cv := rfl
@[simp] theorem State.store_cur (a : Nat) (bs : List Byte) : (s.store a bs).cur = s.cur := rfl
@[simp] theorem State.store_mem (a : Nat) (bs : List Byte) : (s.store a bs).mem = Memory.writeBytes s.mem a bs := rfl
@[simp] theorem State.store_platform (a : Nat) (bs : List Byte) : (s.store a bs).platform = s.platform := rfl
@[simp] theorem State.store_entropy (a : Nat) (bs : List Byte) : (s.store a bs).entropy = s.entropy := rfl
@[simp] theorem State.store_draws (a : Nat) (bs : List Byte) : (s.store a bs).draws = s.draws := rfl
@[simp] theorem State.store_frees (a : Nat) (bs : List Byte) : (s.store a bs).frees = s.frees := rfl
@[simp] theorem State.store_inputs (a : Nat) (bs : List Byte) : (s.store a bs).inputs = s.inputs := rfl
@[simp] theorem State.store_reply (a : Nat) (bs : List Byte) : (s.store a bs).reply = s.reply := rfl
@[simp] theorem State.store_unfenced (a : Nat) (bs : List Byte) : (s.store a bs).unfenced = s.unfenced := rfl
@[simp] theorem State.store_pending (a : Nat) (bs : List Byte) : (s.store a bs).pending = s.pending := rfl
@[simp] theorem State.store_results (a : Nat) (bs : List Byte) : (s.store a bs).results = s.results := rfl

/-! ## scramble -/

@[simp] theorem State.scramble_ie (a n : Nat) : (s.scramble a n).ie = s.ie := rfl
@[simp] theorem State.scramble_ivEnforce (a n : Nat) : (s.scramble a n).ivEnforce = s.ivEnforce := rfl
@[simp] theorem State.scramble_done (a n : Nat) : (s.scramble a n).done = s.done := rfl
@[simp] theorem State.scramble_busyViol (a n : Nat) : (s.scramble a n).busyViol = s.busyViol := rfl
@[simp] theorem State.scramble_keyWr (a n : Nat) : (s.scramble a n).keyWr = s.keyWr := rfl
@[simp] theorem State.scramble_ivFresh (a n : Nat) : (s.scramble a n).ivFresh = s.ivFresh := rfl
@[simp] theorem State.scramble_errCode (a n : Nat) : (s.scramble a n).errCode = s.errCode := rfl
@[simp] theorem State.scramble_srcAddr (a n : Nat) : (s.scramble a n).srcAddr = s.srcAddr := rfl
@[simp] theorem State.scramble_dstAddr (a n : Nat) : (s.scramble a n).dstAddr = s.dstAddr := rfl
@[simp] theorem State.scramble_len (a n : Nat) : (s.scramble a n).len = s.len := rfl
@[simp] theorem State.scramble_outLen (a n : Nat) : (s.scramble a n).outLen = s.outLen := rfl
@[simp] theorem State.scramble_padN (a n : Nat) : (s.scramble a n).padN = s.padN := rfl
@[simp] theorem State.scramble_key (a n : Nat) : (s.scramble a n).key = s.key := rfl
@[simp] theorem State.scramble_iv (a n : Nat) : (s.scramble a n).iv = s.iv := rfl
@[simp] theorem State.scramble_cv (a n : Nat) : (s.scramble a n).cv = s.cv := rfl
@[simp] theorem State.scramble_cur (a n : Nat) : (s.scramble a n).cur = s.cur := rfl
@[simp] theorem State.scramble_mem (a n : Nat) : (s.scramble a n).mem = Memory.writeBytes s.mem a (freeBytes s.frees a (min n (Config.memorySize - a))) := rfl
@[simp] theorem State.scramble_platform (a n : Nat) : (s.scramble a n).platform = s.platform := rfl
@[simp] theorem State.scramble_entropy (a n : Nat) : (s.scramble a n).entropy = s.entropy := rfl
@[simp] theorem State.scramble_draws (a n : Nat) : (s.scramble a n).draws = s.draws := rfl
@[simp] theorem State.scramble_frees (a n : Nat) : (s.scramble a n).frees = s.frees + 1 := rfl
@[simp] theorem State.scramble_inputs (a n : Nat) : (s.scramble a n).inputs = s.inputs := rfl
@[simp] theorem State.scramble_reply (a n : Nat) : (s.scramble a n).reply = s.reply := rfl
@[simp] theorem State.scramble_unfenced (a n : Nat) : (s.scramble a n).unfenced = s.unfenced := rfl
@[simp] theorem State.scramble_pending (a n : Nat) : (s.scramble a n).pending = s.pending := rfl
@[simp] theorem State.scramble_results (a n : Nat) : (s.scramble a n).results = s.results := rfl

/-! ## withInputs -/

@[simp] theorem State.withInputs_ie (l : List Input) : (s.withInputs l).ie = s.ie := rfl
@[simp] theorem State.withInputs_ivEnforce (l : List Input) : (s.withInputs l).ivEnforce = s.ivEnforce := rfl
@[simp] theorem State.withInputs_done (l : List Input) : (s.withInputs l).done = s.done := rfl
@[simp] theorem State.withInputs_busyViol (l : List Input) : (s.withInputs l).busyViol = s.busyViol := rfl
@[simp] theorem State.withInputs_keyWr (l : List Input) : (s.withInputs l).keyWr = s.keyWr := rfl
@[simp] theorem State.withInputs_ivFresh (l : List Input) : (s.withInputs l).ivFresh = s.ivFresh := rfl
@[simp] theorem State.withInputs_errCode (l : List Input) : (s.withInputs l).errCode = s.errCode := rfl
@[simp] theorem State.withInputs_srcAddr (l : List Input) : (s.withInputs l).srcAddr = s.srcAddr := rfl
@[simp] theorem State.withInputs_dstAddr (l : List Input) : (s.withInputs l).dstAddr = s.dstAddr := rfl
@[simp] theorem State.withInputs_len (l : List Input) : (s.withInputs l).len = s.len := rfl
@[simp] theorem State.withInputs_outLen (l : List Input) : (s.withInputs l).outLen = s.outLen := rfl
@[simp] theorem State.withInputs_padN (l : List Input) : (s.withInputs l).padN = s.padN := rfl
@[simp] theorem State.withInputs_key (l : List Input) : (s.withInputs l).key = s.key := rfl
@[simp] theorem State.withInputs_iv (l : List Input) : (s.withInputs l).iv = s.iv := rfl
@[simp] theorem State.withInputs_cv (l : List Input) : (s.withInputs l).cv = s.cv := rfl
@[simp] theorem State.withInputs_cur (l : List Input) : (s.withInputs l).cur = s.cur := rfl
@[simp] theorem State.withInputs_mem (l : List Input) : (s.withInputs l).mem = s.mem := rfl
@[simp] theorem State.withInputs_platform (l : List Input) : (s.withInputs l).platform = s.platform := rfl
@[simp] theorem State.withInputs_entropy (l : List Input) : (s.withInputs l).entropy = s.entropy := rfl
@[simp] theorem State.withInputs_draws (l : List Input) : (s.withInputs l).draws = s.draws := rfl
@[simp] theorem State.withInputs_frees (l : List Input) : (s.withInputs l).frees = s.frees := rfl
@[simp] theorem State.withInputs_inputs (l : List Input) : (s.withInputs l).inputs = l := rfl
@[simp] theorem State.withInputs_reply (l : List Input) : (s.withInputs l).reply = s.reply := rfl
@[simp] theorem State.withInputs_unfenced (l : List Input) : (s.withInputs l).unfenced = s.unfenced := rfl
@[simp] theorem State.withInputs_pending (l : List Input) : (s.withInputs l).pending = s.pending := rfl
@[simp] theorem State.withInputs_results (l : List Input) : (s.withInputs l).results = s.results := rfl

/-! ## withReply -/

@[simp] theorem State.withReply_ie (r : Reply) : (s.withReply r).ie = s.ie := rfl
@[simp] theorem State.withReply_ivEnforce (r : Reply) : (s.withReply r).ivEnforce = s.ivEnforce := rfl
@[simp] theorem State.withReply_done (r : Reply) : (s.withReply r).done = s.done := rfl
@[simp] theorem State.withReply_busyViol (r : Reply) : (s.withReply r).busyViol = s.busyViol := rfl
@[simp] theorem State.withReply_keyWr (r : Reply) : (s.withReply r).keyWr = s.keyWr := rfl
@[simp] theorem State.withReply_ivFresh (r : Reply) : (s.withReply r).ivFresh = s.ivFresh := rfl
@[simp] theorem State.withReply_errCode (r : Reply) : (s.withReply r).errCode = s.errCode := rfl
@[simp] theorem State.withReply_srcAddr (r : Reply) : (s.withReply r).srcAddr = s.srcAddr := rfl
@[simp] theorem State.withReply_dstAddr (r : Reply) : (s.withReply r).dstAddr = s.dstAddr := rfl
@[simp] theorem State.withReply_len (r : Reply) : (s.withReply r).len = s.len := rfl
@[simp] theorem State.withReply_outLen (r : Reply) : (s.withReply r).outLen = s.outLen := rfl
@[simp] theorem State.withReply_padN (r : Reply) : (s.withReply r).padN = s.padN := rfl
@[simp] theorem State.withReply_key (r : Reply) : (s.withReply r).key = s.key := rfl
@[simp] theorem State.withReply_iv (r : Reply) : (s.withReply r).iv = s.iv := rfl
@[simp] theorem State.withReply_cv (r : Reply) : (s.withReply r).cv = s.cv := rfl
@[simp] theorem State.withReply_cur (r : Reply) : (s.withReply r).cur = s.cur := rfl
@[simp] theorem State.withReply_mem (r : Reply) : (s.withReply r).mem = s.mem := rfl
@[simp] theorem State.withReply_platform (r : Reply) : (s.withReply r).platform = s.platform := rfl
@[simp] theorem State.withReply_entropy (r : Reply) : (s.withReply r).entropy = s.entropy := rfl
@[simp] theorem State.withReply_draws (r : Reply) : (s.withReply r).draws = s.draws := rfl
@[simp] theorem State.withReply_frees (r : Reply) : (s.withReply r).frees = s.frees := rfl
@[simp] theorem State.withReply_inputs (r : Reply) : (s.withReply r).inputs = s.inputs := rfl
@[simp] theorem State.withReply_reply (r : Reply) : (s.withReply r).reply = r := rfl
@[simp] theorem State.withReply_unfenced (r : Reply) : (s.withReply r).unfenced = s.unfenced := rfl
@[simp] theorem State.withReply_pending (r : Reply) : (s.withReply r).pending = s.pending := rfl
@[simp] theorem State.withReply_results (r : Reply) : (s.withReply r).results = s.results := rfl

/-! ## withPending -/

@[simp] theorem State.withPending_ie (p : List Buffers) : (s.withPending p).ie = s.ie := rfl
@[simp] theorem State.withPending_ivEnforce (p : List Buffers) : (s.withPending p).ivEnforce = s.ivEnforce := rfl
@[simp] theorem State.withPending_done (p : List Buffers) : (s.withPending p).done = s.done := rfl
@[simp] theorem State.withPending_busyViol (p : List Buffers) : (s.withPending p).busyViol = s.busyViol := rfl
@[simp] theorem State.withPending_keyWr (p : List Buffers) : (s.withPending p).keyWr = s.keyWr := rfl
@[simp] theorem State.withPending_ivFresh (p : List Buffers) : (s.withPending p).ivFresh = s.ivFresh := rfl
@[simp] theorem State.withPending_errCode (p : List Buffers) : (s.withPending p).errCode = s.errCode := rfl
@[simp] theorem State.withPending_srcAddr (p : List Buffers) : (s.withPending p).srcAddr = s.srcAddr := rfl
@[simp] theorem State.withPending_dstAddr (p : List Buffers) : (s.withPending p).dstAddr = s.dstAddr := rfl
@[simp] theorem State.withPending_len (p : List Buffers) : (s.withPending p).len = s.len := rfl
@[simp] theorem State.withPending_outLen (p : List Buffers) : (s.withPending p).outLen = s.outLen := rfl
@[simp] theorem State.withPending_padN (p : List Buffers) : (s.withPending p).padN = s.padN := rfl
@[simp] theorem State.withPending_key (p : List Buffers) : (s.withPending p).key = s.key := rfl
@[simp] theorem State.withPending_iv (p : List Buffers) : (s.withPending p).iv = s.iv := rfl
@[simp] theorem State.withPending_cv (p : List Buffers) : (s.withPending p).cv = s.cv := rfl
@[simp] theorem State.withPending_cur (p : List Buffers) : (s.withPending p).cur = s.cur := rfl
@[simp] theorem State.withPending_mem (p : List Buffers) : (s.withPending p).mem = s.mem := rfl
@[simp] theorem State.withPending_platform (p : List Buffers) : (s.withPending p).platform = s.platform := rfl
@[simp] theorem State.withPending_entropy (p : List Buffers) : (s.withPending p).entropy = s.entropy := rfl
@[simp] theorem State.withPending_draws (p : List Buffers) : (s.withPending p).draws = s.draws := rfl
@[simp] theorem State.withPending_frees (p : List Buffers) : (s.withPending p).frees = s.frees := rfl
@[simp] theorem State.withPending_inputs (p : List Buffers) : (s.withPending p).inputs = s.inputs := rfl
@[simp] theorem State.withPending_reply (p : List Buffers) : (s.withPending p).reply = s.reply := rfl
@[simp] theorem State.withPending_unfenced (p : List Buffers) : (s.withPending p).unfenced = s.unfenced := rfl
@[simp] theorem State.withPending_pending (p : List Buffers) : (s.withPending p).pending = p := rfl
@[simp] theorem State.withPending_results (p : List Buffers) : (s.withPending p).results = s.results := rfl

/-! ## dropDraw -/

@[simp] theorem State.dropDraw_ie : (s.dropDraw).ie = s.ie := rfl
@[simp] theorem State.dropDraw_ivEnforce : (s.dropDraw).ivEnforce = s.ivEnforce := rfl
@[simp] theorem State.dropDraw_done : (s.dropDraw).done = s.done := rfl
@[simp] theorem State.dropDraw_busyViol : (s.dropDraw).busyViol = s.busyViol := rfl
@[simp] theorem State.dropDraw_keyWr : (s.dropDraw).keyWr = s.keyWr := rfl
@[simp] theorem State.dropDraw_ivFresh : (s.dropDraw).ivFresh = s.ivFresh := rfl
@[simp] theorem State.dropDraw_errCode : (s.dropDraw).errCode = s.errCode := rfl
@[simp] theorem State.dropDraw_srcAddr : (s.dropDraw).srcAddr = s.srcAddr := rfl
@[simp] theorem State.dropDraw_dstAddr : (s.dropDraw).dstAddr = s.dstAddr := rfl
@[simp] theorem State.dropDraw_len : (s.dropDraw).len = s.len := rfl
@[simp] theorem State.dropDraw_outLen : (s.dropDraw).outLen = s.outLen := rfl
@[simp] theorem State.dropDraw_padN : (s.dropDraw).padN = s.padN := rfl
@[simp] theorem State.dropDraw_key : (s.dropDraw).key = s.key := rfl
@[simp] theorem State.dropDraw_iv : (s.dropDraw).iv = s.iv := rfl
@[simp] theorem State.dropDraw_cv : (s.dropDraw).cv = s.cv := rfl
@[simp] theorem State.dropDraw_cur : (s.dropDraw).cur = s.cur := rfl
@[simp] theorem State.dropDraw_mem : (s.dropDraw).mem = s.mem := rfl
@[simp] theorem State.dropDraw_platform : (s.dropDraw).platform = s.platform := rfl
@[simp] theorem State.dropDraw_entropy : (s.dropDraw).entropy = s.entropy.tail := rfl
@[simp] theorem State.dropDraw_draws : (s.dropDraw).draws = if s.entropy.isEmpty then s.draws + 1 else s.draws := rfl
@[simp] theorem State.dropDraw_frees : (s.dropDraw).frees = s.frees := rfl
@[simp] theorem State.dropDraw_inputs : (s.dropDraw).inputs = s.inputs := rfl
@[simp] theorem State.dropDraw_reply : (s.dropDraw).reply = s.reply := rfl
@[simp] theorem State.dropDraw_unfenced : (s.dropDraw).unfenced = s.unfenced := rfl
@[simp] theorem State.dropDraw_pending : (s.dropDraw).pending = s.pending := rfl
@[simp] theorem State.dropDraw_results : (s.dropDraw).results = s.results := rfl

/-! ## setIv -/

@[simp] theorem State.setIv_ie (b : Block) (f : Bool) : (s.setIv b f).ie = s.ie := rfl
@[simp] theorem State.setIv_ivEnforce (b : Block) (f : Bool) : (s.setIv b f).ivEnforce = s.ivEnforce := rfl
@[simp] theorem State.setIv_done (b : Block) (f : Bool) : (s.setIv b f).done = s.done := rfl
@[simp] theorem State.setIv_busyViol (b : Block) (f : Bool) : (s.setIv b f).busyViol = s.busyViol := rfl
@[simp] theorem State.setIv_keyWr (b : Block) (f : Bool) : (s.setIv b f).keyWr = s.keyWr := rfl
@[simp] theorem State.setIv_ivFresh (b : Block) (f : Bool) : (s.setIv b f).ivFresh = f := rfl
@[simp] theorem State.setIv_errCode (b : Block) (f : Bool) : (s.setIv b f).errCode = s.errCode := rfl
@[simp] theorem State.setIv_srcAddr (b : Block) (f : Bool) : (s.setIv b f).srcAddr = s.srcAddr := rfl
@[simp] theorem State.setIv_dstAddr (b : Block) (f : Bool) : (s.setIv b f).dstAddr = s.dstAddr := rfl
@[simp] theorem State.setIv_len (b : Block) (f : Bool) : (s.setIv b f).len = s.len := rfl
@[simp] theorem State.setIv_outLen (b : Block) (f : Bool) : (s.setIv b f).outLen = s.outLen := rfl
@[simp] theorem State.setIv_padN (b : Block) (f : Bool) : (s.setIv b f).padN = s.padN := rfl
@[simp] theorem State.setIv_key (b : Block) (f : Bool) : (s.setIv b f).key = s.key := rfl
@[simp] theorem State.setIv_iv (b : Block) (f : Bool) : (s.setIv b f).iv = ivOfBlock b := rfl
@[simp] theorem State.setIv_cv (b : Block) (f : Bool) : (s.setIv b f).cv = s.cv := rfl
@[simp] theorem State.setIv_cur (b : Block) (f : Bool) : (s.setIv b f).cur = s.cur := rfl
@[simp] theorem State.setIv_mem (b : Block) (f : Bool) : (s.setIv b f).mem = s.mem := rfl
@[simp] theorem State.setIv_platform (b : Block) (f : Bool) : (s.setIv b f).platform = s.platform := rfl
@[simp] theorem State.setIv_entropy (b : Block) (f : Bool) : (s.setIv b f).entropy = s.entropy := rfl
@[simp] theorem State.setIv_draws (b : Block) (f : Bool) : (s.setIv b f).draws = s.draws := rfl
@[simp] theorem State.setIv_frees (b : Block) (f : Bool) : (s.setIv b f).frees = s.frees := rfl
@[simp] theorem State.setIv_inputs (b : Block) (f : Bool) : (s.setIv b f).inputs = s.inputs := rfl
@[simp] theorem State.setIv_reply (b : Block) (f : Bool) : (s.setIv b f).reply = s.reply := rfl
@[simp] theorem State.setIv_unfenced (b : Block) (f : Bool) : (s.setIv b f).unfenced = s.unfenced := rfl
@[simp] theorem State.setIv_pending (b : Block) (f : Bool) : (s.setIv b f).pending = s.pending := rfl
@[simp] theorem State.setIv_results (b : Block) (f : Bool) : (s.setIv b f).results = s.results := rfl

/-! ## useIv -/

@[simp] theorem State.useIv_ie : (s.useIv).ie = s.ie := rfl
@[simp] theorem State.useIv_ivEnforce : (s.useIv).ivEnforce = s.ivEnforce := rfl
@[simp] theorem State.useIv_done : (s.useIv).done = s.done := rfl
@[simp] theorem State.useIv_busyViol : (s.useIv).busyViol = s.busyViol := rfl
@[simp] theorem State.useIv_keyWr : (s.useIv).keyWr = s.keyWr := rfl
@[simp] theorem State.useIv_ivFresh : (s.useIv).ivFresh = false := rfl
@[simp] theorem State.useIv_errCode : (s.useIv).errCode = s.errCode := rfl
@[simp] theorem State.useIv_srcAddr : (s.useIv).srcAddr = s.srcAddr := rfl
@[simp] theorem State.useIv_dstAddr : (s.useIv).dstAddr = s.dstAddr := rfl
@[simp] theorem State.useIv_len : (s.useIv).len = s.len := rfl
@[simp] theorem State.useIv_outLen : (s.useIv).outLen = s.outLen := rfl
@[simp] theorem State.useIv_padN : (s.useIv).padN = s.padN := rfl
@[simp] theorem State.useIv_key : (s.useIv).key = s.key := rfl
@[simp] theorem State.useIv_iv : (s.useIv).iv = s.iv := rfl
@[simp] theorem State.useIv_cv : (s.useIv).cv = s.cv := rfl
@[simp] theorem State.useIv_cur : (s.useIv).cur = s.cur := rfl
@[simp] theorem State.useIv_mem : (s.useIv).mem = s.mem := rfl
@[simp] theorem State.useIv_platform : (s.useIv).platform = s.platform := rfl
@[simp] theorem State.useIv_entropy : (s.useIv).entropy = s.entropy := rfl
@[simp] theorem State.useIv_draws : (s.useIv).draws = s.draws := rfl
@[simp] theorem State.useIv_frees : (s.useIv).frees = s.frees := rfl
@[simp] theorem State.useIv_inputs : (s.useIv).inputs = s.inputs := rfl
@[simp] theorem State.useIv_reply : (s.useIv).reply = s.reply := rfl
@[simp] theorem State.useIv_unfenced : (s.useIv).unfenced = s.unfenced := rfl
@[simp] theorem State.useIv_pending : (s.useIv).pending = s.pending := rfl
@[simp] theorem State.useIv_results : (s.useIv).results = s.results := rfl

/-! ## zeroise -/

@[simp] theorem State.zeroise_ie : (s.zeroise).ie = s.ie := rfl
@[simp] theorem State.zeroise_ivEnforce : (s.zeroise).ivEnforce = s.ivEnforce := rfl
@[simp] theorem State.zeroise_done : (s.zeroise).done = s.done := rfl
@[simp] theorem State.zeroise_busyViol : (s.zeroise).busyViol = s.busyViol := rfl
@[simp] theorem State.zeroise_keyWr : (s.zeroise).keyWr = 0 := rfl
@[simp] theorem State.zeroise_ivFresh : (s.zeroise).ivFresh = false := rfl
@[simp] theorem State.zeroise_errCode : (s.zeroise).errCode = s.errCode := rfl
@[simp] theorem State.zeroise_srcAddr : (s.zeroise).srcAddr = s.srcAddr := rfl
@[simp] theorem State.zeroise_dstAddr : (s.zeroise).dstAddr = s.dstAddr := rfl
@[simp] theorem State.zeroise_len : (s.zeroise).len = s.len := rfl
@[simp] theorem State.zeroise_outLen : (s.zeroise).outLen = s.outLen := rfl
@[simp] theorem State.zeroise_padN : (s.zeroise).padN = s.padN := rfl
@[simp] theorem State.zeroise_key : (s.zeroise).key = KeyRegs.zero := rfl
@[simp] theorem State.zeroise_iv : (s.zeroise).iv = IvRegs.zero := rfl
@[simp] theorem State.zeroise_cv : (s.zeroise).cv = 0 := rfl
@[simp] theorem State.zeroise_cur : (s.zeroise).cur = s.cur := rfl
@[simp] theorem State.zeroise_mem : (s.zeroise).mem = s.mem := rfl
@[simp] theorem State.zeroise_platform : (s.zeroise).platform = s.platform := rfl
@[simp] theorem State.zeroise_entropy : (s.zeroise).entropy = s.entropy := rfl
@[simp] theorem State.zeroise_draws : (s.zeroise).draws = s.draws := rfl
@[simp] theorem State.zeroise_frees : (s.zeroise).frees = s.frees := rfl
@[simp] theorem State.zeroise_inputs : (s.zeroise).inputs = s.inputs := rfl
@[simp] theorem State.zeroise_reply : (s.zeroise).reply = s.reply := rfl
@[simp] theorem State.zeroise_unfenced : (s.zeroise).unfenced = s.unfenced := rfl
@[simp] theorem State.zeroise_pending : (s.zeroise).pending = s.pending := rfl
@[simp] theorem State.zeroise_results : (s.zeroise).results = s.results := rfl

/-! ## issue -/

@[simp] theorem State.issue_ie (w : Word) : (s.issue w).ie = s.ie := rfl
@[simp] theorem State.issue_ivEnforce (w : Word) : (s.issue w).ivEnforce = s.ivEnforce := rfl
@[simp] theorem State.issue_done (w : Word) : (s.issue w).done = false := rfl
@[simp] theorem State.issue_busyViol (w : Word) : (s.issue w).busyViol = s.busyViol := rfl
@[simp] theorem State.issue_keyWr (w : Word) : (s.issue w).keyWr = s.keyWr := rfl
@[simp] theorem State.issue_ivFresh (w : Word) : (s.issue w).ivFresh = s.ivFresh := rfl
@[simp] theorem State.issue_errCode (w : Word) : (s.issue w).errCode = 0 := rfl
@[simp] theorem State.issue_srcAddr (w : Word) : (s.issue w).srcAddr = s.srcAddr := rfl
@[simp] theorem State.issue_dstAddr (w : Word) : (s.issue w).dstAddr = s.dstAddr := rfl
@[simp] theorem State.issue_len (w : Word) : (s.issue w).len = s.len := rfl
@[simp] theorem State.issue_outLen (w : Word) : (s.issue w).outLen = 0 := rfl
@[simp] theorem State.issue_padN (w : Word) : (s.issue w).padN = 0 := rfl
@[simp] theorem State.issue_key (w : Word) : (s.issue w).key = s.key := rfl
@[simp] theorem State.issue_iv (w : Word) : (s.issue w).iv = s.iv := rfl
@[simp] theorem State.issue_cv (w : Word) : (s.issue w).cv = s.cv := rfl
@[simp] theorem State.issue_cur (w : Word) : (s.issue w).cur = some (s.latch (decodeWord w)) := rfl
@[simp] theorem State.issue_mem (w : Word) : (s.issue w).mem = s.mem := rfl
@[simp] theorem State.issue_platform (w : Word) : (s.issue w).platform = s.platform := rfl
@[simp] theorem State.issue_entropy (w : Word) : (s.issue w).entropy = s.entropy := rfl
@[simp] theorem State.issue_draws (w : Word) : (s.issue w).draws = s.draws := rfl
@[simp] theorem State.issue_frees (w : Word) : (s.issue w).frees = s.frees := rfl
@[simp] theorem State.issue_inputs (w : Word) : (s.issue w).inputs = s.inputs := rfl
@[simp] theorem State.issue_reply (w : Word) : (s.issue w).reply = s.reply := rfl
@[simp] theorem State.issue_unfenced (w : Word) : (s.issue w).unfenced = s.unfenced := rfl
@[simp] theorem State.issue_pending (w : Word) : (s.issue w).pending = s.pending := rfl
@[simp] theorem State.issue_results (w : Word) : (s.issue w).results = s.results := rfl

/-! ## accept -/

@[simp] theorem State.accept_ie (w : Word) : (s.accept w).ie = s.ie := rfl
@[simp] theorem State.accept_ivEnforce (w : Word) : (s.accept w).ivEnforce = s.ivEnforce := rfl
@[simp] theorem State.accept_done (w : Word) : (s.accept w).done = false := rfl
@[simp] theorem State.accept_busyViol (w : Word) : (s.accept w).busyViol = s.busyViol := rfl
@[simp] theorem State.accept_keyWr (w : Word) : (s.accept w).keyWr = s.keyWr := rfl
@[simp] theorem State.accept_ivFresh (w : Word) : (s.accept w).ivFresh = s.ivFresh := rfl
@[simp] theorem State.accept_errCode (w : Word) : (s.accept w).errCode = 0 := rfl
@[simp] theorem State.accept_srcAddr (w : Word) : (s.accept w).srcAddr = s.srcAddr := rfl
@[simp] theorem State.accept_dstAddr (w : Word) : (s.accept w).dstAddr = s.dstAddr := rfl
@[simp] theorem State.accept_len (w : Word) : (s.accept w).len = s.len := rfl
@[simp] theorem State.accept_outLen (w : Word) : (s.accept w).outLen = 0 := rfl
@[simp] theorem State.accept_padN (w : Word) : (s.accept w).padN = 0 := rfl
@[simp] theorem State.accept_key (w : Word) : (s.accept w).key = s.key := rfl
@[simp] theorem State.accept_iv (w : Word) : (s.accept w).iv = s.iv := rfl
@[simp] theorem State.accept_cv (w : Word) : (s.accept w).cv = s.cv := rfl
@[simp] theorem State.accept_cur (w : Word) : (s.accept w).cur = some (s.latch (decodeWord w)) := rfl
@[simp] theorem State.accept_mem (w : Word) : (s.accept w).mem = s.mem := rfl
@[simp] theorem State.accept_platform (w : Word) : (s.accept w).platform = s.platform := rfl
@[simp] theorem State.accept_entropy (w : Word) : (s.accept w).entropy = s.entropy := rfl
@[simp] theorem State.accept_draws (w : Word) : (s.accept w).draws = s.draws := rfl
@[simp] theorem State.accept_frees (w : Word) : (s.accept w).frees = s.frees := rfl
@[simp] theorem State.accept_inputs (w : Word) : (s.accept w).inputs = s.inputs := rfl
@[simp] theorem State.accept_reply (w : Word) : (s.accept w).reply = s.reply := rfl
@[simp] theorem State.accept_unfenced (w : Word) : (s.accept w).unfenced = s.unfenced := rfl
@[simp] theorem State.accept_pending (w : Word) : (s.accept w).pending = (s.issueBuffers w).toList ++ s.pending := rfl
@[simp] theorem State.accept_results (w : Word) : (s.accept w).results = s.results := rfl

/-! ## finish -/

@[simp] theorem State.finish_ie (op : Instr) (e : BitVec 4) (o n : Nat) : (s.finish op e o n).ie = s.ie := rfl
@[simp] theorem State.finish_ivEnforce (op : Instr) (e : BitVec 4) (o n : Nat) : (s.finish op e o n).ivEnforce = s.ivEnforce := rfl
@[simp] theorem State.finish_done (op : Instr) (e : BitVec 4) (o n : Nat) : (s.finish op e o n).done = true := rfl
@[simp] theorem State.finish_busyViol (op : Instr) (e : BitVec 4) (o n : Nat) : (s.finish op e o n).busyViol = s.busyViol := rfl
@[simp] theorem State.finish_keyWr (op : Instr) (e : BitVec 4) (o n : Nat) : (s.finish op e o n).keyWr = if isKeyed op then 0 else s.keyWr := rfl
@[simp] theorem State.finish_ivFresh (op : Instr) (e : BitVec 4) (o n : Nat) : (s.finish op e o n).ivFresh = s.ivFresh := rfl
@[simp] theorem State.finish_errCode (op : Instr) (e : BitVec 4) (o n : Nat) : (s.finish op e o n).errCode = e := rfl
@[simp] theorem State.finish_srcAddr (op : Instr) (e : BitVec 4) (o n : Nat) : (s.finish op e o n).srcAddr = s.srcAddr := rfl
@[simp] theorem State.finish_dstAddr (op : Instr) (e : BitVec 4) (o n : Nat) : (s.finish op e o n).dstAddr = s.dstAddr := rfl
@[simp] theorem State.finish_len (op : Instr) (e : BitVec 4) (o n : Nat) : (s.finish op e o n).len = s.len := rfl
@[simp] theorem State.finish_outLen (op : Instr) (e : BitVec 4) (o n : Nat) : (s.finish op e o n).outLen = BitVec.ofNat 32 o := rfl
@[simp] theorem State.finish_padN (op : Instr) (e : BitVec 4) (o n : Nat) : (s.finish op e o n).padN = BitVec.ofNat 5 n := rfl
@[simp] theorem State.finish_key (op : Instr) (e : BitVec 4) (o n : Nat) : (s.finish op e o n).key = if isKeyed op then KeyRegs.zero else s.key := rfl
@[simp] theorem State.finish_iv (op : Instr) (e : BitVec 4) (o n : Nat) : (s.finish op e o n).iv = s.iv := rfl
@[simp] theorem State.finish_cv (op : Instr) (e : BitVec 4) (o n : Nat) : (s.finish op e o n).cv = 0 := rfl
@[simp] theorem State.finish_cur (op : Instr) (e : BitVec 4) (o n : Nat) : (s.finish op e o n).cur = none := rfl
@[simp] theorem State.finish_mem (op : Instr) (e : BitVec 4) (o n : Nat) : (s.finish op e o n).mem = s.mem := rfl
@[simp] theorem State.finish_platform (op : Instr) (e : BitVec 4) (o n : Nat) : (s.finish op e o n).platform = s.platform := rfl
@[simp] theorem State.finish_entropy (op : Instr) (e : BitVec 4) (o n : Nat) : (s.finish op e o n).entropy = s.entropy := rfl
@[simp] theorem State.finish_draws (op : Instr) (e : BitVec 4) (o n : Nat) : (s.finish op e o n).draws = s.draws := rfl
@[simp] theorem State.finish_frees (op : Instr) (e : BitVec 4) (o n : Nat) : (s.finish op e o n).frees = s.frees := rfl
@[simp] theorem State.finish_inputs (op : Instr) (e : BitVec 4) (o n : Nat) : (s.finish op e o n).inputs = s.inputs := rfl
@[simp] theorem State.finish_reply (op : Instr) (e : BitVec 4) (o n : Nat) : (s.finish op e o n).reply = s.reply := rfl
@[simp] theorem State.finish_unfenced (op : Instr) (e : BitVec 4) (o n : Nat) : (s.finish op e o n).unfenced = s.unfenced := rfl
@[simp] theorem State.finish_pending (op : Instr) (e : BitVec 4) (o n : Nat) : (s.finish op e o n).pending = s.pending := rfl
@[simp] theorem State.finish_results (op : Instr) (e : BitVec 4) (o n : Nat) : (s.finish op e o n).results = s.results := rfl

/-! ## writeCtrl -/

@[simp] theorem State.writeCtrl_ie (v : Word) : (s.writeCtrl v).ie = v.getLsbD 0 := rfl
@[simp] theorem State.writeCtrl_ivEnforce (v : Word) : (s.writeCtrl v).ivEnforce = v.getLsbD 1 := rfl
@[simp] theorem State.writeCtrl_done (v : Word) : (s.writeCtrl v).done = s.done := rfl
@[simp] theorem State.writeCtrl_busyViol (v : Word) : (s.writeCtrl v).busyViol = s.busyViol := rfl
@[simp] theorem State.writeCtrl_keyWr (v : Word) : (s.writeCtrl v).keyWr = s.keyWr := rfl
@[simp] theorem State.writeCtrl_ivFresh (v : Word) : (s.writeCtrl v).ivFresh = s.ivFresh := rfl
@[simp] theorem State.writeCtrl_errCode (v : Word) : (s.writeCtrl v).errCode = s.errCode := rfl
@[simp] theorem State.writeCtrl_srcAddr (v : Word) : (s.writeCtrl v).srcAddr = s.srcAddr := rfl
@[simp] theorem State.writeCtrl_dstAddr (v : Word) : (s.writeCtrl v).dstAddr = s.dstAddr := rfl
@[simp] theorem State.writeCtrl_len (v : Word) : (s.writeCtrl v).len = s.len := rfl
@[simp] theorem State.writeCtrl_outLen (v : Word) : (s.writeCtrl v).outLen = s.outLen := rfl
@[simp] theorem State.writeCtrl_padN (v : Word) : (s.writeCtrl v).padN = s.padN := rfl
@[simp] theorem State.writeCtrl_key (v : Word) : (s.writeCtrl v).key = s.key := rfl
@[simp] theorem State.writeCtrl_iv (v : Word) : (s.writeCtrl v).iv = s.iv := rfl
@[simp] theorem State.writeCtrl_cv (v : Word) : (s.writeCtrl v).cv = s.cv := rfl
@[simp] theorem State.writeCtrl_cur (v : Word) : (s.writeCtrl v).cur = s.cur := rfl
@[simp] theorem State.writeCtrl_mem (v : Word) : (s.writeCtrl v).mem = s.mem := rfl
@[simp] theorem State.writeCtrl_platform (v : Word) : (s.writeCtrl v).platform = s.platform := rfl
@[simp] theorem State.writeCtrl_entropy (v : Word) : (s.writeCtrl v).entropy = s.entropy := rfl
@[simp] theorem State.writeCtrl_draws (v : Word) : (s.writeCtrl v).draws = s.draws := rfl
@[simp] theorem State.writeCtrl_frees (v : Word) : (s.writeCtrl v).frees = s.frees := rfl
@[simp] theorem State.writeCtrl_inputs (v : Word) : (s.writeCtrl v).inputs = s.inputs := rfl
@[simp] theorem State.writeCtrl_reply (v : Word) : (s.writeCtrl v).reply = s.reply := rfl
@[simp] theorem State.writeCtrl_unfenced (v : Word) : (s.writeCtrl v).unfenced = s.unfenced := rfl
@[simp] theorem State.writeCtrl_pending (v : Word) : (s.writeCtrl v).pending = s.pending := rfl
@[simp] theorem State.writeCtrl_results (v : Word) : (s.writeCtrl v).results = s.results := rfl

/-! ## writeStatus -/

@[simp] theorem State.writeStatus_ie (v : Word) : (s.writeStatus v).ie = s.ie := rfl
@[simp] theorem State.writeStatus_ivEnforce (v : Word) : (s.writeStatus v).ivEnforce = s.ivEnforce := rfl
@[simp] theorem State.writeStatus_done (v : Word) : (s.writeStatus v).done = (s.done && !v.getLsbD 1) := rfl
@[simp] theorem State.writeStatus_busyViol (v : Word) : (s.writeStatus v).busyViol = (s.busyViol && !v.getLsbD 4) := rfl
@[simp] theorem State.writeStatus_keyWr (v : Word) : (s.writeStatus v).keyWr = s.keyWr := rfl
@[simp] theorem State.writeStatus_ivFresh (v : Word) : (s.writeStatus v).ivFresh = s.ivFresh := rfl
@[simp] theorem State.writeStatus_errCode (v : Word) : (s.writeStatus v).errCode = s.errCode := rfl
@[simp] theorem State.writeStatus_srcAddr (v : Word) : (s.writeStatus v).srcAddr = s.srcAddr := rfl
@[simp] theorem State.writeStatus_dstAddr (v : Word) : (s.writeStatus v).dstAddr = s.dstAddr := rfl
@[simp] theorem State.writeStatus_len (v : Word) : (s.writeStatus v).len = s.len := rfl
@[simp] theorem State.writeStatus_outLen (v : Word) : (s.writeStatus v).outLen = s.outLen := rfl
@[simp] theorem State.writeStatus_padN (v : Word) : (s.writeStatus v).padN = s.padN := rfl
@[simp] theorem State.writeStatus_key (v : Word) : (s.writeStatus v).key = s.key := rfl
@[simp] theorem State.writeStatus_iv (v : Word) : (s.writeStatus v).iv = s.iv := rfl
@[simp] theorem State.writeStatus_cv (v : Word) : (s.writeStatus v).cv = s.cv := rfl
@[simp] theorem State.writeStatus_cur (v : Word) : (s.writeStatus v).cur = s.cur := rfl
@[simp] theorem State.writeStatus_mem (v : Word) : (s.writeStatus v).mem = s.mem := rfl
@[simp] theorem State.writeStatus_platform (v : Word) : (s.writeStatus v).platform = s.platform := rfl
@[simp] theorem State.writeStatus_entropy (v : Word) : (s.writeStatus v).entropy = s.entropy := rfl
@[simp] theorem State.writeStatus_draws (v : Word) : (s.writeStatus v).draws = s.draws := rfl
@[simp] theorem State.writeStatus_frees (v : Word) : (s.writeStatus v).frees = s.frees := rfl
@[simp] theorem State.writeStatus_inputs (v : Word) : (s.writeStatus v).inputs = s.inputs := rfl
@[simp] theorem State.writeStatus_reply (v : Word) : (s.writeStatus v).reply = s.reply := rfl
@[simp] theorem State.writeStatus_unfenced (v : Word) : (s.writeStatus v).unfenced = s.unfenced := rfl
@[simp] theorem State.writeStatus_pending (v : Word) : (s.writeStatus v).pending = s.pending := rfl
@[simp] theorem State.writeStatus_results (v : Word) : (s.writeStatus v).results = s.results := rfl

/-! ## writeKey -/

@[simp] theorem State.writeKey_ie (j : Fin 8) (v : Word) : (s.writeKey j v).ie = s.ie := rfl
@[simp] theorem State.writeKey_ivEnforce (j : Fin 8) (v : Word) : (s.writeKey j v).ivEnforce = s.ivEnforce := rfl
@[simp] theorem State.writeKey_done (j : Fin 8) (v : Word) : (s.writeKey j v).done = s.done := rfl
@[simp] theorem State.writeKey_busyViol (j : Fin 8) (v : Word) : (s.writeKey j v).busyViol = s.busyViol := rfl
@[simp] theorem State.writeKey_keyWr (j : Fin 8) (v : Word) : (s.writeKey j v).keyWr = s.keyWr ||| (1#8 <<< j.val) := rfl
@[simp] theorem State.writeKey_ivFresh (j : Fin 8) (v : Word) : (s.writeKey j v).ivFresh = s.ivFresh := rfl
@[simp] theorem State.writeKey_errCode (j : Fin 8) (v : Word) : (s.writeKey j v).errCode = s.errCode := rfl
@[simp] theorem State.writeKey_srcAddr (j : Fin 8) (v : Word) : (s.writeKey j v).srcAddr = s.srcAddr := rfl
@[simp] theorem State.writeKey_dstAddr (j : Fin 8) (v : Word) : (s.writeKey j v).dstAddr = s.dstAddr := rfl
@[simp] theorem State.writeKey_len (j : Fin 8) (v : Word) : (s.writeKey j v).len = s.len := rfl
@[simp] theorem State.writeKey_outLen (j : Fin 8) (v : Word) : (s.writeKey j v).outLen = s.outLen := rfl
@[simp] theorem State.writeKey_padN (j : Fin 8) (v : Word) : (s.writeKey j v).padN = s.padN := rfl
@[simp] theorem State.writeKey_key (j : Fin 8) (v : Word) : (s.writeKey j v).key = setKeyWord s.key j v := rfl
@[simp] theorem State.writeKey_iv (j : Fin 8) (v : Word) : (s.writeKey j v).iv = s.iv := rfl
@[simp] theorem State.writeKey_cv (j : Fin 8) (v : Word) : (s.writeKey j v).cv = s.cv := rfl
@[simp] theorem State.writeKey_cur (j : Fin 8) (v : Word) : (s.writeKey j v).cur = s.cur := rfl
@[simp] theorem State.writeKey_mem (j : Fin 8) (v : Word) : (s.writeKey j v).mem = s.mem := rfl
@[simp] theorem State.writeKey_platform (j : Fin 8) (v : Word) : (s.writeKey j v).platform = s.platform := rfl
@[simp] theorem State.writeKey_entropy (j : Fin 8) (v : Word) : (s.writeKey j v).entropy = s.entropy := rfl
@[simp] theorem State.writeKey_draws (j : Fin 8) (v : Word) : (s.writeKey j v).draws = s.draws := rfl
@[simp] theorem State.writeKey_frees (j : Fin 8) (v : Word) : (s.writeKey j v).frees = s.frees := rfl
@[simp] theorem State.writeKey_inputs (j : Fin 8) (v : Word) : (s.writeKey j v).inputs = s.inputs := rfl
@[simp] theorem State.writeKey_reply (j : Fin 8) (v : Word) : (s.writeKey j v).reply = s.reply := rfl
@[simp] theorem State.writeKey_unfenced (j : Fin 8) (v : Word) : (s.writeKey j v).unfenced = s.unfenced := rfl
@[simp] theorem State.writeKey_pending (j : Fin 8) (v : Word) : (s.writeKey j v).pending = s.pending := rfl
@[simp] theorem State.writeKey_results (j : Fin 8) (v : Word) : (s.writeKey j v).results = s.results := rfl

/-! ## writeIv -/

@[simp] theorem State.writeIv_ie (j : Fin 4) (v : Word) : (s.writeIv j v).ie = s.ie := rfl
@[simp] theorem State.writeIv_ivEnforce (j : Fin 4) (v : Word) : (s.writeIv j v).ivEnforce = s.ivEnforce := rfl
@[simp] theorem State.writeIv_done (j : Fin 4) (v : Word) : (s.writeIv j v).done = s.done := rfl
@[simp] theorem State.writeIv_busyViol (j : Fin 4) (v : Word) : (s.writeIv j v).busyViol = s.busyViol := rfl
@[simp] theorem State.writeIv_keyWr (j : Fin 4) (v : Word) : (s.writeIv j v).keyWr = s.keyWr := rfl
@[simp] theorem State.writeIv_ivFresh (j : Fin 4) (v : Word) : (s.writeIv j v).ivFresh = false := rfl
@[simp] theorem State.writeIv_errCode (j : Fin 4) (v : Word) : (s.writeIv j v).errCode = s.errCode := rfl
@[simp] theorem State.writeIv_srcAddr (j : Fin 4) (v : Word) : (s.writeIv j v).srcAddr = s.srcAddr := rfl
@[simp] theorem State.writeIv_dstAddr (j : Fin 4) (v : Word) : (s.writeIv j v).dstAddr = s.dstAddr := rfl
@[simp] theorem State.writeIv_len (j : Fin 4) (v : Word) : (s.writeIv j v).len = s.len := rfl
@[simp] theorem State.writeIv_outLen (j : Fin 4) (v : Word) : (s.writeIv j v).outLen = s.outLen := rfl
@[simp] theorem State.writeIv_padN (j : Fin 4) (v : Word) : (s.writeIv j v).padN = s.padN := rfl
@[simp] theorem State.writeIv_key (j : Fin 4) (v : Word) : (s.writeIv j v).key = s.key := rfl
@[simp] theorem State.writeIv_iv (j : Fin 4) (v : Word) : (s.writeIv j v).iv = setIvWord s.iv j v := rfl
@[simp] theorem State.writeIv_cv (j : Fin 4) (v : Word) : (s.writeIv j v).cv = s.cv := rfl
@[simp] theorem State.writeIv_cur (j : Fin 4) (v : Word) : (s.writeIv j v).cur = s.cur := rfl
@[simp] theorem State.writeIv_mem (j : Fin 4) (v : Word) : (s.writeIv j v).mem = s.mem := rfl
@[simp] theorem State.writeIv_platform (j : Fin 4) (v : Word) : (s.writeIv j v).platform = s.platform := rfl
@[simp] theorem State.writeIv_entropy (j : Fin 4) (v : Word) : (s.writeIv j v).entropy = s.entropy := rfl
@[simp] theorem State.writeIv_draws (j : Fin 4) (v : Word) : (s.writeIv j v).draws = s.draws := rfl
@[simp] theorem State.writeIv_frees (j : Fin 4) (v : Word) : (s.writeIv j v).frees = s.frees := rfl
@[simp] theorem State.writeIv_inputs (j : Fin 4) (v : Word) : (s.writeIv j v).inputs = s.inputs := rfl
@[simp] theorem State.writeIv_reply (j : Fin 4) (v : Word) : (s.writeIv j v).reply = s.reply := rfl
@[simp] theorem State.writeIv_unfenced (j : Fin 4) (v : Word) : (s.writeIv j v).unfenced = s.unfenced := rfl
@[simp] theorem State.writeIv_pending (j : Fin 4) (v : Word) : (s.writeIv j v).pending = s.pending := rfl
@[simp] theorem State.writeIv_results (j : Fin 4) (v : Word) : (s.writeIv j v).results = s.results := rfl

/-! ## observe -/

@[simp] theorem State.observe_ie (b : Bool) : (s.observe b).ie = s.ie := rfl
@[simp] theorem State.observe_ivEnforce (b : Bool) : (s.observe b).ivEnforce = s.ivEnforce := rfl
@[simp] theorem State.observe_done (b : Bool) : (s.observe b).done = s.done := rfl
@[simp] theorem State.observe_busyViol (b : Bool) : (s.observe b).busyViol = s.busyViol := rfl
@[simp] theorem State.observe_keyWr (b : Bool) : (s.observe b).keyWr = s.keyWr := rfl
@[simp] theorem State.observe_ivFresh (b : Bool) : (s.observe b).ivFresh = s.ivFresh := rfl
@[simp] theorem State.observe_errCode (b : Bool) : (s.observe b).errCode = s.errCode := rfl
@[simp] theorem State.observe_srcAddr (b : Bool) : (s.observe b).srcAddr = s.srcAddr := rfl
@[simp] theorem State.observe_dstAddr (b : Bool) : (s.observe b).dstAddr = s.dstAddr := rfl
@[simp] theorem State.observe_len (b : Bool) : (s.observe b).len = s.len := rfl
@[simp] theorem State.observe_outLen (b : Bool) : (s.observe b).outLen = s.outLen := rfl
@[simp] theorem State.observe_padN (b : Bool) : (s.observe b).padN = s.padN := rfl
@[simp] theorem State.observe_key (b : Bool) : (s.observe b).key = s.key := rfl
@[simp] theorem State.observe_iv (b : Bool) : (s.observe b).iv = s.iv := rfl
@[simp] theorem State.observe_cv (b : Bool) : (s.observe b).cv = s.cv := rfl
@[simp] theorem State.observe_cur (b : Bool) : (s.observe b).cur = s.cur := rfl
@[simp] theorem State.observe_mem (b : Bool) : (s.observe b).mem = s.mem := rfl
@[simp] theorem State.observe_platform (b : Bool) : (s.observe b).platform = s.platform := rfl
@[simp] theorem State.observe_entropy (b : Bool) : (s.observe b).entropy = s.entropy := rfl
@[simp] theorem State.observe_draws (b : Bool) : (s.observe b).draws = s.draws := rfl
@[simp] theorem State.observe_frees (b : Bool) : (s.observe b).frees = s.frees := rfl
@[simp] theorem State.observe_inputs (b : Bool) : (s.observe b).inputs = s.inputs := rfl
@[simp] theorem State.observe_reply (b : Bool) : (s.observe b).reply = s.reply := rfl
@[simp] theorem State.observe_unfenced (b : Bool) : (s.observe b).unfenced = s.unfenced := rfl
@[simp] theorem State.observe_pending (b : Bool) : (s.observe b).pending = if b then [] else s.pending := rfl
@[simp] theorem State.observe_results (b : Bool) : (s.observe b).results = if b then s.pending.map (·.dst) ++ s.results else s.results := rfl

/-! ## readIv -/

@[simp] theorem State.readIv_ie (j : Fin 4) : (s.readIv j).ie = s.ie := rfl
@[simp] theorem State.readIv_ivEnforce (j : Fin 4) : (s.readIv j).ivEnforce = s.ivEnforce := rfl
@[simp] theorem State.readIv_done (j : Fin 4) : (s.readIv j).done = s.done := rfl
@[simp] theorem State.readIv_busyViol (j : Fin 4) : (s.readIv j).busyViol = s.busyViol := rfl
@[simp] theorem State.readIv_keyWr (j : Fin 4) : (s.readIv j).keyWr = s.keyWr := rfl
@[simp] theorem State.readIv_ivFresh (j : Fin 4) : (s.readIv j).ivFresh = s.ivFresh := rfl
@[simp] theorem State.readIv_errCode (j : Fin 4) : (s.readIv j).errCode = s.errCode := rfl
@[simp] theorem State.readIv_srcAddr (j : Fin 4) : (s.readIv j).srcAddr = s.srcAddr := rfl
@[simp] theorem State.readIv_dstAddr (j : Fin 4) : (s.readIv j).dstAddr = s.dstAddr := rfl
@[simp] theorem State.readIv_len (j : Fin 4) : (s.readIv j).len = s.len := rfl
@[simp] theorem State.readIv_outLen (j : Fin 4) : (s.readIv j).outLen = s.outLen := rfl
@[simp] theorem State.readIv_padN (j : Fin 4) : (s.readIv j).padN = s.padN := rfl
@[simp] theorem State.readIv_key (j : Fin 4) : (s.readIv j).key = s.key := rfl
@[simp] theorem State.readIv_iv (j : Fin 4) : (s.readIv j).iv = s.iv := rfl
@[simp] theorem State.readIv_cv (j : Fin 4) : (s.readIv j).cv = s.cv := rfl
@[simp] theorem State.readIv_cur (j : Fin 4) : (s.readIv j).cur = s.cur := rfl
@[simp] theorem State.readIv_mem (j : Fin 4) : (s.readIv j).mem = s.mem := rfl
@[simp] theorem State.readIv_platform (j : Fin 4) : (s.readIv j).platform = s.platform := rfl
@[simp] theorem State.readIv_entropy (j : Fin 4) : (s.readIv j).entropy = s.entropy := rfl
@[simp] theorem State.readIv_draws (j : Fin 4) : (s.readIv j).draws = s.draws := rfl
@[simp] theorem State.readIv_frees (j : Fin 4) : (s.readIv j).frees = if s.ivInFlight then s.frees + 1 else s.frees := rfl
@[simp] theorem State.readIv_inputs (j : Fin 4) : (s.readIv j).inputs = s.inputs := rfl
@[simp] theorem State.readIv_reply (j : Fin 4) : (s.readIv j).reply = .data (ivWord s.visibleIv j) := rfl
@[simp] theorem State.readIv_unfenced (j : Fin 4) : (s.readIv j).unfenced = s.unfenced := rfl
@[simp] theorem State.readIv_pending (j : Fin 4) : (s.readIv j).pending = s.pending := rfl
@[simp] theorem State.readIv_results (j : Fin 4) : (s.readIv j).results = s.results := rfl

/-! ## readStatus -/

@[simp] theorem State.readStatus_ie : (s.readStatus).ie = s.ie := rfl
@[simp] theorem State.readStatus_ivEnforce : (s.readStatus).ivEnforce = s.ivEnforce := rfl
@[simp] theorem State.readStatus_done : (s.readStatus).done = s.done := rfl
@[simp] theorem State.readStatus_busyViol : (s.readStatus).busyViol = s.busyViol := rfl
@[simp] theorem State.readStatus_keyWr : (s.readStatus).keyWr = s.keyWr := rfl
@[simp] theorem State.readStatus_ivFresh : (s.readStatus).ivFresh = s.ivFresh := rfl
@[simp] theorem State.readStatus_errCode : (s.readStatus).errCode = s.errCode := rfl
@[simp] theorem State.readStatus_srcAddr : (s.readStatus).srcAddr = s.srcAddr := rfl
@[simp] theorem State.readStatus_dstAddr : (s.readStatus).dstAddr = s.dstAddr := rfl
@[simp] theorem State.readStatus_len : (s.readStatus).len = s.len := rfl
@[simp] theorem State.readStatus_outLen : (s.readStatus).outLen = s.outLen := rfl
@[simp] theorem State.readStatus_padN : (s.readStatus).padN = s.padN := rfl
@[simp] theorem State.readStatus_key : (s.readStatus).key = s.key := rfl
@[simp] theorem State.readStatus_iv : (s.readStatus).iv = s.iv := rfl
@[simp] theorem State.readStatus_cv : (s.readStatus).cv = s.cv := rfl
@[simp] theorem State.readStatus_cur : (s.readStatus).cur = s.cur := rfl
@[simp] theorem State.readStatus_mem : (s.readStatus).mem = s.mem := rfl
@[simp] theorem State.readStatus_platform : (s.readStatus).platform = s.platform := rfl
@[simp] theorem State.readStatus_entropy : (s.readStatus).entropy = s.entropy := rfl
@[simp] theorem State.readStatus_draws : (s.readStatus).draws = s.draws := rfl
@[simp] theorem State.readStatus_frees : (s.readStatus).frees = s.frees := rfl
@[simp] theorem State.readStatus_inputs : (s.readStatus).inputs = s.inputs := rfl
@[simp] theorem State.readStatus_reply : (s.readStatus).reply = .data s.statusWord := rfl
@[simp] theorem State.readStatus_unfenced : (s.readStatus).unfenced = s.unfenced := rfl
@[simp] theorem State.readStatus_pending : (s.readStatus).pending = if !s.busy then [] else s.pending := rfl
@[simp] theorem State.readStatus_results : (s.readStatus).results = if !s.busy then s.pending.map (·.dst) ++ s.results else s.results := rfl

/-! ## senseIrq -/

@[simp] theorem State.senseIrq_ie : (s.senseIrq).ie = s.ie := rfl
@[simp] theorem State.senseIrq_ivEnforce : (s.senseIrq).ivEnforce = s.ivEnforce := rfl
@[simp] theorem State.senseIrq_done : (s.senseIrq).done = s.done := rfl
@[simp] theorem State.senseIrq_busyViol : (s.senseIrq).busyViol = s.busyViol := rfl
@[simp] theorem State.senseIrq_keyWr : (s.senseIrq).keyWr = s.keyWr := rfl
@[simp] theorem State.senseIrq_ivFresh : (s.senseIrq).ivFresh = s.ivFresh := rfl
@[simp] theorem State.senseIrq_errCode : (s.senseIrq).errCode = s.errCode := rfl
@[simp] theorem State.senseIrq_srcAddr : (s.senseIrq).srcAddr = s.srcAddr := rfl
@[simp] theorem State.senseIrq_dstAddr : (s.senseIrq).dstAddr = s.dstAddr := rfl
@[simp] theorem State.senseIrq_len : (s.senseIrq).len = s.len := rfl
@[simp] theorem State.senseIrq_outLen : (s.senseIrq).outLen = s.outLen := rfl
@[simp] theorem State.senseIrq_padN : (s.senseIrq).padN = s.padN := rfl
@[simp] theorem State.senseIrq_key : (s.senseIrq).key = s.key := rfl
@[simp] theorem State.senseIrq_iv : (s.senseIrq).iv = s.iv := rfl
@[simp] theorem State.senseIrq_cv : (s.senseIrq).cv = s.cv := rfl
@[simp] theorem State.senseIrq_cur : (s.senseIrq).cur = s.cur := rfl
@[simp] theorem State.senseIrq_mem : (s.senseIrq).mem = s.mem := rfl
@[simp] theorem State.senseIrq_platform : (s.senseIrq).platform = s.platform := rfl
@[simp] theorem State.senseIrq_entropy : (s.senseIrq).entropy = s.entropy := rfl
@[simp] theorem State.senseIrq_draws : (s.senseIrq).draws = s.draws := rfl
@[simp] theorem State.senseIrq_frees : (s.senseIrq).frees = s.frees := rfl
@[simp] theorem State.senseIrq_inputs : (s.senseIrq).inputs = s.inputs := rfl
@[simp] theorem State.senseIrq_reply : (s.senseIrq).reply = .irq s.irq := rfl
@[simp] theorem State.senseIrq_unfenced : (s.senseIrq).unfenced = s.unfenced := rfl
@[simp] theorem State.senseIrq_pending : (s.senseIrq).pending = if s.irq then [] else s.pending := rfl
@[simp] theorem State.senseIrq_results : (s.senseIrq).results = if s.irq then s.pending.map (·.dst) ++ s.results else s.results := rfl

/-! ## fence -/

@[simp] theorem State.fence_ie : (s.fence).ie = s.ie := rfl
@[simp] theorem State.fence_ivEnforce : (s.fence).ivEnforce = s.ivEnforce := rfl
@[simp] theorem State.fence_done : (s.fence).done = s.done := rfl
@[simp] theorem State.fence_busyViol : (s.fence).busyViol = s.busyViol := rfl
@[simp] theorem State.fence_keyWr : (s.fence).keyWr = s.keyWr := rfl
@[simp] theorem State.fence_ivFresh : (s.fence).ivFresh = s.ivFresh := rfl
@[simp] theorem State.fence_errCode : (s.fence).errCode = s.errCode := rfl
@[simp] theorem State.fence_srcAddr : (s.fence).srcAddr = s.srcAddr := rfl
@[simp] theorem State.fence_dstAddr : (s.fence).dstAddr = s.dstAddr := rfl
@[simp] theorem State.fence_len : (s.fence).len = s.len := rfl
@[simp] theorem State.fence_outLen : (s.fence).outLen = s.outLen := rfl
@[simp] theorem State.fence_padN : (s.fence).padN = s.padN := rfl
@[simp] theorem State.fence_key : (s.fence).key = s.key := rfl
@[simp] theorem State.fence_iv : (s.fence).iv = s.iv := rfl
@[simp] theorem State.fence_cv : (s.fence).cv = s.cv := rfl
@[simp] theorem State.fence_cur : (s.fence).cur = s.cur := rfl
@[simp] theorem State.fence_mem : (s.fence).mem = s.mem := rfl
@[simp] theorem State.fence_platform : (s.fence).platform = s.platform := rfl
@[simp] theorem State.fence_entropy : (s.fence).entropy = s.entropy := rfl
@[simp] theorem State.fence_draws : (s.fence).draws = s.draws := rfl
@[simp] theorem State.fence_frees : (s.fence).frees = s.frees := rfl
@[simp] theorem State.fence_inputs : (s.fence).inputs = s.inputs := rfl
@[simp] theorem State.fence_reply : (s.fence).reply = s.reply := rfl
@[simp] theorem State.fence_unfenced : (s.fence).unfenced = [] := rfl
@[simp] theorem State.fence_pending : (s.fence).pending = s.pending := rfl
@[simp] theorem State.fence_results : (s.fence).results = [] := rfl

/-! ## resetEngine -/

@[simp] theorem State.resetEngine_ie : (s.resetEngine).ie = false := rfl
@[simp] theorem State.resetEngine_ivEnforce : (s.resetEngine).ivEnforce = true := rfl
@[simp] theorem State.resetEngine_done : (s.resetEngine).done = false := rfl
@[simp] theorem State.resetEngine_busyViol : (s.resetEngine).busyViol = false := rfl
@[simp] theorem State.resetEngine_keyWr : (s.resetEngine).keyWr = 0 := rfl
@[simp] theorem State.resetEngine_ivFresh : (s.resetEngine).ivFresh = false := rfl
@[simp] theorem State.resetEngine_errCode : (s.resetEngine).errCode = 0 := rfl
@[simp] theorem State.resetEngine_srcAddr : (s.resetEngine).srcAddr = 0 := rfl
@[simp] theorem State.resetEngine_dstAddr : (s.resetEngine).dstAddr = 0 := rfl
@[simp] theorem State.resetEngine_len : (s.resetEngine).len = 0 := rfl
@[simp] theorem State.resetEngine_outLen : (s.resetEngine).outLen = 0 := rfl
@[simp] theorem State.resetEngine_padN : (s.resetEngine).padN = 0 := rfl
@[simp] theorem State.resetEngine_key : (s.resetEngine).key = KeyRegs.zero := rfl
@[simp] theorem State.resetEngine_iv : (s.resetEngine).iv = IvRegs.zero := rfl
@[simp] theorem State.resetEngine_cv : (s.resetEngine).cv = 0 := rfl
@[simp] theorem State.resetEngine_cur : (s.resetEngine).cur = none := rfl
@[simp] theorem State.resetEngine_platform : (s.resetEngine).platform = s.platform := rfl
@[simp] theorem State.resetEngine_entropy : (s.resetEngine).entropy = s.entropy := rfl
@[simp] theorem State.resetEngine_draws : (s.resetEngine).draws = s.draws := rfl
@[simp] theorem State.resetEngine_frees : (s.resetEngine).frees = if s.runningBuffers.isSome then s.frees + 1 else s.frees := rfl
@[simp] theorem State.resetEngine_inputs : (s.resetEngine).inputs = s.inputs := rfl
@[simp] theorem State.resetEngine_reply : (s.resetEngine).reply = .none := rfl
@[simp] theorem State.resetEngine_unfenced : (s.resetEngine).unfenced = s.unfenced := rfl
@[simp] theorem State.resetEngine_pending : (s.resetEngine).pending = s.pending := rfl
@[simp] theorem State.resetEngine_results : (s.resetEngine).results = s.results := rfl

/-! ## What the computed flags depend on -/

@[simp] theorem State.withInputs_busy (l : List Input) : (s.withInputs l).busy = s.busy := rfl
@[simp] theorem State.withInputs_keyValid (l : List Input) : (s.withInputs l).keyValid = s.keyValid := rfl
@[simp] theorem State.withInputs_irq (l : List Input) : (s.withInputs l).irq = s.irq := rfl
@[simp] theorem State.withInputs_ctrlWord (l : List Input) : (s.withInputs l).ctrlWord = s.ctrlWord := rfl
@[simp] theorem State.withInputs_statusWord (l : List Input) : (s.withInputs l).statusWord = s.statusWord := rfl
@[simp] theorem State.withInputs_runningBuffers (l : List Input) : (s.withInputs l).runningBuffers = s.runningBuffers := rfl
@[simp] theorem State.withInputs_nextDraw (l : List Input) : (s.withInputs l).nextDraw = s.nextDraw := rfl
@[simp] theorem State.withInputs_operands (l : List Input) (i : Instr) : (s.withInputs l).operands i = s.operands i := rfl
@[simp] theorem State.withReply_busy (r : Reply) : (s.withReply r).busy = s.busy := rfl
@[simp] theorem State.withReply_keyValid (r : Reply) : (s.withReply r).keyValid = s.keyValid := rfl
@[simp] theorem State.withReply_irq (r : Reply) : (s.withReply r).irq = s.irq := rfl
@[simp] theorem State.withReply_ctrlWord (r : Reply) : (s.withReply r).ctrlWord = s.ctrlWord := rfl
@[simp] theorem State.withReply_statusWord (r : Reply) : (s.withReply r).statusWord = s.statusWord := rfl
@[simp] theorem State.withReply_runningBuffers (r : Reply) : (s.withReply r).runningBuffers = s.runningBuffers := rfl
@[simp] theorem State.withReply_nextDraw (r : Reply) : (s.withReply r).nextDraw = s.nextDraw := rfl
@[simp] theorem State.withReply_operands (r : Reply) (i : Instr) : (s.withReply r).operands i = s.operands i := rfl
@[simp] theorem State.withPending_busy (p : List Buffers) : (s.withPending p).busy = s.busy := rfl
@[simp] theorem State.withPending_keyValid (p : List Buffers) : (s.withPending p).keyValid = s.keyValid := rfl
@[simp] theorem State.withPending_irq (p : List Buffers) : (s.withPending p).irq = s.irq := rfl
@[simp] theorem State.withPending_ctrlWord (p : List Buffers) : (s.withPending p).ctrlWord = s.ctrlWord := rfl
@[simp] theorem State.withPending_statusWord (p : List Buffers) : (s.withPending p).statusWord = s.statusWord := rfl
@[simp] theorem State.withPending_runningBuffers (p : List Buffers) : (s.withPending p).runningBuffers = s.runningBuffers := rfl
@[simp] theorem State.withPending_nextDraw (p : List Buffers) : (s.withPending p).nextDraw = s.nextDraw := rfl
@[simp] theorem State.withPending_operands (p : List Buffers) (i : Instr) : (s.withPending p).operands i = s.operands i := rfl

end Sys2Proof.Machine
end

