-- ==== Sys2Proof/Laws/Commands.lean ====
section
/-! SUPPORT. What the operations the commands share can do, each said once, and from them the one inversion lemma of
`exec`: whatever command completes, `Ran` says what it may have changed before `finish`. -/

namespace Sys2Proof.Machine

/-! ## The checks -/

theorem firstError_cons (b : Bool) (e : Error) (l : List (Bool × Error)) :
    firstError ((b, e) :: l) = if b then some e else firstError l := rfl

/-- No check failed exactly when every one of them passed. -/
theorem firstError_eq_none (l : List (Bool × Error)) : firstError l = none ↔ ∀ p ∈ l, p.1 = false := by
  induction l with
  | nil => simp [firstError]
  | cons p l ih =>
    obtain ⟨b, e⟩ := p
    cases b <;> simp [firstError, ih]

/-- A reported check is one of the list that failed. -/
theorem firstError_eq_some {l : List (Bool × Error)} {e : Error} (h : firstError l = some e) : (true, e) ∈ l := by
  induction l with
  | nil => cases h
  | cons p l ih =>
    obtain ⟨b, e'⟩ := p
    cases b
    · exact List.mem_cons_of_mem _ (ih (by simpa [firstError] using h))
    · simp [firstError] at h; simp [h]

/-- The three ways a memory command can go. -/
theorem memoryCommand_cases (op : Instr) (s : State) (checks : Latched → List (Bool × Error)) (body : Latched → State) :
    (s.memoryCommand op checks body = .fault .sideEffectMemory ∧
      (buffersOf op (s.operands op)).any (touchesSideEffects s.platform) = true) ∨
    (∃ e, firstError (checks (s.operands op)) = some e ∧ s.memoryCommand op checks body = .next (s.raise op e)) ∨
    (firstError (checks (s.operands op)) = none ∧
      s.memoryCommand op checks body = .next (body (s.operands op))) := by
  unfold State.memoryCommand
  by_cases hb : (buffersOf op (s.operands op)).any (touchesSideEffects s.platform) = true
  · simp [hb]
  · cases hf : firstError (checks (s.operands op)) <;> simp [hb, hf]

/-- A memory command over ordinary memory whose checks pass runs its memory phase. -/
theorem memoryCommand_runs {op : Instr} {s : State} {checks : Latched → List (Bool × Error)} {body : Latched → State}
    (ho : (buffersOf op (s.operands op)).any (touchesSideEffects s.platform) = false)
    (hc : firstError (checks (s.operands op)) = none) :
    s.memoryCommand op checks body = .next (body (s.operands op)) := by
  simp [State.memoryCommand, ho, hc]

/-- A memory command over ordinary memory reports its first failing check. -/
theorem memoryCommand_raises {op : Instr} {s : State} {checks : Latched → List (Bool × Error)} {body : Latched → State}
    {e : Error} (ho : (buffersOf op (s.operands op)).any (touchesSideEffects s.platform) = false)
    (hc : firstError (checks (s.operands op)) = some e) :
    s.memoryCommand op checks body = .next (s.raise op e) := by
  simp [State.memoryCommand, ho, hc]

/-- The range rule passed (R68). -/
theorem range_of_not_fails {op : Instr} {c : Latched} (h : rangeFails op c = false) :
    c.src.toNat + c.len.toNat ≤ Config.memorySize ∧ c.dst.toNat + maxout op c.len.toNat ≤ Config.memorySize := by
  simpa [rangeFails] using h

/-- LEN is a positive multiple of 16. -/
theorem aligned_of_not_misaligned {c : Latched} (h : misaligned c = false) :
    0 < c.len.toNat ∧ c.len.toNat % 16 = 0 := by
  simp only [misaligned, Bool.or_eq_false_iff, decide_eq_false_iff_not, not_not] at h
  exact ⟨by omega, h.2⟩

@[simp] theorem source_length (s : State) (c : Latched) : (s.source c).length = c.len.toNat := by simp [State.source]

/-! ## What a command may change before its completion -/

/-- `u` is `s` with what a command `op` on operands `c` may have changed before `finish op code o n`. -/
structure Ran (op : Instr) (c : Latched) (s u : State) (code : BitVec 4) (o n : Nat) : Prop where
  ie : u.ie = s.ie
  ivEnforce : u.ivEnforce = s.ivEnforce
  busyViol : u.busyViol = s.busyViol
  srcAddr : u.srcAddr = s.srcAddr
  dstAddr : u.dstAddr = s.dstAddr
  len : u.len = s.len
  platform : u.platform = s.platform
  inputs : u.inputs = s.inputs
  reply : u.reply = s.reply
  unfenced : u.unfenced = s.unfenced
  pending : u.pending = s.pending
  results : u.results = s.results
  /-- Only CLEAR writes the key before completion (R122, R210). -/
  key : (u.key = s.key ∧ u.keyWr = s.keyWr) ∨ (op = .clear ∧ u.key = KeyRegs.zero ∧ u.keyWr = 0)
  /-- Only GENIV, ENCRYPT_MSG and CLEAR write the IV (R29). -/
  iv : u.iv = s.iv ∨ op = .geniv ∨ op = .encryptMsg ∨ op = .clear
  /-- IV_FRESH is set only by GENIV, and cleared only by ENCRYPT, ENCRYPT_MSG and CLEAR (R30). -/
  ivFresh : u.ivFresh = s.ivFresh ∨
    (op = .geniv ∧ u.ivFresh = true ∧ ∃ b, s.nextDraw = some b ∧ u.iv = ivOfBlock b) ∨
    ((op = .encrypt ∨ op = .encryptMsg ∨ op = .clear) ∧ u.ivFresh = false)
  /-- No byte outside the maximal destination range changes (R67). -/
  outside : ∀ x, x < c.dst.toNat ∨ c.dst.toNat + maxout op c.len.toNat ≤ x →
    Memory.read u.mem x = Memory.read s.mem x
  memory : Memory.wf s.mem = true → Memory.wf u.mem = true
  /-- No byte changes on an error other than BUS_ERR (R67, R121). -/
  errorMemory : code ≠ 0#4 → code ≠ 9#4 → u.mem = s.mem
  codeLe : code ≤ 9#4
  count : n ≤ 16
  noResults : code ≠ 0#4 → o = 0 ∧ n = 0

/-- A command that completes after changing nothing but the entropy and the counters. -/
theorem Ran.unchanged {op : Instr} {c : Latched} {s u : State} {code : BitVec 4} {o n : Nat}
    (h : u = { s with entropy := u.entropy, draws := u.draws, frees := u.frees }) (hcode : code ≤ 9#4) (hn : n ≤ 16)
    (hr : code ≠ 0#4 → o = 0 ∧ n = 0) : Ran op c s u code o n := by
  rw [h]
  exact { ie := rfl, ivEnforce := rfl, busyViol := rfl, srcAddr := rfl, dstAddr := rfl, len := rfl, platform := rfl,
          inputs := rfl, reply := rfl, unfenced := rfl, pending := rfl, results := rfl, key := .inl ⟨rfl, rfl⟩,
          iv := .inl rfl, ivFresh := .inl rfl, outside := fun _ _ => rfl, memory := id, errorMemory := fun _ _ => rfl,
          codeLe := hcode, count := hn, noResults := hr }

theorem errorCode_le (e : Error) : errorCode e ≤ 9#4 := by cases e <;> decide

/-- An error raised before anything changed. -/
theorem Ran.raised {op : Instr} {c : Latched} {s : State} (e : Error) : Ran op c s s (errorCode e) 0 0 :=
  .unchanged rfl (errorCode_le e) (by omega) fun _ => ⟨rfl, rfl⟩

/-- What `writeOut` does: it writes `out` and completes, or ends in BUS_ERR (R74, R120). -/
theorem writeOut_cases (op : Instr) (c : Latched) (out : List Byte) (n : Nat) (s : State) :
    (s.accessible c out.length = true ∧
      s.writeOut op c out n = (s.store c.dst.toNat out).finish op 0#4 out.length n) ∨
    (s.accessible c out.length = false ∧
      s.writeOut op c out n = (s.scramble c.dst.toNat (maxout op c.len.toNat)).finish op 9#4 0 0) := by
  by_cases h : s.accessible c out.length = true
  · exact .inl ⟨h, by simp [State.writeOut, h]⟩
  · exact .inr ⟨by simpa using h, by simp [State.writeOut, h, State.busError, errorCode]⟩

/-- `writeOut` changes memory alone, inside the maximal destination range. -/
theorem writeOut_ran {op : Instr} {c : Latched} {out : List Byte} {n : Nat} {s : State}
    (hr : c.dst.toNat + maxout op c.len.toNat ≤ Config.memorySize) (ho : out.length ≤ maxout op c.len.toNat)
    (hn : n ≤ 16) :
    ∃ u code o k, s.writeOut op c out n = u.finish op code o k ∧ Ran op c s u code o k ∧ u.ivFresh = s.ivFresh ∧
      u.iv = s.iv := by
  rcases writeOut_cases op c out n s with ⟨_, h⟩ | ⟨_, h⟩
  · refine ⟨_, _, _, _, h, ?_, rfl, rfl⟩
    exact { ie := rfl, ivEnforce := rfl, busyViol := rfl, srcAddr := rfl, dstAddr := rfl, len := rfl, platform := rfl,
            inputs := rfl, reply := rfl, unfenced := rfl, pending := rfl, results := rfl, key := .inl ⟨rfl, rfl⟩,
            iv := .inl rfl, ivFresh := .inl rfl, codeLe := by decide, count := hn, noResults := fun h => absurd rfl h
            errorMemory := fun h => absurd rfl h
            memory := Memory.wf_writeBytes (by omega)
            outside := fun x hx => by
              simp only [State.store_mem, Memory.read_writeBytes]
              rw [if_neg (by omega)] }
  · refine ⟨_, _, _, _, h, ?_, rfl, rfl⟩
    exact { ie := rfl, ivEnforce := rfl, busyViol := rfl, srcAddr := rfl, dstAddr := rfl, len := rfl, platform := rfl,
            inputs := rfl, reply := rfl, unfenced := rfl, pending := rfl, results := rfl, key := .inl ⟨rfl, rfl⟩,
            iv := .inl rfl, ivFresh := .inl rfl, codeLe := by decide, count := by omega, noResults := fun _ => ⟨rfl, rfl⟩
            errorMemory := fun _ h => absurd rfl h
            memory := State.scramble_mem_wf _ _
            outside := fun x hx => State.scramble_read_outside hx }

/-- What `writeUnpadded` does (R154, R191, R244). -/
theorem writeUnpadded_cases (op : Instr) (c : Latched) (r : Option (List Byte × Nat)) (s : State) :
    (∃ p n, r = some (p, n) ∧ s.writeUnpadded op c r = s.writeOut op c p n) ∨
    (r = none ∧ s.sourceAdmitted c = true ∧ s.writeUnpadded op c r = s.finish op 5#4 0 0) ∨
    (r = none ∧ s.sourceAdmitted c = false ∧
      (s.writeUnpadded op c r = State.finish op 5#4 0 0 { s with frees := s.frees + 1 } ∨
        s.writeUnpadded op c r = (s.scramble c.dst.toNat (maxout op c.len.toNat)).finish op 9#4 0 0)) := by
  match r with
  | some (p, n) => exact .inl ⟨p, n, rfl, rfl⟩
  | none =>
    by_cases h : s.sourceAdmitted c = true
    · exact .inr (.inl ⟨rfl, h, by simp [State.writeUnpadded, h, errorCode]⟩)
    · refine .inr (.inr ⟨rfl, by simpa using h, ?_⟩)
      by_cases hb : Config.freeBit s.frees = true
      · exact .inr (by simp [State.writeUnpadded, h, State.paddingOrBusError, hb, State.busError, errorCode])
      · exact .inl (by simp [State.writeUnpadded, h, State.paddingOrBusError, hb, errorCode])

theorem writeUnpadded_ran {op : Instr} {c : Latched} {d : List Byte} {s : State}
    (hr : c.dst.toNat + maxout op c.len.toNat ≤ Config.memorySize) (ho : d.length ≤ maxout op c.len.toNat) :
    ∃ u code o k, s.writeUnpadded op c (unpadBytes d) = u.finish op code o k ∧ Ran op c s u code o k := by
  rcases writeUnpadded_cases op c (unpadBytes d) s with ⟨p, n, hd, h⟩ | ⟨_, _, h⟩ | ⟨_, _, h | h⟩
  · obtain ⟨_, h16, _, _, _, hl, _⟩ := unpadBytes_some hd
    rw [h]
    obtain ⟨u, code, o, k, h1, h2, _, _⟩ := writeOut_ran (s := s) hr (by omega : p.length ≤ _) h16
    exact ⟨u, code, o, k, h1, h2⟩
  · exact ⟨_, _, _, _, h, .unchanged rfl (by decide) (by omega) fun _ => ⟨rfl, rfl⟩⟩
  · exact ⟨_, _, _, _, h, .unchanged rfl (by decide) (by omega) fun _ => ⟨rfl, rfl⟩⟩
  · refine ⟨_, _, _, _, h, ?_⟩
    exact { ie := rfl, ivEnforce := rfl, busyViol := rfl, srcAddr := rfl, dstAddr := rfl, len := rfl, platform := rfl,
            inputs := rfl, reply := rfl, unfenced := rfl, pending := rfl, results := rfl, key := .inl ⟨rfl, rfl⟩,
            iv := .inl rfl, ivFresh := .inl rfl, codeLe := by decide, count := by omega, noResults := fun _ => ⟨rfl, rfl⟩
            errorMemory := fun _ h => absurd rfl h
            memory := State.scramble_mem_wf _ _
            outside := fun x hx => State.scramble_read_outside hx }

/-- `Ran` of a state that differs from `s` only in the entropy answers, the IV and IV_FRESH, for a command that may
write them. -/
theorem Ran.of_ivChange {op : Instr} {c : Latched} {s v u : State} {code : BitVec 4} {o n : Nat}
    (hv : v = { s with entropy := v.entropy, draws := v.draws, iv := v.iv, ivFresh := v.ivFresh })
    (h : Ran op c v u code o n) (hu : u.ivFresh = v.ivFresh) (hi : u.iv = v.iv) (hop : op = .encrypt ∨ op = .encryptMsg)
    (hf : v.ivFresh = false) (hiv : v.iv = s.iv ∨ op = .encryptMsg) : Ran op c s u code o n := by
  rw [hv] at h
  exact { ie := h.ie, ivEnforce := h.ivEnforce, busyViol := h.busyViol, srcAddr := h.srcAddr, dstAddr := h.dstAddr,
          len := h.len, platform := h.platform, inputs := h.inputs, reply := h.reply, unfenced := h.unfenced,
          pending := h.pending, results := h.results, key := h.key
          iv := by
            rcases hiv with h1 | h1
            · exact .inl (hi.trans h1)
            · exact .inr (.inr (.inl h1))
          ivFresh := .inr (.inr ⟨by rcases hop with h1 | h1 <;> simp [h1], hu.trans hf⟩)
          outside := h.outside, memory := h.memory, errorMemory := h.errorMemory, codeLe := h.codeLe, count := h.count
          noResults := h.noResults }

/-- The inversion of a memory command: `Ran`, once its memory phase is known to be. -/
theorem memoryCommand_ran {op : Instr} {s t : State} {checks : Latched → List (Bool × Error)} {body : Latched → State}
    (h : s.memoryCommand op checks body = .next t)
    (hb : firstError (checks (s.operands op)) = none →
      ∃ u code o n, body (s.operands op) = u.finish op code o n ∧ Ran op (s.operands op) s u code o n) :
    ∃ u code o n, t = u.finish op code o n ∧ Ran op (s.operands op) s u code o n := by
  rcases memoryCommand_cases op s checks body with ⟨h1, _⟩ | ⟨e, _, h1⟩ | ⟨h2, h1⟩
  · rw [h1] at h; cases h
  · rw [h1] at h; cases h
    exact ⟨s, _, _, _, rfl, .raised e⟩
  · rw [h1] at h; cases h
    exact hb h2

/-- The inversion of `exec`: a command that completes has run as `Ran` says and then finished (R120 to R123). -/
theorem exec_ran {i : Instr} {s t : State} (h : exec i s = .next t) :
    ∃ u code o n, t = u.finish i code o n ∧ Ran i (s.operands i) s u code o n := by
  cases i with
  | geniv =>
    simp only [exec, execGeniv] at h
    cases hd : s.nextDraw with
    | none =>
      rw [hd] at h; cases h
      exact ⟨_, _, _, _, rfl, .unchanged rfl (errorCode_le _) (by omega) fun _ => ⟨rfl, rfl⟩⟩
    | some b =>
      rw [hd] at h; cases h
      exact ⟨_, _, _, _, rfl,
        { ie := rfl, ivEnforce := rfl, busyViol := rfl, srcAddr := rfl, dstAddr := rfl, len := rfl, platform := rfl,
          inputs := rfl, reply := rfl, unfenced := rfl, pending := rfl, results := rfl, key := .inl ⟨rfl, rfl⟩,
          iv := .inr (.inl rfl), ivFresh := .inr (.inl ⟨rfl, rfl, b, hd, rfl⟩), outside := fun _ _ => rfl, memory := id,
          errorMemory := fun _ _ => rfl, codeLe := by decide, count := by omega, noResults := fun h => absurd rfl h }⟩
  | pad =>
    simp only [exec, execPad] at h
    refine memoryCommand_ran h fun hc => ?_
    simp only [firstError_eq_none, List.mem_cons, List.not_mem_nil, or_false, forall_eq_or_imp, forall_eq] at hc
    obtain ⟨u, code, o, n, h1, h2, _⟩ := writeOut_ran (s := s) (range_of_not_fails hc.1).2
      (by simp [maxout] : (padBytes (s.source (s.operands .pad))).length ≤ _) (padlen_le (s.operands .pad).len.toNat)
    exact ⟨u, code, o, n, h1, h2⟩
  | unpad =>
    simp only [exec, execUnpad] at h
    refine memoryCommand_ran h fun hc => ?_
    simp only [firstError_eq_none, List.mem_cons, List.not_mem_nil, or_false, forall_eq_or_imp, forall_eq] at hc
    exact writeUnpadded_ran (range_of_not_fails hc.2.1).2 (by simp [maxout])
  | encrypt =>
    simp only [exec, execEncrypt] at h
    refine memoryCommand_ran h fun hc => ?_
    simp only [firstError_eq_none, List.mem_cons, List.not_mem_nil, or_false, forall_eq_or_imp, forall_eq] at hc
    obtain ⟨u, code, o, n, h1, h2, h3, h4⟩ := writeOut_ran (s := s.useIv)
      (n := 0) (range_of_not_fails hc.2.2.2.1).2
      (by simp [maxout]; omega :
        (cbcEnc (s.operands .encrypt).key (s.operands .encrypt).iv (s.source (s.operands .encrypt))).length ≤ _) (by omega)
    exact ⟨u, code, o, n, h1, h2.of_ivChange rfl h3 h4 (.inl rfl) rfl (.inl rfl)⟩
  | decrypt =>
    simp only [exec, execDecrypt] at h
    refine memoryCommand_ran h fun hc => ?_
    simp only [firstError_eq_none, List.mem_cons, List.not_mem_nil, or_false, forall_eq_or_imp, forall_eq] at hc
    obtain ⟨u, code, o, n, h1, h2, _⟩ := writeOut_ran (s := s) (n := 0) (range_of_not_fails hc.2.2.1).2
      (by simp [maxout]; omega :
        (cbcDec (s.operands .decrypt).key (s.operands .decrypt).iv (s.source (s.operands .decrypt))).length ≤ _) (by omega)
    exact ⟨u, code, o, n, h1, h2⟩
  | encryptMsg =>
    simp only [exec, execEncryptMsg] at h
    refine memoryCommand_ran h fun hc => ?_
    simp only [firstError_eq_none, List.mem_cons, List.not_mem_nil, or_false, forall_eq_or_imp, forall_eq] at hc
    cases hd : s.nextDraw with
    | none => exact ⟨_, _, _, _, rfl, .unchanged rfl (errorCode_le _) (by omega) fun _ => ⟨rfl, rfl⟩⟩
    | some b =>
      obtain ⟨u, code, o, n, h1, h2, h3, h4⟩ :=
        writeOut_ran (s := s.dropDraw.setIv b false)
          (range_of_not_fails hc.2.1).2
          (by simp [maxout]; omega :
            (cbcEnc (s.operands .encryptMsg).key b (padBytes (s.source (s.operands .encryptMsg)))).length ≤ _)
          (padlen_le (s.operands .encryptMsg).len.toNat)
      exact ⟨u, code, o, n, h1, h2.of_ivChange rfl h3 h4 (.inr rfl) rfl (.inr rfl)⟩
  | decryptMsg =>
    simp only [exec, execDecryptMsg] at h
    refine memoryCommand_ran h fun hc => ?_
    simp only [firstError_eq_none, List.mem_cons, List.not_mem_nil, or_false, forall_eq_or_imp, forall_eq] at hc
    exact writeUnpadded_ran (range_of_not_fails hc.2.2.1).2 (by simp [maxout]; omega)
  | clear =>
    cases h
    exact ⟨_, _, _, _, rfl,
      { ie := rfl, ivEnforce := rfl, busyViol := rfl, srcAddr := rfl, dstAddr := rfl, len := rfl, platform := rfl,
        inputs := rfl, reply := rfl, unfenced := rfl, pending := rfl, results := rfl, key := .inr ⟨rfl, rfl, rfl⟩,
        iv := .inr (.inr (.inr rfl)), ivFresh := .inr (.inr ⟨by simp, rfl⟩), outside := fun _ _ => rfl, memory := id,
        errorMemory := fun _ _ => rfl, codeLe := by decide, count := by omega, noResults := fun h => absurd rfl h }⟩
  | illegal op r =>
    cases h
    exact ⟨s, _, _, _, rfl, .raised .illegalCmd⟩

/-- A command stops only by pointing at memory with access side effects; no meaning refuses (R75, R247). -/
theorem exec_stops_only_on_side_effects (i : Instr) (s : State) :
    (∃ t, exec i s = .next t) ∨
      (exec i s = .fault .sideEffectMemory ∧ (buffersOf i (s.operands i)).any (touchesSideEffects s.platform) = true) := by
  cases i with
  | geniv => left; simp only [exec, execGeniv]; cases s.nextDraw <;> exact ⟨_, rfl⟩
  | clear => exact .inl ⟨_, rfl⟩
  | illegal op r => exact .inl ⟨_, rfl⟩
  | pad | unpad | encrypt | decrypt | encryptMsg | decryptMsg =>
    simp only [exec, execPad, execUnpad, execEncrypt, execDecrypt, execEncryptMsg, execDecryptMsg]
    rcases memoryCommand_cases _ s _ _ with h | ⟨e, _, h⟩ | ⟨_, h⟩
    · exact .inr h
    · exact .inl ⟨_, h⟩
    · exact .inl ⟨_, h⟩

end Sys2Proof.Machine
end

