-- ==== Sys2Proof/Laws/Step.lean ====
section
/-! SUPPORT. What one step can do: the step by the input at the head, and the inversion of a host write. -/

namespace Sys2Proof.Machine

theorem step_cons {s : State} {e : Input} {rest : List Input} (h : s.inputs = e :: rest) :
    step s = perform e (s.withInputs rest) := by
  simp [step, h]

theorem step_nil {s : State} (h : s.inputs = []) : step s = engineTurn s := by simp [step, h]

/-- A register write at a multiple of 4 reaches the register dispatch (R64, R110). -/
theorem perform_regWrite {off : BitVec 8} (h : off.toNat % 4 = 0) (v : Word) (s : State) :
    perform (.regWrite off .word v) s = hostWrite off v (s.withReply .ack) := by
  simp [perform, hostWriteAccess, wellFormedAccess, h]

/-- A register read at a multiple of 4 is answered (R64, R112). -/
theorem perform_regRead {off : BitVec 8} (h : off.toNat % 4 = 0) (s : State) :
    perform (.regRead off .word) s = .next (hostRead off s) := by
  simp [perform, hostReadAccess, wellFormedAccess, h]

/-- Only offset 0x08 is STATUS. -/
theorem regAt_eq_status {off : BitVec 8} : regAt off = .status ↔ off = 0x08#8 := by
  revert off; decide

theorem regAt_key (j : Fin 8) : regAt (0x30#8 + 4#8 * BitVec.ofNat 8 j.val) = .key j := by
  revert j; decide

theorem regAt_iv (j : Fin 4) : regAt (0x50#8 + 4#8 * BitVec.ofNat 8 j.val) = .iv j := by
  revert j; decide

/-- KEYj stands at no other multiple of 4. -/
theorem regAt_key_offset {off : BitVec 8} {j : Fin 8} (h : regAt off = .key j) (h4 : off.toNat % 4 = 0) :
    off = 0x30#8 + 4#8 * BitVec.ofNat 8 j.val := by
  revert off; revert j; decide

/-- The offsets of KEYj and IVj are multiples of 4. -/
theorem key_offset_aligned (j : Fin 8) : (0x30#8 + 4#8 * BitVec.ofNat 8 j.val).toNat % 4 = 0 := by
  revert j; decide

theorem iv_offset_aligned (j : Fin 4) : (0x50#8 + 4#8 * BitVec.ofNat 8 j.val).toNat % 4 = 0 := by
  revert j; decide

/-- A write to STATUS (R117). -/
theorem hostWrite_status (v : Word) (s : State) : hostWrite 0x08#8 v s = .next (s.writeStatus v) := by
  rw [hostWrite, if_pos (by decide)]

/-- A write elsewhere while busy (R111). -/
theorem hostWrite_busy {off : BitVec 8} (hr : regAt off ≠ .status) (v : Word) {s : State} (hb : s.busy = true) :
    hostWrite off v s = .next { s with busyViol := true } := by
  rw [hostWrite, if_neg hr, if_pos hb]

/-- A write elsewhere while idle is the write of that register (R110). -/
theorem hostWrite_idle {off : BitVec 8} (hr : regAt off ≠ .status) (v : Word) {s : State} (hb : s.busy = false) :
    hostWrite off v s = match regAt off with
      | .ctrl => .next (s.writeCtrl v)
      | .cmd => s.writeCmd v
      | .srcAddr => .next { s with srcAddr := v }
      | .dstAddr => .next { s with dstAddr := v }
      | .len => .next { s with len := v }
      | .key j => .next (s.writeKey j v)
      | .iv j => .next (s.writeIv j v)
      | _ => .next s := by
  rw [hostWrite, if_neg hr, if_neg (by simp [hb])]
  cases h : regAt off <;> first
    | rfl
    | exact absurd h hr

/-- What a write to CMD can do while idle (R118, R119, R73, R75): it stops for want of a fence or before memory with access
side effects, or it issues the command. -/
theorem writeCmd_cases (v : Word) (s : State) :
    (s.writeCmd v = .fault .missingFence ∧ (s.issueBuffers v).any (fun b => s.unfenced.any b.src.contains) = true) ∨
      (s.writeCmd v = .fault .sideEffectMemory ∧ (s.issueBuffers v).any (touchesSideEffects s.platform) = true) ∨
      (s.writeCmd v = .next (s.accept v) ∧ (s.issueBuffers v).any (touchesSideEffects s.platform) = false) := by
  unfold State.writeCmd
  split
  · next h => exact .inl ⟨rfl, h⟩
  · split
    · next h => exact .inr (.inl ⟨rfl, h⟩)
    · next h => exact .inr (.inr ⟨rfl, by simpa using h⟩)

/-- A CMD write over fenced source bytes and ordinary memory issues the command. -/
theorem writeCmd_issues {v : Word} {s : State}
    (hf : (s.issueBuffers v).any (fun b => s.unfenced.any b.src.contains) = false)
    (ho : (s.issueBuffers v).any (touchesSideEffects s.platform) = false) : s.writeCmd v = .next (s.accept v) := by
  rw [State.writeCmd, hf, ho]; rfl

/-- A CMD write over fenced source bytes that points the command at memory with access side effects stops (R75, R246). -/
theorem writeCmd_stops {v : Word} {s : State}
    (hf : (s.issueBuffers v).any (fun b => s.unfenced.any b.src.contains) = false)
    (ho : (s.issueBuffers v).any (touchesSideEffects s.platform) = true) :
    s.writeCmd v = .fault .sideEffectMemory := by
  rw [State.writeCmd, hf, ho]; rfl

/-- Everything a host write can do (R110 to R119). -/
theorem hostWrite_cases {off : BitVec 8} {v : Word} {s t : State} (h : hostWrite off v s = .next t) :
    (regAt off = .status ∧ t = s.writeStatus v) ∨
    (s.busy = true ∧ t = { s with busyViol := true }) ∨
    (s.busy = false ∧
      (t = s ∨ t = s.writeCtrl v ∨
        (t = s.accept v ∧ (s.issueBuffers v).any (touchesSideEffects s.platform) = false) ∨
        t = { s with srcAddr := v } ∨ t = { s with dstAddr := v } ∨ t = { s with len := v } ∨ (∃ j, regAt off = .key j ∧ t = s.writeKey j v) ∨
        ∃ j, regAt off = .iv j ∧ t = s.writeIv j v)) := by
  unfold hostWrite at h
  split at h
  · next hs => cases h; exact .inl ⟨hs, rfl⟩
  · next hs =>
    split at h
    · next hb => cases h; exact .inr (.inl ⟨hb, rfl⟩)
    · next hb =>
      refine .inr (.inr ⟨by simpa using hb, ?_⟩)
      split at h
      case h_2 =>
        rcases writeCmd_cases v s with ⟨hc, _⟩ | ⟨hc, _⟩ | ⟨hc, ho⟩
        · rw [hc] at h; cases h
        · rw [hc] at h; cases h
        · rw [hc] at h; cases h; exact .inr (.inr (.inl ⟨rfl, ho⟩))
      case h_3 hr => exact absurd hr hs
      all_goals cases h
      case h_10 j hr => exact .inr (.inr (.inr (.inr (.inr (.inr (.inl ⟨j, hr, rfl⟩))))))
      case h_11 j hr => exact .inr (.inr (.inr (.inr (.inr (.inr (.inr ⟨j, hr, rfl⟩))))))
      case h_1 => exact .inr (.inl rfl)
      case h_5 => exact .inr (.inr (.inr (.inl rfl)))
      case h_6 => exact .inr (.inr (.inr (.inr (.inl rfl))))
      case h_7 => exact .inr (.inr (.inr (.inr (.inr (.inl rfl)))))
      all_goals exact .inl rfl

/-- Everything a host read can change: the reply, the free-value counter, and what the host has observed (R112, R125). -/
theorem hostRead_frame (off : BitVec 8) (s : State) :
    ∃ r f p q, hostRead off s = { s with reply := r, frees := f, pending := p, results := q } := by
  unfold hostRead
  split <;> exact ⟨_, _, _, _, rfl⟩

/-- Buffers leave the list of those not observed complete only where the read is STATUS and finds BUSY = 0 (R273). -/
theorem hostRead_pending (off : BitVec 8) (s : State) :
    (hostRead off s).pending = if regAt off = .status ∧ s.busy = false then [] else s.pending := by
  unfold hostRead
  split
  · next h => simp [h]
  · next h => cases hb : s.busy <;> simp [h, hb]
  · next _ h => rw [if_neg fun hs => h hs.1]; rfl

/-! ## The inversion of a step -/

/-- Everything one step can do: the engine's turn, reset, a window write, a store, or an input that changes only the
reply, the counter of free values and what the host has observed and fenced. -/
theorem step_cases {s t : State} (h : step s = .next t) :
    ∃ u, u = s.withInputs s.inputs.tail ∧
      (((s.inputs = [] ∨ s.inputs.head? = some .engine) ∧
          ((s.cur = none ∧ t = u) ∨ ∃ c, s.cur = some c ∧ exec c.op u = .next t)) ∨
        (s.inputs.head? = some .reset ∧ t = u.resetEngine) ∨
        (∃ off v, s.inputs.head? = some (.regWrite off .word v) ∧ off.toNat % 4 = 0 ∧
          hostWrite off v (u.withReply .ack) = .next t) ∨
        (∃ a b, s.inputs.head? = some (.memStore a b) ∧
          t = { u with mem := Memory.write s.mem a.toNat b, unfenced := a.toNat :: s.unfenced, reply := .ack }) ∨
        ((∃ e, s.inputs.head? = some e ∧ e ≠ .engine) ∧
          t = { u with reply := t.reply, frees := t.frees, pending := t.pending, results := t.results,
                       unfenced := t.unfenced })) := by
  refine ⟨_, rfl, ?_⟩
  have turn : ∀ u : State, u.cur = s.cur → engineTurn u = .next t →
      (s.cur = none ∧ t = u) ∨ ∃ c, s.cur = some c ∧ exec c.op u = .next t := by
    intro u hu hs
    cases hc : s.cur with
    | none => simp only [engineTurn, hu, hc] at hs; cases hs; exact .inl ⟨rfl, rfl⟩
    | some c => simp only [engineTurn, hu, hc] at hs; exact .inr ⟨c, rfl, hs⟩
  rcases hi : s.inputs with _ | ⟨e, l⟩
  · rw [step_nil hi] at h
    have : s.withInputs [] = s := by rw [← hi]; rfl
    exact .inl ⟨.inl rfl, this ▸ turn s rfl h⟩
  · rw [step_cons hi] at h
    show _ ∨ _
    cases e with
    | engine => exact .inl ⟨.inr rfl, turn _ rfl h⟩
    | reset => cases h; exact .inr (.inl ⟨rfl, rfl⟩)
    | regWrite off width v =>
      simp only [perform, hostWriteAccess] at h
      split at h
      · next hw =>
        simp only [wellFormedAccess, Bool.and_eq_true, beq_iff_eq, decide_eq_true_eq] at hw
        obtain ⟨rfl, h4⟩ := hw
        exact .inr (.inr (.inl ⟨off, v, rfl, h4, h⟩))
      · cases h
    | regRead off width =>
      simp only [perform, hostReadAccess] at h
      split at h
      · cases h
        obtain ⟨r, f, p, q, e⟩ := hostRead_frame off (s.withInputs l)
        exact .inr (.inr (.inr (.inr ⟨⟨_, rfl, by simp⟩, by rw [e]; rfl⟩)))
      · cases h
    | memStore a b =>
      simp only [perform, hostStore] at h
      repeat' split at h
      all_goals cases h
      exact .inr (.inr (.inr (.inl ⟨a, b, rfl, rfl⟩)))
    | memLoad a =>
      simp only [perform, hostLoad] at h
      repeat' split at h
      all_goals cases h
      exact .inr (.inr (.inr (.inr ⟨⟨_, rfl, by simp⟩, rfl⟩)))
    | fence => cases h; exact .inr (.inr (.inr (.inr ⟨⟨_, rfl, by simp⟩, rfl⟩)))
    | senseIrq => cases h; exact .inr (.inr (.inr (.inr ⟨⟨_, rfl, by simp⟩, rfl⟩)))

/-! ## The IV a command leaves (R125) -/

theorem geniv_ivAfter (s : State) :
    s.ivAfter .geniv = match s.nextDraw with
      | some b => ivOfBlock b
      | none => s.iv := by
  simp only [State.ivAfter, exec, execGeniv]
  cases s.nextDraw <;> rfl

/-- ENCRYPT_MSG leaves the drawn IV where its checks pass and the draw is answered; the key has no part in that. -/
theorem encryptMsg_ivAfter (s : State) :
    s.ivAfter .encryptMsg =
      if (buffersOf .encryptMsg (s.operands .encryptMsg)).any (touchesSideEffects s.platform) = true then s.iv
      else if (firstError [(!s.keyValid, Error.noKey), (rangeFails .encryptMsg (s.operands .encryptMsg), .rangeErr),
          (overlapFails .encryptMsg (s.operands .encryptMsg), .overlap)]).isSome = true then s.iv
      else match s.nextDraw with
        | some b => ivOfBlock b
        | none => s.iv := by
  simp only [State.ivAfter, exec, execEncryptMsg, State.memoryCommand]
  by_cases hs : (buffersOf .encryptMsg (s.operands .encryptMsg)).any (touchesSideEffects s.platform) = true
  · simp [hs]
  · rw [if_neg hs, if_neg hs]
    cases he : firstError [(!s.keyValid, Error.noKey), (rangeFails .encryptMsg (s.operands .encryptMsg), .rangeErr),
          (overlapFails .encryptMsg (s.operands .encryptMsg), .overlap)] with
    | some e => rfl
    | none =>
      simp only [Option.isSome_none, Bool.false_eq_true, if_false]
      cases s.nextDraw with
      | none => rfl
      | some b =>
        rcases writeOut_cases .encryptMsg (s.operands .encryptMsg)
          (cbcEnc (s.operands .encryptMsg).key b (padBytes (s.source (s.operands .encryptMsg))))
          (padlen (s.operands .encryptMsg).len.toNat) (s.dropDraw.setIv b false) with ⟨_, h⟩ | ⟨_, h⟩ <;>
        · simp only [h]; rfl

end Sys2Proof.Machine
end

