-- ==== Sys2Proof/Laws/Claims.lean ====
section
/-! SUPPORT. The terms the statements use, met to the operations of the model. -/

namespace Sys2Proof.Safety

open Sys2Proof.Machine

theorem admitsAll_iff {s : State} {kind : AccessKind} {a n : Nat} :
    admitsAll s.platform kind a n = true ↔ admitted s kind a n := by
  induction n generalizing a with
  | zero => simp only [admitsAll, true_iff]; intro x h1 h2; omega
  | succ n ih =>
    simp only [admitsAll, Bool.and_eq_true, ih]
    constructor
    · rintro ⟨h1, h2⟩ x hx1 hx2
      by_cases h : x = a
      · exact h ▸ h1
      · exact h2 x (by omega) (by omega)
    · intro h
      exact ⟨h a (by omega) (by omega), fun x h1 h2 => h x (by omega) (by omega)⟩

theorem accessible_iff {s : State} {c : Latched} {n : Nat} :
    s.accessible c n = true ↔ admitted s .read c.src.toNat c.len.toNat ∧ admitted s .write c.dst.toNat n := by
  simp [State.accessible, State.sourceAdmitted, admitsAll_iff]

theorem sourceAdmitted_iff {s : State} {c : Latched} :
    s.sourceAdmitted c = true ↔ admitted s .read c.src.toNat c.len.toNat := by
  simp [State.sourceAdmitted, admitsAll_iff]

/-- `fits` is the range rule and the overlap rule. -/
theorem fits_iff {i : Instr} {c : Latched} : fits i c ↔ rangeFails i c = false ∧ overlapFails i c = false := by
  have hne : (c.src != c.dst) = true ↔ c.src ≠ c.dst := by simp
  simp only [fits, rangeFails, overlapFails, Config.memorySize, Bool.or_eq_false_iff, decide_eq_false_iff_not,
    Bool.and_eq_false_iff, Nat.not_lt]
  rw [show ((c.src != c.dst) = false ↔ c.src = c.dst) by simp]
  constructor
  · rintro ⟨h1, h2, h3⟩
    refine ⟨⟨h1, h2⟩, ?_⟩
    rcases h3 with h | h | h | h
    · exact .inl (.inl (.inl (by omega)))
    · exact .inl (.inl (.inr h))
    · exact .inl (.inr h)
    · exact .inr h
  · rintro ⟨⟨h1, h2⟩, h3⟩
    refine ⟨h1, h2, ?_⟩
    rcases h3 with ((h | h) | h) | h
    · exact .inl (by omega)
    · exact .inr (.inl h)
    · exact .inr (.inr (.inl h))
    · exact .inr (.inr (.inr h))

theorem aligned_iff {c : Latched} : aligned c ↔ misaligned c = false := by
  simp only [aligned, misaligned, Config.blockSize, Bool.or_eq_false_iff, decide_eq_false_iff_not, not_not]
  omega

theorem unpadLength_iff {c : Latched} : aligned c ↔ unpadLengthFails c = false := by
  simp only [aligned, unpadLengthFails, Config.blockSize, Bool.or_eq_false_iff, decide_eq_false_iff_not, not_not]
  omega

theorem keyValid_iff {s : State} : s.keyValid = true ↔ s.keyWr = 0xFF#8 := by simp [State.keyValid]

/-- Storing bytes is `written`. -/
theorem written_store (s : State) (a : Nat) (out : List Byte) : written a out s.mem (s.store a out).mem := by
  intro x
  simp [Memory.read_writeBytes]

/-- Reading back a front part of what was written. -/
theorem written_readBytes {a n : Nat} {out : List Byte} {m m' : Memory} (h : written a out m m') (hn : n ≤ out.length) :
    Memory.readBytes m' a n = out.take n := by
  apply List.ext_getElem (by simp; omega)
  intro i h1 h2
  have h3 : i < n := by simpa using h1
  have e := Memory.readBytes_getD m' a n i 0#8 h3
  rw [h, if_pos (by omega), Nat.add_sub_cancel_left, List.getD_eq_getElem _ _ (by simpa using h3),
    List.getD_eq_getElem _ _ (by omega)] at e
  simpa using e

/-! ## Completions -/

theorem Completed.of_finish (op : Instr) (code : BitVec 4) (o n : Nat) (s : State) :
    Completed (s.finish op code o n) code o n :=
  ⟨rfl, rfl, rfl, rfl, rfl, rfl⟩

/-- A completion of a state that differs from `s` only in what commands may change keeps the rest. -/
theorem CommandFrame.of_finish {s u : State} {op : Instr} {code : BitVec 4} {o n : Nat}
    (h : u = { s with
      key := u.key, keyWr := u.keyWr, iv := u.iv, ivFresh := u.ivFresh, cv := u.cv, mem := u.mem
      entropy := u.entropy, draws := u.draws, frees := u.frees }) : CommandFrame s (u.finish op code o n) := by
  rw [h]; constructor <;> rfl

theorem admitted_mono {s : State} {kind : AccessKind} {a n m : Nat} (h : m ≤ n) (ha : admitted s kind a n) :
    admitted s kind a m := fun x h1 h2 => ha x h1 (by omega)

/-! ## A command whose checks pass runs its memory phase -/

theorem pad_runs {s : State} (ho : ordinary .pad s) (hf : fits .pad (s.operands .pad)) :
    exec .pad s =
      .next (s.writeOut .pad (s.operands .pad) (padBytes (s.source (s.operands .pad)))
        (padlen (s.operands .pad).len.toNat)) := by
  have := fits_iff.1 hf
  simp only [exec, execPad]
  exact memoryCommand_runs ho (by simp [firstError, this])

theorem unpad_runs {s : State} (ho : ordinary .unpad s) (ha : aligned (s.operands .unpad))
    (hf : fits .unpad (s.operands .unpad)) :
    exec .unpad s =
      .next (s.writeUnpadded .unpad (s.operands .unpad) (unpadBytes (s.source (s.operands .unpad)))) := by
  have := fits_iff.1 hf
  simp only [exec, execUnpad]
  exact memoryCommand_runs ho (by simp [firstError, this, unpadLength_iff.1 ha])

theorem encrypt_runs {s : State} (ho : ordinary .encrypt s) (hk : s.keyWr = 0xFF#8)
    (hi : (s.operands .encrypt).ivEnforce = false ∨ s.ivFresh = true) (ha : aligned (s.operands .encrypt))
    (hf : fits .encrypt (s.operands .encrypt)) :
    exec .encrypt s =
      .next (s.useIv.writeOut .encrypt (s.operands .encrypt)
        (cbcEnc (s.operands .encrypt).key (s.operands .encrypt).iv (s.source (s.operands .encrypt))) 0) := by
  have := fits_iff.1 hf
  simp only [exec, execEncrypt]
  refine memoryCommand_runs ho ?_
  rcases hi with h | h <;> simp [firstError, this, keyValid_iff.2 hk, aligned_iff.1 ha, h]

theorem decrypt_runs {s : State} (ho : ordinary .decrypt s) (hk : s.keyWr = 0xFF#8) (ha : aligned (s.operands .decrypt))
    (hf : fits .decrypt (s.operands .decrypt)) :
    exec .decrypt s =
      .next (s.writeOut .decrypt (s.operands .decrypt)
        (cbcDec (s.operands .decrypt).key (s.operands .decrypt).iv (s.source (s.operands .decrypt))) 0) := by
  have := fits_iff.1 hf
  simp only [exec, execDecrypt]
  exact memoryCommand_runs ho (by simp [firstError, this, keyValid_iff.2 hk, aligned_iff.1 ha])

theorem encryptMsg_runs {s : State} (ho : ordinary .encryptMsg s) (hk : s.keyWr = 0xFF#8)
    (hf : fits .encryptMsg (s.operands .encryptMsg)) :
    exec .encryptMsg s =
      .next (match s.nextDraw with
        | none => s.dropDraw.raise .encryptMsg .rngFail
        | some b =>
          (s.dropDraw.setIv b false).writeOut .encryptMsg (s.operands .encryptMsg)
            (cbcEnc (s.operands .encryptMsg).key b (padBytes (s.source (s.operands .encryptMsg))))
            (padlen (s.operands .encryptMsg).len.toNat)) := by
  have := fits_iff.1 hf
  simp only [exec, execEncryptMsg]
  exact memoryCommand_runs ho (by simp [firstError, this, keyValid_iff.2 hk])

theorem decryptMsg_runs {s : State} (ho : ordinary .decryptMsg s) (hk : s.keyWr = 0xFF#8)
    (ha : aligned (s.operands .decryptMsg)) (hf : fits .decryptMsg (s.operands .decryptMsg)) :
    exec .decryptMsg s =
      .next (s.writeUnpadded .decryptMsg (s.operands .decryptMsg)
        (unpadBytes (cbcDec (s.operands .decryptMsg).key (s.operands .decryptMsg).iv
          (s.source (s.operands .decryptMsg))))) := by
  have := fits_iff.1 hf
  simp only [exec, execDecryptMsg]
  exact memoryCommand_runs ho (by simp [firstError, this, keyValid_iff.2 hk, aligned_iff.1 ha])

/-- The memory phase over admitted memory (R120). -/
theorem writeOut_admitted {op : Instr} {c : Latched} {out : List Byte} {n : Nat} {s : State}
    (hr : admitted s .read c.src.toNat c.len.toNat) (hw : admitted s .write c.dst.toNat out.length) :
    s.writeOut op c out n = (s.store c.dst.toNat out).finish op 0#4 out.length n := by
  have ha : s.accessible c out.length = true := accessible_iff.2 ⟨hr, hw⟩
  simp [State.writeOut, ha]

/-- The memory phase where an access is not admitted (R74). -/
theorem writeOut_refused {op : Instr} {c : Latched} {out : List Byte} {n : Nat} {s : State}
    (h : ¬(admitted s .read c.src.toNat c.len.toNat ∧ admitted s .write c.dst.toNat out.length)) :
    s.writeOut op c out n = (s.scramble c.dst.toNat (maxout op c.len.toNat)).finish op 9#4 0 0 := by
  rw [← accessible_iff] at h
  simp [State.writeOut, h, State.busError, errorCode]

/-- The error that is reported stands in the list of checks. -/
theorem firstError_mem {l : List (Bool × Error)} {e : Error} (h : firstError l = some e) : e ∈ l.map Prod.snd :=
  List.mem_map.2 ⟨_, firstError_eq_some h, rfl⟩

/-- Passing every check of R242 gives the conditions the memory phase needs. -/
theorem checks_passed {i : Instr} {c : Latched} {s : State} (h : firstError (checks i c s) = none) :
    (isKeyed i = true → s.keyWr = 0xFF#8) ∧ (i = .encrypt → c.ivEnforce = false ∨ s.ivFresh = true) ∧
      (i = .encrypt ∨ i = .decrypt ∨ i = .decryptMsg ∨ i = .unpad → aligned c) ∧
      (isMemoryCommand i = true → fits i c) := by
  rw [firstError_eq_none] at h
  simp only [checks, List.mem_cons, List.not_mem_nil, or_false, forall_eq_or_imp, forall_eq, Bool.and_eq_false_iff,
    Bool.or_eq_false_iff, decide_eq_false_iff_not, Bool.not_eq_false'] at h
  obtain ⟨h1, h2, h3, h4, h5, h6⟩ := h
  refine ⟨fun hk => keyValid_iff.1 (h1.resolve_left (by simp [hk])), ?_, ?_, ?_⟩
  · rintro rfl
    rcases h2 with (h2 | h2) | h2
    · simp at h2
    · exact .inl h2
    · exact .inr h2
  · intro hi
    unfold aligned
    by_cases hu : i = .unpad
    · subst hu; simp at h4; omega
    · rcases h3 with h3 | h3
      · rcases hi with rfl | rfl | rfl | rfl <;> simp at h3 hu
      · omega
  · intro hm
    have h5 := h5.resolve_left (by simp [hm])
    have h6 := h6.resolve_left (by simp [hm])
    refine ⟨by omega, by omega, ?_⟩
    by_contra hc
    push Not at hc
    exact h6 ⟨by omega, hc.2.1, by omega, by omega⟩

/-- The operand checks of the meanings are those of R242. -/
theorem rangeFails_eq (i : Instr) (c : Latched) :
    rangeFails i c =
      decide (2 ^ 32 < c.src.toNat + c.len.toNat ∨ 2 ^ 32 < c.dst.toNat + maxout i c.len.toNat) := by
  simp [rangeFails, Config.memorySize]

theorem overlapFails_eq (i : Instr) (c : Latched) :
    overlapFails i c = decide (0 < c.len.toNat ∧ c.src ≠ c.dst ∧
      c.src.toNat < c.dst.toNat + maxout i c.len.toNat ∧ c.dst.toNat < c.src.toNat + c.len.toNat) := by
  rw [Bool.eq_iff_iff]; simp [overlapFails]; tauto

theorem misaligned_eq (c : Latched) : misaligned c = decide (c.len.toNat = 0 ∨ c.len.toNat % 16 ≠ 0) := by
  simp [misaligned, Config.blockSize]

theorem unpadLengthFails_eq (c : Latched) :
    unpadLengthFails c = decide (c.len.toNat < 16 ∨ c.len.toNat % 16 ≠ 0) := by
  simp [unpadLengthFails, Config.blockSize]

/-! ## Runs of several steps -/

/-- A run goes on from the state a step leaves. -/
theorem run_next {s t : State} (n : Nat) (h : step s = .next t) : run (n + 1) s = run n t := by
  rw [run, h]

/-- A run ends where a step faults. -/
theorem run_fault {s : State} {f : Fault} (n : Nat) (h : step s = .fault f) : run (n + 1) s = .fault f := by
  rw [run, h]

/-- One key write of `ldkey` (R98, R114). -/
theorem step_wr_key {s : State} {rest : List Input} {off : BitVec 8} {v : Word} (j : Fin 8)
    (hj : off = 0x30#8 + 4#8 * BitVec.ofNat 8 j.val) (h : s.inputs = wr off v :: rest) (hb : s.busy = false) :
    step s = .next (((s.withInputs rest).withReply .ack).writeKey j v) := by
  subst hj
  rw [step_cons h, wr, perform_regWrite (key_offset_aligned j), hostWrite_idle (by rw [regAt_key]; simp) v (by simpa using hb),
    regAt_key]

/-! ## Issue (R119) -/

/-- `fenced` is what a CMD write asks of the ledger (R73; log 14). -/
theorem fenced_iff {w : Word} {s : State} :
    fenced w s ↔ (s.issueBuffers w).any (fun b => s.unfenced.any b.src.contains) = false := by
  unfold fenced State.issueBuffers
  cases buffersOf (decodeWord w) (s.latch (decodeWord w)) <;> simp

/-- On an idle engine `ordinary` is about the command that issue would latch. -/
theorem ordinary_iff_issueBuffers {w : Word} {s : State} (hb : s.busy = false) :
    ordinary (decodeWord w) s ↔ (s.issueBuffers w).any (touchesSideEffects s.platform) = false := by
  have hc : s.cur = none := by simpa [State.busy] using hb
  simp [ordinary, State.operands, hc, State.issueBuffers]

/-- A CMD write on an idle engine is `writeCmd` (R110, R118). -/
theorem step_cmd {s : State} {rest : List Input} {w : Word} (h : s.inputs = .regWrite 0x04#8 .word w :: rest)
    (hb : s.busy = false) : step s = ((s.withInputs rest).withReply .ack).writeCmd w := by
  rw [step_cons h, perform_regWrite (by decide), hostWrite_idle (by decide) w (by simpa using hb)]
  rfl

/-- A fenced CMD write on an idle engine, its command pointed at ordinary memory, issues the command. -/
theorem step_issues {s : State} {rest : List Input} {w : Word} (h : s.inputs = .regWrite 0x04#8 .word w :: rest)
    (hb : s.busy = false) (hf : fenced w s) (ho : ordinary (decodeWord w) s) :
    step s = .next (((s.withInputs rest).withReply .ack).accept w) :=
  (step_cmd h hb).trans (writeCmd_issues (fenced_iff.1 hf) ((ordinary_iff_issueBuffers hb).1 ho))

/-! ## The key and IV registers -/

/-- Writing KEYj changes that word alone (R114). -/
theorem keyWord_setKeyWord (r : KeyRegs) (j k : Fin 8) (v : Word) :
    keyWord (setKeyWord r j v) k = if k = j then v else keyWord r k := by
  fin_cases j <;> fin_cases k <;> rfl

/-- Writing IVj changes that word alone (R115). -/
theorem ivWord_setIvWord (r : IvRegs) (j k : Fin 4) (v : Word) :
    ivWord (setIvWord r j v) k = if k = j then v else ivWord r k := by
  fin_cases j <;> fin_cases k <;> rfl

/-- Setting bit `j` of KEY_WR sets that bit alone (R27). -/
theorem keyWr_or_bit (m : BitVec 8) (j k : Fin 8) :
    (m ||| (1#8 <<< j.val)).getLsbD k.val = (decide (k = j) || m.getLsbD k.val) := by
  fin_cases j <;> fin_cases k <;> simp

/-- KEY_WR is 0xFF exactly when every bit is set (R27). -/
theorem keyWr_full (m : BitVec 8) : m = 0xFF#8 ↔ ∀ k : Fin 8, m.getLsbD k.val = true := by
  constructor
  · rintro rfl k; fin_cases k <;> rfl
  · intro h
    apply BitVec.eq_of_getLsbD_eq
    intro i hi
    rw [h ⟨i, hi⟩]
    exact (show ∀ k : Fin 8, true = (0xFF#8).getLsbD k.val by decide) ⟨i, hi⟩

@[simp] theorem keyWord_zero (j : Fin 8) : keyWord KeyRegs.zero j = 0#32 := by fin_cases j <;> rfl

end Sys2Proof.Safety
end

