-- ==== Sys2Proof/Laws/Decode.lean ====
section
/-! SUPPORT. The two fields of a command word. -/

namespace Sys2Proof

/-- A word is its two fields (R90). -/
theorem rsvdField_append_opcodeField (w : Word) : rsvdField w ++ opcodeField w = w := by
  simp only [rsvdField, opcodeField]
  ext i hi
  simp only [BitVec.getElem_append, BitVec.getElem_extractLsb']
  split <;>
  · rw [← BitVec.getLsbD_eq_getElem]
    congr 1
    omega

@[simp] theorem rsvdField_append (r : BitVec 28) (o : BitVec 4) : rsvdField (r ++ o) = r := by
  simp only [rsvdField]
  ext i hi
  simp only [BitVec.getElem_extractLsb', BitVec.getLsbD_append]
  rw [if_neg (by omega), ← BitVec.getLsbD_eq_getElem]
  congr 1
  omega

@[simp] theorem opcodeField_append (r : BitVec 28) (o : BitVec 4) : opcodeField (r ++ o) = o := by
  simp only [opcodeField]
  ext i hi
  simp only [BitVec.getElem_extractLsb', BitVec.getLsbD_append]
  rw [if_pos (by omega), ← BitVec.getLsbD_eq_getElem]
  congr 1
  omega

end Sys2Proof
end

