-- ==== Sys2Proof/Laws/HostSoftware.lean ====
section
/-! SUPPORT. What the host programs can do: sequencing, the reading of ERRCODE, and that a flow is all or nothing (R227). -/

namespace Sys2Proof.Machine

/-- A run that goes on has a first part that did not stop. -/
theorem andThen_eq_next {α β : Type} {r : Host.Outcome α Fault Refusal} {k : α → Host.Outcome β Fault Refusal} {b : β} :
    andThen r k = .next b ↔ ∃ a, r = .next a ∧ k a = .next b := by
  cases r <;> simp [andThen]

@[simp] theorem andThen_next {α β : Type} (a : α) (k : α → Host.Outcome β Fault Refusal) : andThen (.next a) k = k a := rfl

/-- An access is what the agent whose input it is does. -/
theorem access_eq_perform (e : Input) (s : State) : access e s = perform e s := rfl

theorem tell_append (l m : List Input) (s : State) : tell (l ++ m) s = andThen (tell l s) (tell m) := by
  induction l generalizing s with
  | nil => rfl
  | cons e l ih =>
    simp only [List.cons_append, tell]
    cases access e s <;> simp [andThen, ih]

/-- `rd ERRCODE` (R112). -/
theorem readWord_errcode (s : State) :
    readWord 0x0C s = .next (s.errCode.setWidth 32, s.withReply (.data (s.errCode.setWidth 32))) := rfl

/-- The host goes on exactly where ERRCODE is OK (R225, R240). -/
theorem failureOf_eq_none {e : Word} : failureOf e = none ↔ e = 0#32 := by
  unfold failureOf
  split
  · next h => simp [h]
  · next h => split <;> exact iff_of_false (by simp) h

/-- Every engine error is reported as itself (R227, R240). -/
theorem failureOf_errorCode (e : Error) : failureOf ((errorCode e).setWidth 32) = some (.engine e) := by
  cases e <;> rfl

/-- What reading ERRCODE leads to: the failure it names and no more, or the rest of the flow (R225 to R227). -/
theorem whenOk_cases {α : Type} (k : State → HostRun (Report α)) (s : State) :
    (s.errCode = 0#4 ∧ whenOk k s = k (s.withReply (.data 0))) ∨
      (s.errCode ≠ 0#4 ∧ ∃ f, whenOk k s = .next (.failed f, s.withReply (.data (s.errCode.setWidth 32)))) := by
  rw [whenOk, readWord_errcode, andThen_next]
  by_cases h : s.errCode = 0#4
  · exact .inl ⟨h, by simp [h, failureOf]⟩
  · refine .inr ⟨h, ?_⟩
    have hne : s.errCode.setWidth 32 ≠ 0#32 := fun h0 => h (by bv_omega)
    cases hf : failureOf (s.errCode.setWidth 32) with
    | none => exact absurd (failureOf_eq_none.1 hf) hne
    | some f => exact ⟨f, by simp⟩

/-- A report is all or nothing: a value and a file with success, neither without it (R227). -/
def Report.whole {α : Type} (r : Report α) : Prop := r.value.isSome = r.success ∧ r.file.isSome = r.success

theorem Report.failed_whole {α : Type} (f : Failure) : (Report.failed f : Report α).whole := ⟨rfl, rfl⟩

theorem Report.writing_whole {α : Type} (w : Bool) (v : α) (path : List Char) (bytes : List Byte) :
    (Report.writing w v path bytes).whole := by
  cases w <;> exact ⟨rfl, rfl⟩

/-- A report that `whenOk` gives is a failure or the report of the rest of the flow. -/
theorem whenOk_whole {α : Type} {k : State → HostRun (Report α)} (hk : ∀ {s t r}, k s = .next (r, t) → r.whole)
    {s t : State} {r : Report α} (h : whenOk k s = .next (r, t)) : r.whole := by
  rcases whenOk_cases k s with ⟨_, e⟩ | ⟨_, f, e⟩
  · exact hk (e.symm.trans h)
  · rw [e] at h; cases h; exact Report.failed_whole f

theorem sealEnvelope_whole {w : Bool} {path : List Char} {dst : Word} {s t : State} {r : Report Encrypted}
    (h : sealEnvelope w path dst s = .next (r, t)) : r.whole := by
  simp only [sealEnvelope, andThen_eq_next] at h
  obtain ⟨_, _, _, _, _, _, h⟩ := h
  cases h
  exact Report.writing_whole _ _ _ _

theorem writePlain_whole {w : Bool} {path : List Char} {dst : Word} {s t : State} {r : Report Decrypted}
    (h : writePlain w path dst s = .next (r, t)) : r.whole := by
  simp only [writePlain, andThen_eq_next] at h
  obtain ⟨_, _, _, _, h⟩ := h
  cases h
  exact Report.writing_whole _ _ _ _

/-- A failure at any step of EncryptFile leaves no output file (R227). -/
theorem encryptFile_whole {file : Option (List Byte)} {w : Bool} {path pass : List Char} {src dst : Word} {polls : Nat}
    {s t : State} {r : Report Encrypted} (h : encryptFile file w path pass src dst polls s = .next (r, t)) : r.whole := by
  unfold encryptFile at h
  split at h
  · cases h; exact Report.failed_whole _
  · obtain ⟨u, _, h⟩ := andThen_eq_next.1 h
    exact whenOk_whole sealEnvelope_whole h

/-- The same of its split form. -/
theorem encryptFileSplit_whole {file : Option (List Byte)} {w : Bool} {path pass : List Char} {src tmp dst : Word}
    {polls : Nat} {s t : State} {r : Report Encrypted}
    (h : encryptFileSplit file w path pass src tmp dst polls s = .next (r, t)) : r.whole := by
  unfold encryptFileSplit at h
  split at h
  · cases h; exact Report.failed_whole _
  · obtain ⟨u, _, h⟩ := andThen_eq_next.1 h
    refine whenOk_whole (fun h => ?_) h
    obtain ⟨_, _, h⟩ := andThen_eq_next.1 h
    obtain ⟨_, _, h⟩ := andThen_eq_next.1 h
    refine whenOk_whole (fun h => ?_) h
    obtain ⟨_, _, h⟩ := andThen_eq_next.1 h
    exact whenOk_whole sealEnvelope_whole h

/-- A failure at any step of DecryptFile leaves no output file (R227). -/
theorem decryptFile_whole {file : Option (List Byte)} {w : Bool} {pass out : List Char} {src dst : Word} {polls : Nat}
    {s t : State} {r : Report Decrypted} (h : decryptFile file w pass out src dst polls s = .next (r, t)) : r.whole := by
  unfold decryptFile at h
  split at h
  · cases h; exact Report.failed_whole _
  · split at h
    · cases h; exact Report.failed_whole _
    · obtain ⟨u, _, h⟩ := andThen_eq_next.1 h
      exact whenOk_whole writePlain_whole h

end Sys2Proof.Machine
end

