-- ==== Sys2Proof/Laws/Packing.lean ====
section
/-! SUPPORT. The bytes of the words the host writes and of the registers they fill (R26, R98). -/

namespace Sys2Proof.Machine

/-- Byte `i` of a little-endian packing. -/
theorem leBytes_getD (n v i : Nat) (h : i < n) : (leBytes n v).getD i 0#8 = BitVec.ofNat 8 (v / 256 ^ i) := by
  induction n generalizing v i with
  | zero => omega
  | succ n ih =>
    cases i with
    | zero => simp [leBytes]
    | succ i =>
      have := ih (v / 256) i (by omega)
      simp only [leBytes, List.getD_cons_succ, this, Nat.pow_succ, Nat.div_div_eq_div_mul]
      rw [Nat.mul_comm]

/-- A byte of a number kept as a bit vector is a field of it. -/
theorem byte_eq_extract {w : Nat} (v : BitVec w) (i : Nat) :
    BitVec.ofNat 8 (v.toNat / 256 ^ i) = v.extractLsb' (8 * i) 8 := by
  apply BitVec.eq_of_toNat_eq
  rw [BitVec.extractLsb'_toNat, Nat.shiftRight_eq_div_pow, Nat.pow_mul]
  simp

theorem split_four (k : List Byte) (n : Nat) (h : k.length = n + 4) :
    ∃ a b c d r, k = a :: b :: c :: d :: r ∧ r.length = n := by
  match k, h with
  | a :: b :: c :: d :: r, h => exact ⟨a, b, c, d, r, rfl, by simpa using h⟩

theorem word_toNat (a b c d : Byte) : (BitVec.ofNat 32 (leNat [a, b, c, d])).toNat = leNat [a, b, c, d] := by
  rw [BitVec.toNat_ofNat]
  have := leNat_lt [a, b, c, d]
  simp at this
  omega

theorem shiftLeft_or (a k n : Nat) (hk : k < 2 ^ n) : a <<< n ||| k = k + 2 ^ n * a := by
  rw [Nat.shiftLeft_eq, Nat.mul_comm, ← Nat.two_pow_add_eq_or_of_lt hk]; omega

/-- The eight words of a key give back its bytes (R26, R98). -/
theorem leBytes_keyOfRegs (k : List Byte) (hk : k.length = 32) :
    leBytes 32 (keyOfRegs ⟨wordAt k 0, wordAt k 1, wordAt k 2, wordAt k 3, wordAt k 4, wordAt k 5, wordAt k 6,
      wordAt k 7⟩).toNat = k := by
  obtain ⟨a0, b0, c0, d0, k1, rfl, h1⟩ := split_four k 28 hk
  obtain ⟨a1, b1, c1, d1, k2, rfl, h2⟩ := split_four k1 24 h1
  obtain ⟨a2, b2, c2, d2, k3, rfl, h3⟩ := split_four k2 20 h2
  obtain ⟨a3, b3, c3, d3, k4, rfl, h4⟩ := split_four k3 16 h3
  obtain ⟨a4, b4, c4, d4, k5, rfl, h5⟩ := split_four k4 12 h4
  obtain ⟨a5, b5, c5, d5, k6, rfl, h6⟩ := split_four k5 8 h5
  obtain ⟨a6, b6, c6, d6, k7, rfl, h7⟩ := split_four k6 4 h6
  obtain ⟨a7, b7, c7, d7, k8, rfl, h8⟩ := split_four k7 0 h7
  obtain rfl : k8 = [] := by simpa using h8
  clear h1 h2 h3 h4 h5 h6 h7 h8
  refine Eq.trans ?_ (leBytes_leNat _)
  rw [hk]
  refine congrArg (leBytes 32) ?_
  have hl : ∀ a b c d : Byte, leNat [a, b, c, d] < 2 ^ 32 := fun a b c d => by simpa using leNat_lt [a, b, c, d]
  simp only [keyOfRegs, BitVec.toNat_append]
  simp only [wordAt, List.drop, List.take]
  simp only [word_toNat, shiftLeft_or _ _ 32 (hl _ _ _ _)]
  simp only [leNat]
  ring

end Sys2Proof.Machine
end

