-- ==== Sys2Proof/Laws/PerInstr.lean ====
section
/-! SUPPORT. Said of every instruction, one lemma per constructor: the word it encodes to carries its two fields (R90). -/

namespace Sys2Proof.Laws.EncodeFields

/-- OPCODE and RSVD of the encoded word are those of the instruction. -/
def Statement (i : Instr) : Prop := opcodeField (encode i) = opcodeOf i ∧ rsvdField (encode i) = rsvdOf i

theorem geniv : Statement .geniv := ⟨opcodeField_append _ _, rsvdField_append _ _⟩
theorem pad : Statement .pad := ⟨opcodeField_append _ _, rsvdField_append _ _⟩
theorem unpad : Statement .unpad := ⟨opcodeField_append _ _, rsvdField_append _ _⟩
theorem encrypt : Statement .encrypt := ⟨opcodeField_append _ _, rsvdField_append _ _⟩
theorem decrypt : Statement .decrypt := ⟨opcodeField_append _ _, rsvdField_append _ _⟩
theorem encryptMsg : Statement .encryptMsg := ⟨opcodeField_append _ _, rsvdField_append _ _⟩
theorem decryptMsg : Statement .decryptMsg := ⟨opcodeField_append _ _, rsvdField_append _ _⟩
theorem clear : Statement .clear := ⟨opcodeField_append _ _, rsvdField_append _ _⟩
theorem illegal (opcode : BitVec 4) (rsvd : BitVec 28) : Statement (.illegal opcode rsvd) :=
  ⟨opcodeField_append _ _, rsvdField_append _ _⟩

end Sys2Proof.Laws.EncodeFields
end

