-- ==== Sys2Proof/Tests/Slice0.lean ====
section
/-! SUPPORT. Tests with expected values from spec/95_test_vectors.md, and a witness for the hypotheses of each statement. -/

namespace Sys2Proof.Tests

open Sys2Proof.Machine Sys2Proof.Safety

/-! ## Well-formedness and decoding -/

/-- A legal opcode with RSVD = 0 is no ILLEGAL word (R91 to R93). -/
theorem test_wellformed_refuses_legal_words_as_illegal :
    (Instr.illegal 1 0).wellFormed = false ∧ (Instr.illegal 3 0).wellFormed = false ∧
      (Instr.illegal 8 0).wellFormed = false ∧ (Instr.illegal 9 0).wellFormed = true ∧
      (Instr.illegal 0 0).wellFormed = true ∧ (Instr.illegal 3 1).wellFormed = true := by decide

/-- The eight command words of R91, bit by bit. -/
theorem test_decode_command_words :
    decodeWord 0b00000000000000000000000000000001#32 = .geniv ∧
    decodeWord 0b00000000000000000000000000000010#32 = .pad ∧
    decodeWord 0b00000000000000000000000000000011#32 = .unpad ∧
    decodeWord 0b00000000000000000000000000000100#32 = .encrypt ∧
    decodeWord 0b00000000000000000000000000000101#32 = .decrypt ∧
    decodeWord 0b00000000000000000000000000000110#32 = .encryptMsg ∧
    decodeWord 0b00000000000000000000000000000111#32 = .decryptMsg ∧
    decodeWord 0b00000000000000000000000000001000#32 = .clear := by decide

/-- V-ILL-1 to V-ILL-4: 0x10, 0, 9, 0xF and 0x80000004 are ILLEGAL. -/
theorem test_decode_illegal_words :
    decodeWord 0b00000000000000000000000000010000#32 = .illegal 0 1 ∧
    decodeWord 0b00000000000000000000000000000000#32 = .illegal 0 0 ∧
    decodeWord 0b00000000000000000000000000001001#32 = .illegal 9 0 ∧
    decodeWord 0b00000000000000000000000000001111#32 = .illegal 15 0 ∧
    decodeWord 0b10000000000000000000000000000100#32 = .illegal 4 0x8000000 := by decide

/-- A word as bytes, least significant first; too few bytes are refused by name. -/
theorem test_decode_bytes :
    decodeBytes [6, 0, 0, 0, 0xAA] = .ok (.encryptMsg, [0xAA]) ∧ decodeBytes [4, 0, 0, 0x80] = .ok (.illegal 4 0x8000000, []) ∧
      decodeBytes [6, 0, 0] = .error .truncated := by
  refine ⟨rfl, rfl, rfl⟩

theorem test_decode_table_word :
    decodeTableWord 32 7 = some .decryptMsg ∧ decodeTableWord 32 0x80000004 = some (.illegal 4 0x8000000) := by decide

/-! ## The states the tests run on -/

/-- What a completed command leaves, if it completed. -/
def left {α : Type} (r : Result) (f : State → α) : Option α :=
  match r with
  | .next t => some (f t)
  | .fault _ => none
  | .refused _ => none

/-- The report of a flow that ran to its end. -/
def left' {α : Type} (r : HostRun (Report α)) : Option (Report α) :=
  match r with
  | .next (a, _) => some a
  | .fault _ => none
  | .refused _ => none

/-- The state after reset with the inputs `l` waiting. -/
def idle (l : List Input) : State := State.reset.withInputs l

/-- "hello world" (G4). -/
def hello : List Byte := [0x68, 0x65, 0x6c, 0x6c, 0x6f, 0x20, 0x77, 0x6f, 0x72, 0x6c, 0x64]

/-- The V-PAD-3 bytes. -/
def helloPadded : List Byte := [0x68, 0x65, 0x6c, 0x6c, 0x6f, 0x20, 0x77, 0x6f, 0x72, 0x6c, 0x64, 5, 5, 5, 5, 5]

/-- The key words of Ks = Fit("secret") (section 0 of the vectors). -/
def keyKs : KeyRegs :=
  ⟨0x72636573, 0x30307465, 0x30303030, 0x30303030, 0x30303030, 0x30303030, 0x30303030, 0x30303030⟩

/-- The IV words of IVa = 00..0f. -/
def ivA : IvRegs := ⟨0x03020100, 0x07060504, 0x0B0A0908, 0x0F0E0D0C⟩

/-- A state with operands, the key Ks, IVa, and `b` in memory at the source. -/
def ready (src dst len : Word) (b : List Byte) : State :=
  { State.reset with
    srcAddr := src, dstAddr := dst, len := len, key := keyKs, keyWr := 0xFF, iv := ivA
    mem := Memory.writeBytes [] src.toNat b }

/-! ## One step of each command -/

/-- V-IV-1. -/
theorem test_geniv_loads_the_draw :
    left (exec .geniv { State.reset with entropy := [some 0x0F0E0D0C0B0A09080706050403020100] })
      (fun t => (t.errCode, t.iv, t.statusWord)) = some (0, ivA, 0x0000000A) := by decide

/-- V-IV-2: a failed draw keeps IVa and its freshness. -/
theorem test_geniv_failed_draw :
    left (exec .geniv { State.reset with entropy := [none], iv := ivA, ivFresh := true })
      (fun t => (t.errCode, t.iv, t.statusWord)) = some (8, ivA, 0x0000000A) := by decide

/-- V-PAD-3, and the source stays. -/
theorem test_pad_hello :
    left (exec .pad (ready 0x1000 0x2000 11 hello))
      (fun t => (t.outLen, t.padN, Memory.readBytes t.mem 0x2000 16, Memory.readBytes t.mem 0x1000 12)) =
      some (16, 5, helloPadded, hello ++ [0]) := by decide

/-- V-PAD-9 and V-PAD-11: RANGE_ERR at the top of memory, OVERLAP by one byte. -/
theorem test_pad_range_and_overlap :
    left (exec .pad (ready 0x1000 0xFFFFFFF0 16 [])) (fun t => t.errCode) = some 6 ∧
      left (exec .pad (ready 0x1000 0x100F 16 [])) (fun t => t.errCode) = some 7 ∧
      left (exec .pad (ready 0x1000 0x1010 16 [])) (fun t => t.errCode) = some 0 := by decide

/-- V-UNPAD-1 with the five bytes after the data left alone. -/
theorem test_unpad_hello :
    left (exec .unpad (ready 0x1000 0x2000 16 helloPadded))
      (fun t => (t.outLen, t.padN, Memory.readBytes t.mem 0x2000 12)) = some (11, 5, hello ++ [0]) := by decide

/-- V-UNPAD-7, V-UNPAD-10 and V-RANGE-3: the errors of UNPAD in their order. -/
theorem test_unpad_errors :
    left (exec .unpad (ready 0x1000 0x2000 16 (List.replicate 13 0 ++ [3, 2, 3]))) (fun t => (t.errCode, t.outLen)) =
        some (5, 0) ∧
      left (exec .unpad (ready 0x1000 0x2000 15 [])) (fun t => t.errCode) = some 5 ∧
      left (exec .unpad (ready 0xFFFFFFF8 0x1000 16 [])) (fun t => t.errCode) = some 6 := by decide

/-- V-ENC-9: the range may end at 2^32; the key is gone afterwards. -/
theorem test_encrypt_at_the_top :
    left (exec .encrypt { ready 0x1000 0xFFFFFFF0 16 helloPadded with ivEnforce := false })
      (fun t => (t.errCode, t.outLen, t.padN, t.keyWr, t.iv)) = some (0, 16, 0, 0, ivA) := by decide

/-- V-ENC-8 and V-ENC-11: NO_KEY before IV_STALE before CIPHER_ERR; a fresh IV survives CIPHER_ERR. -/
theorem test_encrypt_check_order :
    left (exec .encrypt { ready 0x1000 0x2000 17 [] with keyWr := 0 }) (fun t => t.errCode) = some 2 ∧
      left (exec .encrypt (ready 0x1000 0x2000 17 [])) (fun t => t.errCode) = some 3 ∧
      left (exec .encrypt { ready 0x1000 0x2000 17 [] with ivFresh := true }) (fun t => (t.errCode, t.ivFresh)) =
        some (4, true) := by decide

/-- V-DEC-5: DECRYPT asks for no fresh IV. -/
theorem test_decrypt_takes_any_iv :
    left (exec .decrypt (ready 0x1000 0x2000 16 [])) (fun t => (t.errCode, t.outLen, t.keyWr)) = some (0, 16, 0) := by
  decide

/-- V-RANGE-2 and V-DEC-6. -/
theorem test_decrypt_errors :
    left (exec .decrypt (ready 0x1000 0x1010 32 [])) (fun t => t.errCode) = some 7 ∧
      left (exec .decrypt (ready 0x1000 0x2000 0 [])) (fun t => (t.errCode, t.keyWr)) = some (4, 0) := by decide

/-- V-MSG-12: never IV_STALE; V-MSG-1's lengths and IV. -/
theorem test_encryptMsg_hello :
    left (exec .encryptMsg { ready 0x1000 0x2000 11 hello with iv := IvRegs.zero, entropy := [some (blockOfIv ivA)] })
      (fun t => (t.errCode, t.outLen, t.padN, t.iv, t.ivFresh, t.keyWr)) = some (0, 16, 5, ivA, false, 0) := by decide

/-- V-MSG-9 and V-MSG-14: a failed draw; OVERLAP before the draw. -/
theorem test_encryptMsg_errors :
    left (exec .encryptMsg { ready 0x1000 0x2000 11 hello with entropy := [none] }) (fun t => (t.errCode, t.iv)) =
        some (8, ivA) ∧
      left (exec .encryptMsg { ready 0x1000 0x100A 11 hello with entropy := [none] })
        (fun t => (t.errCode, t.entropy)) = some (7, [none]) := by decide

/-- V-MSG-10: a bad length is CIPHER_ERR, not PADDING_ERR. -/
theorem test_decryptMsg_bad_length :
    left (exec .decryptMsg (ready 0x1000 0x2000 17 [])) (fun t => t.errCode) = some 4 ∧
      left (exec .decryptMsg (ready 0x1000 0x2000 0 [])) (fun t => t.errCode) = some 4 := by decide

/-- P4: without the key reloaded, NO_KEY. -/
theorem test_decryptMsg_no_key :
    left (exec .decryptMsg { ready 0x1000 0x3000 16 [] with keyWr := 0 }) (fun t => (t.errCode, t.mem)) = some (2, []) := by
  decide

/-- V-CLR-1. -/
theorem test_clear :
    left (exec .clear (ready 0x1000 0x2000 16 [])) (fun t => (t.statusWord, t.iv, t.key, t.srcAddr, t.ivEnforce)) =
      some (0x00000002, IvRegs.zero, KeyRegs.zero, 0x1000, true) := by decide

/-- V-ILL-4: the key stays loaded. -/
theorem test_illegal_keeps_the_key :
    left (exec (decodeWord 0x80000004) (ready 0x1000 0x2000 16 [])) (fun t => (t.errCode, t.keyWr, t.key)) =
      some (1, 0xFF, keyKs) := by decide

/-! ## Steps at the register window -/

/-- V-REG-2 and V-REG-10: the reserved bits of CTRL are ignored and irq rises at once. -/
theorem test_ctrl_write :
    left (step { idle [wr 0x00 0xFFFFFFFF] with done := true }) (fun t => (t.ctrlWord, t.irq)) = some (3, true) := by decide

/-- V-REG-3 and V-REG-4. -/
theorem test_status_write :
    left (step { idle [wr 0x08 0x10] with done := true, busyViol := true }) (fun t => t.statusWord) = some 2 ∧
      left (step { idle [wr 0x08 0xFFFFFFFD] with done := true, busyViol := true, keyWr := 0x0F }) (fun t => t.statusWord) =
        some 0x0F02 := by decide

/-- V-REG-6 and V-REG-7: a write while busy is dropped and flagged. -/
theorem test_busy_write :
    left (step ((State.reset.issue 2).withInputs [wr 0x18 32])) (fun t => (t.len, t.busyViol)) = some (0, true) ∧
      left (step ((State.reset.issue 2).withInputs [wr 0x04 8])) (fun t => (t.cur.map (·.op), t.busyViol)) =
        some (some .pad, true) := by decide

/-- V-REG-9. -/
theorem test_bad_access :
    step (idle [.regRead 0x08 .half]) = .fault .hostBusError ∧ step (idle [.regWrite 0x02 .word 1]) = .fault .hostBusError :=
  ⟨rfl, rfl⟩

/-- R75, R246: the CMD write of a PAD that reaches a device stops; one that stops a byte short of it issues. -/
theorem test_cmd_at_a_device :
    step { ready 0x1000 0x2000 16 [] with platform := [⟨0x201F, 4, true, true, true⟩], inputs := [wr 0x04 2] } =
        .fault .sideEffectMemory ∧
      left (step { ready 0x1000 0x2000 16 [] with
        platform := [⟨0x2020, 4, true, true, true⟩], inputs := [wr 0x04 2] }) (fun t => t.busy) = some true := ⟨rfl, rfl⟩

/-- R271, R273: after a reset in the middle of ENCRYPT its buffers are still under the hazard rule. -/
theorem test_reset_keeps_the_hazard :
    left (step ((State.accept 4 (ready 0x1000 0x2000 32 [])).withInputs [.reset]))
      (fun t => (t.storeHazard 0x1000, t.loadHazard 0x2000, t.loadHazard 0x1000)) = some (true, true, false) := by decide

/-- V-REG-11: the key reads as 0. -/
theorem test_key_reads_zero :
    left (step { idle [rd 0x30] with key := keyKs, keyWr := 0xFF }) (fun t => t.reply) = some (.data 0) := by decide

/-- V-KEY-5: seven words of the key do not make it valid. -/
theorem test_partial_key :
    left (step { idle [wr 0x48 1] with keyWr := 0x3F }) (fun t => t.statusWord) = some 0x00007F00 := by decide

/-- V-IV-3: writing back the same value still clears IV_FRESH. -/
theorem test_iv_write_stale :
    left (step { idle [wr 0x50 0x03020100] with iv := ivA, ivFresh := true, done := true })
      (fun t => (t.iv, t.statusWord)) = some (ivA, 2) := by decide

/-- V-RST-1: reset in the middle of ENCRYPT. -/
theorem test_reset_while_busy :
    left (step (((ready 0x1000 0x2000 32 []).issue 4).withInputs [.reset])) (fun t => (t.statusWord, t.ctrlWord, t.key)) =
      some (0, 2, KeyRegs.zero) := by decide

/-- The first step after issuing the table's word for CLEAR at reset runs CLEAR. -/
theorem test_first_command_after_reset :
    left (step (State.reset.withFetchWord 32 8)) (fun t => (t.done, t.errCode)) = some (true, 0) := by decide

/-! ## The byte functions, under the vectors' toy cipher -/

/-- TOY.E with the first 16 key bytes `k`: the block xor `k`, rotated left by one byte (G5). -/
def toyE (k b : Block) : Block := (b ^^^ k).rotateRight 8

/-- TOY.D. -/
def toyD (k c : Block) : Block := c.rotateLeft 8 ^^^ k

/-- The first 16 bytes of Ks and of Kw, and IVa, as blocks. -/
def toyKs : Block := 0x30303030303030303030746572636573
def toyKw : Block := 0x303030303030303030302167_6e6f7277
def blockA : Block := 0x0F0E0D0C0B0A09080706050403020100

/-- The V-ENC-1 ciphertext. -/
def helloCipher : List Byte :=
  [0x01, 0x0d, 0x1d, 0x0e, 0x51, 0x41, 0x58, 0x4a, 0x55, 0x5e, 0x3e, 0x39, 0x38, 0x3b, 0x3a, 0x1b]

/-- V-ENC-1, V-DEC-1 and V-DEC-3. -/
theorem test_cbc_hello :
    cbcEncWith (toyE toyKs) blockA helloPadded = helloCipher ∧ cbcDecWith (toyD toyKs) blockA helloCipher = helloPadded ∧
      cbcDecWith (toyD toyKw) blockA helloCipher =
        [0x6c, 0x72, 0x60, 0x70, 0x6d, 0x75, 0x77, 0x6f, 0x72, 0x6c, 0x64, 5, 5, 5, 5, 5] := by decide

/-- V-ENC-2: two blocks. -/
theorem test_cbc_two_blocks :
    cbcEncWith (toyE toyKs) blockA ((List.range 32).map (BitVec.ofNat 8)) =
      [0x65, 0x63, 0x72, 0x65, 0x74, 0x30, 0x30, 0x30, 0x30, 0x30, 0x30, 0x30, 0x30, 0x30, 0x30, 0x73,
       0x17, 0x03, 0x04, 0x05, 0x51, 0x16, 0x17, 0x18, 0x19, 0x1a, 0x1b, 0x1c, 0x1d, 0x1e, 0x5c, 0x06] := by decide

/-- V-PAD-1, V-PAD-4 and V-PAD-5. -/
theorem test_padBytes :
    padBytes [] = List.replicate 16 0x10 ∧
      padBytes ((List.range 15).map (BitVec.ofNat 8)) = (List.range 15).map (BitVec.ofNat 8) ++ [1] ∧
      padBytes ((List.range 16).map (BitVec.ofNat 8)) =
        (List.range 16).map (BitVec.ofNat 8) ++ List.replicate 16 0x10 := by decide

/-- V-UNPAD-2, V-UNPAD-4, V-UNPAD-5, V-UNPAD-6 and V-UNPAD-8. -/
theorem test_unpadBytes :
    unpadBytes (List.replicate 15 0 ++ [1]) = some (List.replicate 15 0, 1) ∧
      unpadBytes (List.replicate 16 0x10) = some ([], 16) ∧ unpadBytes (List.replicate 16 0) = none ∧
      unpadBytes (List.replicate 15 0 ++ [0x11]) = none ∧ unpadBytes (List.replicate 14 0 ++ [3, 3]) = none := by decide

/-- V-KEY-2: the words of Fit("abc"). -/
theorem test_fit_words :
    wordAt (fit [0x61, 0x62, 0x63]) 0 = 0x30636261 ∧ wordAt (fit [0x61, 0x62, 0x63]) 7 = 0x30303030 ∧
      passphraseBytes ['a', 'b', 'c'] = [0x61, 0x62, 0x63] := by decide

/-- S3: 10, 33 and 16 bytes are refused, 32 are split. -/
theorem test_parse_lengths :
    parseEnvelope (List.replicate 10 0) = .error .formatError ∧ parseEnvelope (List.replicate 33 0) = .error .formatError ∧
      parseEnvelope (List.replicate 16 0) = .error .formatError ∧
      parseEnvelope (List.replicate 16 1 ++ List.replicate 16 2) = .ok (List.replicate 16 1, List.replicate 16 2) :=
  ⟨rfl, rfl, rfl, rfl⟩

/-- R227: the codes by name, a failed command reported with no file, and nothing done with an unreadable or malformed
envelope. -/
theorem test_failures_are_reported :
    [0, 1, 4, 5, 9, 10].map failureOf =
        [none, some (.engine .illegalCmd), some (.engine .cipherErr), some (.engine .paddingErr), some (.engine .busErr),
          some (.unnamed 10)] ∧
      left' (whenOk (writePlain true [] 0x2000) { idle [] with errCode := 5 }) =
        some ⟨false, "PaddingError", none, none⟩ ∧
      left' (decryptFile (some (List.replicate 33 0)) true [] [] 0x1000 0x2000 0 (idle [])) =
        some ⟨false, "FormatError", none, none⟩ ∧
      left' (decryptFile none true [] [] 0x1000 0x2000 0 (idle [])) = some ⟨false, "IOError", none, none⟩ := by decide

/-- R223 on the registers: the envelope is IVa and the OUT_LEN bytes at DST, written to the path of R228. -/
theorem test_envelope_is_formed :
    left' (sealEnvelope true ['a', '.', 'b'] 0x2000 { ready 0x2000 0 0 [7, 8] with outLen := 2 }) =
      some ⟨true, "", some ⟨"a_encrypted.b".toList, (List.range 16).map (BitVec.ofNat 8)⟩,
        some ("a_encrypted.b".toList, (List.range 16).map (BitVec.ofNat 8) ++ [7, 8])⟩ := by decide

/-- S5. -/
theorem test_encrypted_path :
    encryptedPath "a.b.c.png".toList = "a_encrypted.b.c.png".toList := by decide

/-! ## Witnesses: a state and operands that meet the hypotheses of each statement -/

/-- A state running command `op` over 16 bytes at 0x1000 into 0x2000, with the inputs `l` waiting. -/
def running (op : Instr) (l : List Input) : State :=
  ((ready 0x1000 0x2000 16 []).issue (encode op)).withInputs l

/-- Every engine access inside memory is admitted after reset. -/
theorem reset_admits (kind : AccessKind) (a n : Nat) (h : a + n ≤ 2 ^ 32) : admitted State.reset kind a n := by
  intro x _ h2
  have hx : x < 2 ^ 32 := by omega
  cases kind <;> simp [admits, State.reset, Range.contains, Region.allows, Config.memorySize] <;> omega

theorem witness_DecodeOfEncodeIsTheInstruction :
    (Instr.illegal 0 0).wellFormed = true ∧ (Instr.illegal 9 0).wellFormed = true ∧
      (Instr.illegal 15 0xFFFFFFF).wellFormed = true ∧ (Instr.illegal 8 1).wellFormed = true ∧
      Instr.clear.wellFormed = true := by decide

theorem witness_OpcodeMapIsTotal :
    (0#32 = 0#32 ∨ 9#32 ≤ 0#32) ∧ (9#32 = 0#32 ∨ 9#32 ≤ 9#32) ∧ (16#32 = 0#32 ∨ 9#32 ≤ 16#32) ∧
      (0xFFFFFFFF#32 = 0#32 ∨ 9#32 ≤ 0xFFFFFFFF#32) := by decide

theorem witness_ResetLeavesTheTable : (idle [.reset]).inputs = .reset :: [] ∧ (idle [.reset]).cur = none := ⟨rfl, rfl⟩

/-- The running PAD writes at most [0x2000, 0x2020). -/
theorem witness_ResetAbandonsTheCommand :
    (running .pad [.reset]).inputs = .reset :: [] ∧
      ∀ x ∈ [0x1FFF, 0x2020], ∀ c, (running .pad [.reset]).cur = some c → isMemoryCommand c.op = true →
        x < c.dst.toNat ∨ c.dst.toNat + maxout c.op c.len.toNat ≤ x := by
  refine ⟨rfl, ?_⟩
  intro x hx c hc _
  cases hc
  revert x
  decide

theorem witness_CtrlWriteSetsBothBits :
    (idle [wr 0x00 3]).inputs = .regWrite 0x00#8 .word 3 :: [] ∧ (idle [wr 0x00 3]).busy = false := ⟨rfl, rfl⟩

/-- Where the platform is that of reset, every command is pointed at ordinary memory. -/
theorem reset_ordinary (s : State) (i : Instr) (h : s.platform = State.reset.platform) : ordinary i s := by
  unfold ordinary
  rw [h]
  cases buffersOf i (s.operands i) <;> simp [touchesSideEffects, State.reset]

/-- The invariant holds of a running command. -/
theorem running_inv (op : Instr) (hw : (decodeWord (encode op)).wellFormed = true) (l : List Input) :
    Inv (running op l) where
  ordinaryCommand := fun c _ => reset_ordinary _ _ rfl
  memory := rfl
  code := show 0#4 ≤ 9#4 by decide
  padding := show 0#5 ≤ 16#5 by decide
  results := fun h => absurd rfl h
  chain := rfl
  exclusive := fun _ => rfl
  cleared := fun _ => ⟨rfl, rfl, rfl⟩
  latched := fun c hc => by cases hc; exact ⟨⟨rfl, rfl, rfl, rfl, rfl, rfl⟩, hw⟩
  keyWords := show ∀ j : Fin 8, (0xFF#8).getLsbD j.val = false → keyWord keyKs j = 0#32 by decide

theorem witness_StatusWriteClearsByOnes :
    (running .pad [wr 0x08 0x12]).inputs = .regWrite 0x08#8 .word 0x12 :: [] ∧ Inv (running .pad [wr 0x08 0x12]) ∧
      (running .pad [wr 0x08 0x12]).busy = true := ⟨rfl, running_inv _ (by decide) _, rfl⟩

/-- At CMD, at a reserved offset and at the last offset. -/
theorem witness_BusyWriteIsDropped :
    ∀ off ∈ [0x04#8, 0x24#8, 0xFC#8], (running .pad [wr off 8]).inputs = .regWrite off .word 8 :: [] ∧
      off.toNat % 4 = 0 ∧ off ≠ 0x08#8 ∧ (running .pad [wr off 8]).busy = true := by decide

/-- Every clause: the three read-only registers, the reserved offsets and both ends of the upper reserved range. -/
theorem witness_ReadOnlyAndReservedWritesAreIgnored :
    ∀ off ∈ [0x0C#8, 0x1C#8, 0x20#8, 0x24#8, 0x28#8, 0x2C#8, 0x60#8, 0xFC#8],
      (idle [wr off 5]).inputs = .regWrite off .word 5 :: [] ∧ off.toNat % 4 = 0 ∧
        (off = 0x0C#8 ∨ off = 0x1C#8 ∨ off = 0x20#8 ∨ off = 0x24#8 ∨ off = 0x28#8 ∨ off = 0x2C#8 ∨ 0x60#8 ≤ off) := by
  decide

theorem witness_OperandWriteTakesAnyValue :
    ∀ off ∈ [0x10#8, 0x14#8, 0x18#8], (idle [wr off 0xFFFFFFFF]).busy = false ∧
      (idle [wr off 0xFFFFFFFF]).inputs = .regWrite off .word 0xFFFFFFFF :: [] := by decide

theorem witness_KeyWriteSetsWordAndMask :
    ∀ j ∈ [(0 : Fin 8), 7],
      (idle [wr (0x30#8 + 4#8 * BitVec.ofNat 8 j.val) 9]).inputs =
          .regWrite (0x30#8 + 4#8 * BitVec.ofNat 8 j.val) .word 9 :: [] ∧
        (idle [wr (0x30#8 + 4#8 * BitVec.ofNat 8 j.val) 9]).busy = false := by decide

theorem witness_IvWriteClearsFreshness :
    ∀ j ∈ [(0 : Fin 4), 3],
      (idle [wr (0x50#8 + 4#8 * BitVec.ofNat 8 j.val) 9]).inputs =
          .regWrite (0x50#8 + 4#8 * BitVec.ofNat 8 j.val) .word 9 :: [] ∧
        (idle [wr (0x50#8 + 4#8 * BitVec.ofNat 8 j.val) 9]).busy = false := by decide

theorem witness_LdkeyLoadsTheKey :
    (fit hello).length = 32 ∧ (idle (ldkey (fit hello) ++ [.fence])).busy = false ∧
      (idle (ldkey (fit hello) ++ [.fence])).inputs = ldkey (fit hello) ++ [.fence] := ⟨rfl, rfl, rfl⟩

/-- The IV read while DECRYPT runs, CTRL read while GENIV runs, and ERRCODE read while busy. -/
theorem witness_ReadsReturnTheRegisters :
    ((running .decrypt [rd 0x50]).inputs = .regRead 0x50#8 .word :: [] ∧ (0x50#8).toNat % 4 = 0 ∧
        ∀ c, (running .decrypt [rd 0x50]).cur = some c → c.op ≠ .geniv ∧ c.op ≠ .encryptMsg ∧ c.op ≠ .clear) ∧
      ((running .geniv [rd 0x00]).inputs = .regRead 0x00#8 .word :: [] ∧ ¬(0x50#8 ≤ 0x00#8)) ∧
      (running .pad [rd 0x0C]).inputs = .regRead 0x0C#8 .word :: [] ∧ Inv (running .pad [rd 0x0C]) ∧
        (running .pad [rd 0x0C]).busy = true := by
  refine ⟨⟨rfl, rfl, ?_⟩, ⟨rfl, by decide⟩, rfl, running_inv _ (by decide) _, rfl⟩
  intro c hc
  cases hc
  decide

theorem witness_IvReadDuringCommandIsOldOrNew :
    ∀ op ∈ [Instr.geniv, .encryptMsg, .clear], ∀ j ∈ [(0 : Fin 4), 3],
      (running op [rd (0x50#8 + 4#8 * BitVec.ofNat 8 j.val)]).inputs =
          .regRead (0x50#8 + 4#8 * BitVec.ofNat 8 j.val) .word :: [] ∧
        (running op [rd (0x50#8 + 4#8 * BitVec.ofNat 8 j.val)]).cur.map (·.op) = some op := by decide

theorem witness_ReadsDoNotRevealTheKey :
    (running .encryptMsg [rd 0x50]).inputs = .regRead 0x50#8 .word :: [] ∧
      (idle [.regRead 0x30 .byte]).inputs = .regRead 0x30#8 .byte :: [] := ⟨rfl, rfl⟩

theorem witness_BadWindowAccessFaults :
    (Width.half ≠ .word ∨ (0x08#8).toNat % 4 ≠ 0) ∧ (Width.word ≠ .word ∨ (0x01#8).toNat % 4 ≠ 0) ∧
      (Width.word ≠ .word ∨ (0xFF#8).toNat % 4 ≠ 0) ∧
      (idle [.regWrite 0x01 .word 7]).inputs = .regWrite 0x01#8 .word 7 :: [] ∧
      (idle [.regRead 0x08 .half]).inputs = .regRead 0x08#8 .half :: [] := by decide

theorem witness_IrqIsDoneAndIe : (idle [.senseIrq]).inputs = .senseIrq :: [] := rfl

/-- A PAD over [0x1000, 0x1010) with a store waiting for its fence just outside. -/
theorem witness_CmdWriteIssuesTheCommand :
    let s := { ready 0x1000 0x2000 16 [] with inputs := [wr 0x04 2], unfenced := [0x0FFF, 0x1010] }
    s.inputs = .regWrite 0x04#8 .word 2 :: [] ∧ s.busy = false ∧ fenced 2 s ∧ ordinary (decodeWord 2) s := by
  refine ⟨rfl, rfl, ?_, reset_ordinary _ _ rfl⟩
  intro b hb
  cases hb
  decide

/-- The first and the last source byte. -/
theorem witness_IssueWithoutFenceFaults :
    ∀ a ∈ [0x1000, 0x100F],
      let s := { ready 0x1000 0x2000 16 [] with inputs := [wr 0x04 2], unfenced := [a] }
      s.inputs = .regWrite 0x04#8 .word 2 :: [] ∧ s.busy = false ∧ isMemoryCommand (decodeWord 2) = true ∧
        a ∈ s.unfenced ∧ s.srcAddr.toNat ≤ a ∧ a < s.srcAddr.toNat + s.len.toNat := by decide

theorem witness_StepRunsTheDecodedCommand :
    ((idle []).cur = none ∧ (idle []).inputs = []) ∧
      ((running .pad []).cur ≠ none ∧ (running .pad []).inputs = []) ∧
      ((running .pad [.engine, .fence]).cur ≠ none ∧ (running .pad [.engine, .fence]).inputs = .engine :: [.fence]) ∧
      ((idle [wr 0x04 2, .engine]).inputs = .regWrite 0x04#8 .word 2 :: .engine :: [] ∧
        (idle [wr 0x04 2, .engine]).busy = false ∧ fenced 2 (idle [wr 0x04 2, .engine]) ∧
        ordinary (decodeWord 2) (idle [wr 0x04 2, .engine])) := by
  refine ⟨⟨rfl, rfl⟩, ⟨by decide, rfl⟩, ⟨by decide, rfl⟩, rfl, rfl, ?_, reset_ordinary _ _ rfl⟩
  intro b _ a ha
  cases ha

theorem witness_EngineTurnCompletesTheCommand :
    ((running .pad []).cur.isSome = true ∧ (running .pad []).inputs = []) ∧
      ((running .pad [.engine]).cur.isSome = true ∧ (running .pad [.engine]).inputs.head? = some .engine) := by decide

theorem witness_OnlyCompletionOrResetEndsACommand :
    (running .pad [.fence]).cur.isSome = true ∧ ∃ t, step (running .pad [.fence]) = .next t := ⟨rfl, _, rfl⟩

/-- The first and last byte of the source and of the maximal destination range of a running PAD. -/
theorem witness_HostAccessToBusyBuffersFaults :
    ∀ a ∈ [0x1000#32, 0x100F#32, 0x2000#32, 0x201F#32],
      ∃ c, (running .pad [.memStore a 1]).cur = some c ∧ (running .pad [.memLoad a]).cur = some c ∧
        isMemoryCommand c.op = true ∧ (running .pad [.memStore a 1]).isDevice a.toNat = false ∧
        ((c.src.toNat ≤ a.toNat ∧ a.toNat < c.src.toNat + c.len.toNat) ∨
          (c.dst.toNat ≤ a.toNat ∧ a.toNat < c.dst.toNat + maxout c.op c.len.toNat)) ∧
        (running .pad [.memStore a 1]).inputs = .memStore a 1 :: [] ∧
        (running .pad [.memLoad a]).inputs = .memLoad a :: [] := by
  intro a ha
  simp only [List.mem_cons, List.not_mem_nil, or_false] at ha
  rcases ha with rfl | rfl | rfl | rfl <;> exact ⟨_, rfl, rfl, rfl, rfl, by decide, rfl, rfl⟩

/-- The window of R273: the issue of a PAD, its buffers on the list after completion at the first and last byte of each
range, and the two observations that take them off, each with one that does not. -/
theorem witness_HostAccessToBusyBuffersFaults_window :
    (let s := { ready 0x1000 0x2000 16 [] with inputs := [wr 0x04 2] };
      s.inputs = .regWrite 0x04#8 .word 2 :: [] ∧ s.busy = false ∧ fenced 2 s ∧ ordinary (decodeWord 2) s ∧
        isMemoryCommand (decodeWord 2) = true) ∧
    (∀ a ∈ [0x1000#32, 0x100F#32, 0x2000#32, 0x201F#32],
      let p : Buffers := ⟨⟨0x1000, 16⟩, ⟨0x2000, 32⟩⟩
      let s := { idle [.memStore a 1] with pending := [p] }
      p ∈ s.pending ∧ s.isDevice a.toNat = false ∧ s.inputs = .memStore a 1 :: [] ∧
        ((p.src.base ≤ a.toNat ∧ a.toNat < p.src.base + p.src.size) ∨
          (p.dst.base ≤ a.toNat ∧ a.toNat < p.dst.base + p.dst.size))) ∧
    ∀ e ∈ [rd 0x08, .senseIrq, .reset, .fence],
      let p : Buffers := ⟨⟨0x1000, 16⟩, ⟨0x2000, 32⟩⟩
      let s := { idle [e] with pending := [p], done := true, ie := true }
      p ∈ s.pending ∧ left (step s) (fun t => decide (p ∈ t.pending)) = some (decide (e = .reset ∨ e = .fence)) := by
  refine ⟨⟨rfl, rfl, ?_, reset_ordinary _ _ rfl, rfl⟩, ?_, ?_⟩
  · intro b _ a ha
    cases ha
  · intro a ha
    simp only [List.mem_cons, List.not_mem_nil, or_false] at ha
    rcases ha with rfl | rfl | rfl | rfl <;> exact ⟨List.mem_singleton.2 rfl, rfl, rfl, by decide⟩
  · intro e he
    simp only [List.mem_cons, List.not_mem_nil, or_false] at he
    rcases he with rfl | rfl | rfl | rfl <;> exact ⟨List.mem_singleton.2 rfl, by decide⟩

theorem witness_DestinationReadNeedsAFence :
    ∀ a ∈ [0x2000#32, 0x201F#32], ∀ l ∈ [[rd 0x08, .memLoad a], [rd 0x08, .fence, .memLoad a]],
      let b : Buffers := ⟨⟨0x1000, 16⟩, ⟨0x2000, 32⟩⟩
      let s := { idle l with pending := [b] }
      s.busy = false ∧ b ∈ s.pending ∧ b.dst.base ≤ a.toNat ∧ a.toNat < b.dst.base + b.dst.size ∧
        s.isDevice a.toNat = false ∧ s.inputs = l := by
  intro a ha l hl
  simp only [List.mem_cons, List.not_mem_nil, or_false] at ha
  refine ⟨rfl, List.mem_singleton.2 rfl, ?_, ?_, ?_, rfl⟩ <;> rcases ha with rfl | rfl <;> first
    | rfl
    | decide

theorem witness_HostStoreWritesOneByte :
    let s := running .pad [.memStore 0x2020 1]
    s.inputs = .memStore 0x2020 1 :: [] ∧ s.isDevice 0x2020 = false ∧ s.storeHazard 0x2020 = false := by decide

theorem witness_GenivDrawsAFreshIv :
    State.nextDraw { State.reset with entropy := [some 7] } = some 7 ∧
      State.nextDraw { State.reset with entropy := [none] } = none := ⟨rfl, rfl⟩

/-- An empty source, and a destination that ends at 2^32. -/
theorem witness_PadWritesThePaddedSource :
    ∀ p ∈ [(0x2000#32, 0#32), (0xFFFFFFF0#32, 11#32)],
      let s := ready 0x1000 p.1 p.2 []
      let c := s.operands .pad
      ordinary .pad s ∧ fits .pad c ∧ admitted s .read c.src.toNat c.len.toNat ∧
        admitted s .write c.dst.toNat (c.len.toNat + padlen c.len.toNat) := by
  intro p hp
  simp only [List.mem_cons, List.not_mem_nil, or_false] at hp
  rcases hp with rfl | rfl <;>
    exact ⟨by unfold ordinary; decide, by unfold fits; decide, reset_admits _ _ _ (by decide),
      reset_admits _ _ _ (by decide)⟩

theorem witness_UnpadRemovesThePadding :
    let s := ready 0x1000 0x2000 16 helloPadded
    let c := s.operands .unpad
    ordinary .unpad s ∧ fits .unpad c ∧
      unpadBytes (Memory.readBytes s.mem c.src.toNat c.len.toNat) = some (hello, 5) ∧
      admitted s .read c.src.toNat c.len.toNat ∧ admitted s .write c.dst.toNat (c.len.toNat - 5) :=
  ⟨by unfold ordinary; decide, by unfold fits; decide, by decide, reset_admits _ _ _ (by decide),
    reset_admits _ _ _ (by decide)⟩

/-- Both ways to an acceptable IV: fresh, or enforcement off. -/
theorem witness_EncryptWritesTheCbcCiphertext :
    ∀ p ∈ [(true, true), (false, false)],
      let s := { ready 0x1000 0xFFFFFFF0 16 helloPadded with ivEnforce := p.1, ivFresh := p.2 }
      let c := s.operands .encrypt
      ordinary .encrypt s ∧ s.keyWr = 0xFF#8 ∧ (c.ivEnforce = false ∨ s.ivFresh = true) ∧ aligned c ∧ fits .encrypt c ∧
        admitted s .read c.src.toNat c.len.toNat ∧ admitted s .write c.dst.toNat c.len.toNat := by
  intro p hp
  simp only [List.mem_cons, List.not_mem_nil, or_false] at hp
  rcases hp with rfl | rfl <;>
    exact ⟨by unfold ordinary; decide, rfl, by decide, by unfold aligned; decide, by unfold fits; decide,
      reset_admits _ _ _ (by decide), reset_admits _ _ _ (by decide)⟩

/-- In place. -/
theorem witness_DecryptWritesTheCbcPlaintext :
    let s := ready 0x1000 0x1000 32 []
    let c := s.operands .decrypt
    ordinary .decrypt s ∧ s.keyWr = 0xFF#8 ∧ aligned c ∧ fits .decrypt c ∧
      admitted s .read c.src.toNat c.len.toNat ∧ admitted s .write c.dst.toNat c.len.toNat :=
  ⟨by unfold ordinary; decide, rfl, by unfold aligned; decide, by unfold fits; decide, reset_admits _ _ _ (by decide),
    reset_admits _ _ _ (by decide)⟩

/-- ENCRYPT_MSG of "hello world" under Ks with the draw IVa (S4). -/
def sealed : State := { ready 0x1000 0x100B 11 hello with entropy := [some blockA] }

theorem witness_EncryptMsgPadsDrawsAndEncrypts :
    let c := sealed.operands .encryptMsg
    ordinary .encryptMsg sealed ∧ sealed.keyWr = 0xFF#8 ∧ fits .encryptMsg c ∧ sealed.nextDraw = some blockA ∧
      admitted sealed .read c.src.toNat c.len.toNat ∧
      admitted sealed .write c.dst.toNat (c.len.toNat + padlen c.len.toNat) :=
  ⟨by unfold ordinary; decide, rfl, by unfold fits; decide, rfl, reset_admits _ _ _ (by decide),
    reset_admits _ _ _ (by decide)⟩

theorem witness_EncryptMsgDrawFailure :
    let s := { ready 0x1000 0x2000 0 [] with entropy := [none] }
    ordinary .encryptMsg s ∧ s.keyWr = 0xFF#8 ∧ fits .encryptMsg (s.operands .encryptMsg) ∧ s.nextDraw = none :=
  ⟨by unfold ordinary; decide, rfl, by unfold fits; decide, rfl⟩

/-- What ENCRYPT_MSG on `sealed` leaves. -/
def sealedAfter : State :=
  (sealed.dropDraw.setIv blockA false).writeOut .encryptMsg (sealed.operands .encryptMsg)
    (cbcEnc (keyOfRegs keyKs) blockA helloPadded) 5

theorem sealed_completes : exec .encryptMsg sealed = .next sealedAfter := by
  have h := witness_EncryptMsgPadsDrawsAndEncrypts
  rw [encryptMsg_runs h.1 h.2.1 h.2.2.1]
  rfl

theorem sealedAfter_eq :
    sealedAfter =
      ((sealed.dropDraw.setIv blockA false).store 0x100B (cbcEnc (keyOfRegs keyKs) blockA helloPadded)).finish
        .encryptMsg 0#4 16 5 := by
  have hl : (cbcEnc (keyOfRegs keyKs) blockA helloPadded).length = 16 := by rw [cbcEnc_length]; rfl
  rw [sealedAfter, writeOut_admitted (s := sealed.dropDraw.setIv blockA false) (reset_admits _ _ _ (by decide)) (reset_admits _ _ _ (by rw [hl]; decide)), hl]
  rfl

/-- The state the host builds to decrypt what `sealed` wrote: the key loaded again, the IV kept. -/
def opened : State :=
  { sealedAfter with key := keyKs, keyWr := 0xFF, srcAddr := 0x100B, dstAddr := 0x3000, len := 16 }

theorem opened_mem : opened.mem = Memory.writeBytes sealed.mem 0x100B (cbcEnc (keyOfRegs keyKs) blockA helloPadded) := by
  show sealedAfter.mem = _
  rw [sealedAfter_eq]
  rfl

theorem opened_iv : blockOfIv opened.iv = blockA := by
  show blockOfIv sealedAfter.iv = _
  rw [sealedAfter_eq]
  rfl

theorem opened_cur : opened.cur = none := by
  show sealedAfter.cur = _
  rw [sealedAfter_eq]
  rfl

theorem opened_platform : opened.platform = State.reset.platform := by
  show sealedAfter.platform = _
  rw [sealedAfter_eq]
  rfl

theorem opened_admits (kind : AccessKind) (a n : Nat) (h : a + n ≤ 2 ^ 32) : admitted opened kind a n := by
  intro x h1 h2
  rw [opened_platform]
  exact reset_admits kind a n h x h1 h2

theorem opened_operands :
    opened.operands .decryptMsg = ⟨.decryptMsg, 0x100B, 0x3000, 16, opened.ivEnforce, keyOfRegs keyKs, blockA⟩ := by
  simp only [State.operands, opened_cur, Option.getD_none, State.latch, opened_iv]
  rfl

theorem opened_decrypts :
    cbcDec (keyOfRegs keyKs) blockA (Memory.readBytes opened.mem 0x100B 16) = helloPadded := by
  have hl : (cbcEnc (keyOfRegs keyKs) blockA helloPadded).length = 16 := by rw [cbcEnc_length]; rfl
  have h := Memory.readBytes_writeBytes sealed.mem 0x100B (cbcEnc (keyOfRegs keyKs) blockA helloPadded)
  rw [hl, ← opened_mem] at h
  rw [h, cbcDec, cbcEnc, cbcDecWith, cbcEncWith, toBlocks_ofBlocks,
    cbcDecBlocks_cbcEncBlocks (decryptBlock_encryptBlock _), ofBlocks_toBlocks _ (by decide)]

theorem witness_DecryptMsgDecryptsAndUnpads :
    let c := opened.operands .decryptMsg
    let l := c.len.toNat
    ordinary .decryptMsg opened ∧ opened.keyWr = 0xFF#8 ∧ aligned c ∧ fits .decryptMsg c ∧
      unpadBytes (cbcDec c.key c.iv (Memory.readBytes opened.mem c.src.toNat l)) = some (hello, 5) ∧
      admitted opened .read c.src.toNat l ∧ admitted opened .write c.dst.toNat (l - 5) := by
  simp only [ordinary, opened_operands, opened_platform]
  refine ⟨by decide, rfl, by unfold aligned; decide, by unfold fits; decide, ?_, opened_admits _ _ _ (by decide),
    opened_admits _ _ _ (by decide)⟩
  exact (congrArg unpadBytes opened_decrypts).trans (by decide)

theorem witness_WrongKeyIsDetectedOnlyByPadding :
    let s := ready 0x1000 0x2000 16 []
    let c := s.operands .decryptMsg
    ordinary .decryptMsg s ∧ s.keyWr = 0xFF#8 ∧ aligned c ∧ fits .decryptMsg c ∧
      admitted s .read c.src.toNat c.len.toNat ∧ admitted s .write c.dst.toNat c.len.toNat :=
  ⟨by unfold ordinary; decide, rfl, by unfold aligned; decide, by unfold fits; decide, reset_admits _ _ _ (by decide),
    reset_admits _ _ _ (by decide)⟩

/-- One state per check of R242: NO_KEY, IV_STALE, CIPHER_ERR, PADDING_ERR, RANGE_ERR by one byte, OVERLAP by one byte. -/
theorem witness_FirstFailingCheckIsReported :
    ∀ p ∈ [(Instr.encrypt, { ready 0x1000 0x2000 17 [] with keyWr := 0xFE }, Error.noKey),
        (.encrypt, ready 0x1000 0x2000 17 [], .ivStale), (.decrypt, ready 0x1000 0x2000 17 [], .cipherErr),
        (.unpad, ready 0x1000 0x2000 15 [], .paddingErr), (.pad, ready 0x1000 0xFFFFFFF1 0 [], .rangeErr),
        (.encryptMsg, ready 0x1000 0x100A 11 [], .overlap)],
      (buffersOf p.1 (p.2.1.operands p.1)).any (touchesSideEffects p.2.1.platform) = false ∧
        firstError (checks p.1 (p.2.1.operands p.1) p.2.1) = some p.2.2 := by decide

/-- Memory up to 0x2000 alone is admitted. -/
def walled (len : Word) (b : List Byte) : State :=
  { ready 0x1000 0x2000 len b with
    platform := [⟨0, 0x2000, true, true, false⟩], ivFresh := true, entropy := [some 3] }

theorem walled_refuses (len : Word) (b : List Byte) (n : Nat) : ¬admitted (walled len b) .write 0x2000 (n + 1) := by
  intro h
  exact absurd (h 0x2000 (by omega) (by omega))
    (show ¬admits [⟨0, 0x2000, true, true, false⟩] .write 0x2000 = true by decide)

theorem witness_BusErrorSparesEverythingOutside :
    ∀ i ∈ [Instr.pad, .encrypt, .decrypt, .encryptMsg],
      let s := walled 16 []
      let c := s.operands i
      (i = .pad ∨ i = .encrypt ∨ i = .decrypt ∨ i = .encryptMsg) ∧ ordinary i s ∧ firstError (checks i c s) = none ∧
        s.nextDraw ≠ none ∧
        ¬(admitted s .read c.src.toNat c.len.toNat ∧ admitted s .write c.dst.toNat (maxout i c.len.toNat)) := by
  intro i hi
  simp only [List.mem_cons, List.not_mem_nil, or_false] at hi
  rcases hi with rfl | rfl | rfl | rfl <;>
    refine ⟨by decide, by unfold ordinary; decide, by decide, by decide, fun h => ?_⟩
  · exact walled_refuses 16 [] 31 h.2
  · exact walled_refuses 16 [] 15 h.2
  · exact walled_refuses 16 [] 15 h.2
  · exact walled_refuses 16 [] 31 h.2

/-- V-UNPAD-5; V-UNPAD-14; and valid padding into memory that is not admitted. -/
theorem witness_PaddingAndBusErrors :
    (ordinary .unpad (ready 0x1000 0x2000 16 []) ∧
        firstError (checks .unpad ((ready 0x1000 0x2000 16 []).operands .unpad) (ready 0x1000 0x2000 16 [])) = none ∧
        content .unpad ((ready 0x1000 0x2000 16 []).operands .unpad) (ready 0x1000 0x2000 16 []) = none ∧
        admitted (ready 0x1000 0x2000 16 []) .read 0x1000 16) ∧
      (ordinary .unpad { walled 16 [] with srcAddr := 0x1FF3, dstAddr := 0x1000 } ∧
        firstError (checks .unpad
          (State.operands .unpad { walled 16 [] with srcAddr := 0x1FF3, dstAddr := 0x1000 })
          { walled 16 [] with srcAddr := 0x1FF3, dstAddr := 0x1000 }) = none ∧
        content .unpad (State.operands .unpad { walled 16 [] with srcAddr := 0x1FF3, dstAddr := 0x1000 })
          { walled 16 [] with srcAddr := 0x1FF3, dstAddr := 0x1000 } = none ∧
        ¬admitted { walled 16 [] with srcAddr := 0x1FF3, dstAddr := 0x1000 } .read 0x1FF3 16) ∧
      (ordinary .unpad (walled 16 helloPadded) ∧
        firstError (checks .unpad ((walled 16 helloPadded).operands .unpad) (walled 16 helloPadded)) = none ∧
        content .unpad ((walled 16 helloPadded).operands .unpad) (walled 16 helloPadded) = some (hello, 5) ∧
        ¬(admitted (walled 16 helloPadded) .read 0x1000 16 ∧ admitted (walled 16 helloPadded) .write 0x2000 11)) := by
  refine ⟨⟨by unfold ordinary; decide, by decide, by decide, reset_admits _ _ _ (by decide)⟩,
    ⟨by unfold ordinary; decide, by decide, by decide, fun h => ?_⟩,
    by unfold ordinary; decide, by decide, by decide, fun h => walled_refuses _ _ 10 h.2⟩
  exact absurd (h 0x2000 (by omega) (by omega)) (by decide)

/-- A source that holds the encryption of `x` under Ks and IVa, on a platform that admits what `p` says. -/
def enciphered (x : List Byte) (p : List Region) : State :=
  { ready 0x1000 0x2000 16 (cbcEnc (keyOfRegs keyKs) blockA x) with platform := p }

/-- DECRYPT_MSG on it looks at the padding of `x`. -/
theorem enciphered_content (x : List Byte) (hx : x.length = 16) (p : List Region) :
    content .decryptMsg ((enciphered x p).operands .decryptMsg) (enciphered x p) = unpadBytes x := by
  have hl : (cbcEnc (keyOfRegs keyKs) blockA x).length = 16 := by rw [cbcEnc_length, hx]
  have h := Memory.readBytes_writeBytes [] 0x1000 (cbcEnc (keyOfRegs keyKs) blockA x)
  rw [hl] at h
  show unpadBytes (cbcDec (keyOfRegs keyKs) (blockOfIv ivA)
    (Memory.readBytes (Memory.writeBytes [] 0x1000 (cbcEnc (keyOfRegs keyKs) blockA x)) 0x1000 16)) = _
  rw [show blockOfIv ivA = blockA by decide, h, cbcDec, cbcEnc, cbcDecWith, cbcEncWith, toBlocks_ofBlocks,
    cbcDecBlocks_cbcEncBlocks (decryptBlock_encryptBlock _), ofBlocks_toBlocks _ (by rw [hx])]

/-- The three clauses for DECRYPT_MSG: a bad padding admitted, the same with the last source byte refused, and a good one
with the first destination byte refused. -/
theorem witness_PaddingAndBusErrors_decryptMsg :
    (∀ q ∈ [(List.replicate 16 (0 : Byte), State.reset.platform), (List.replicate 16 0, [⟨0, 0x100F, true, true, false⟩]),
        (helloPadded, [⟨0, 0x2000, true, true, false⟩])],
      ordinary .decryptMsg (enciphered q.1 q.2) ∧
        firstError (checks .decryptMsg ((enciphered q.1 q.2).operands .decryptMsg) (enciphered q.1 q.2)) = none ∧
        content .decryptMsg ((enciphered q.1 q.2).operands .decryptMsg) (enciphered q.1 q.2) = unpadBytes q.1) ∧
      unpadBytes (List.replicate 16 (0 : Byte)) = none ∧ unpadBytes helloPadded = some (hello, 5) ∧
      admitted (enciphered (List.replicate 16 0) State.reset.platform) .read 0x1000 16 ∧
      ¬admitted (enciphered (List.replicate 16 0) [⟨0, 0x100F, true, true, false⟩]) .read 0x1000 16 ∧
      ¬admitted (enciphered helloPadded [⟨0, 0x2000, true, true, false⟩]) .write 0x2000 11 := by
  refine ⟨?_, by decide, by decide, reset_admits _ _ _ (by decide), fun h => ?_, fun h => ?_⟩
  · intro q hq
    simp only [List.mem_cons, List.not_mem_nil, or_false] at hq
    rcases hq with rfl | rfl | rfl <;>
      exact ⟨by unfold ordinary; decide, by decide, enciphered_content _ (by decide) _⟩
  · exact absurd (h 0x100F (by omega) (by omega))
      (show ¬admits [⟨0, 0x100F, true, true, false⟩] .read 0x100F = true by decide)
  · exact absurd (h 0x2000 (by omega) (by omega))
      (show ¬admits [⟨0, 0x2000, true, true, false⟩] .write 0x2000 = true by decide)

theorem witness_CodesOfEachCommand :
    (∃ t, exec .clear (idle []) = .next t) ∧ ∃ t, exec (.illegal 0 0) (idle []) = .next t := ⟨⟨_, rfl⟩, _, rfl⟩

/-- A device that PAD would write to, one that it stops short of by a byte, and the CMD write of the first. -/
theorem witness_OnlySideEffectMemoryStopsACommand :
    ¬ordinary .pad { ready 0x1000 0x2000 16 [] with platform := [⟨0x201F, 4, true, true, true⟩] } ∧
      ordinary .pad { ready 0x1000 0x2000 16 [] with platform := [⟨0x2020, 4, true, true, true⟩] } ∧
      (let s := { ready 0x1000 0x2000 16 [] with
          platform := [⟨0x201F, 4, true, true, true⟩], inputs := [wr 0x04 2], unfenced := [0x1010] };
        s.inputs = .regWrite 0x04#8 .word 2 :: [] ∧ s.busy = false ∧ fenced 2 s ∧ ¬ordinary (decodeWord 2) s) := by
  refine ⟨by unfold ordinary; decide, by unfold ordinary; decide, rfl, rfl, ?_, by unfold ordinary; decide⟩
  intro b hb
  cases hb
  decide

/-- A completion with OK, one with ILLEGAL_CMD and one with NO_KEY. -/
theorem witness_CommandsChangeOnlyWhatTheirRulesName :
    (∃ t, exec .clear (idle []) = .next t ∧ t.errCode = 0#4) ∧
      (∃ t, exec (.illegal 0 0) (idle []) = .next t ∧ t.errCode ≠ 0#4 ∧ t.errCode ≠ 9#4) ∧
      ∃ t, exec .decrypt (idle []) = .next t ∧ t.errCode ≠ 0#4 ∧ t.errCode ≠ 9#4 :=
  ⟨⟨_, rfl, rfl⟩, ⟨_, rfl, by decide, by decide⟩, _, rfl, by decide, by decide⟩

theorem witness_KeyedCommandsZeroiseTheKey :
    (∃ t, exec .encrypt (idle []) = .next t) ∧ isKeyed .encrypt = true ∧
      (∃ t, exec (.illegal 0 0) (ready 0 0 0 []) = .next t) ∧ isKeyed (.illegal 0 0) = false ∧
      Instr.illegal 0 0 ≠ .clear ∧ isKeyed .clear = false := ⟨⟨_, rfl⟩, rfl, ⟨_, rfl⟩, rfl, by decide, rfl⟩

theorem witness_PaddingLaws : unpadBytes helloPadded = some (hello, 5) := by decide

/-- No block, and the first and last of two blocks. -/
theorem witness_CbcEncryptionChains :
    ([] : List Byte).length % 16 = 0 ∧ (helloPadded ++ helloCipher).length % 16 = 0 ∧
      0 < (helloPadded ++ helloCipher).length / 16 ∧ 1 < (helloPadded ++ helloCipher).length / 16 := by decide

theorem witness_CbcDecryptionChainsAndInverts :
    helloCipher.length % 16 = 0 ∧ 0 < helloCipher.length / 16 := by decide

theorem witness_UnpadReadsOnlyTheLastBlock :
    (16 ≤ helloPadded.length ∧ helloPadded.length % 16 = 0) ∧
      16 ≤ (helloCipher ++ helloPadded).length ∧ (helloCipher ++ helloPadded).length % 16 = 0 := by decide

theorem witness_MessageRoundTrip :
    let c := sealed.operands .encryptMsg
    let d := opened.operands .decryptMsg
    let l := c.len.toNat
    exec .encryptMsg sealed = .next sealedAfter ∧ sealedAfter.errCode = 0#4 ∧ d.key = c.key ∧ opened.keyWr = 0xFF#8 ∧
      d.iv = blockOfIv sealedAfter.iv ∧ d.len.toNat = l + padlen l ∧
      Memory.readBytes opened.mem d.src.toNat (l + padlen l) =
        Memory.readBytes sealedAfter.mem c.dst.toNat (l + padlen l) ∧
      ordinary .decryptMsg opened ∧ fits .decryptMsg d ∧ admitted opened .read d.src.toNat (l + padlen l) ∧
      admitted opened .write d.dst.toNat l := by
  have hiv : blockOfIv sealedAfter.iv = blockA := opened_iv
  simp only [ordinary, opened_operands, opened_platform, hiv]
  refine ⟨sealed_completes, by rw [sealedAfter_eq]; rfl, rfl, rfl, trivial, by decide, rfl, by decide, by unfold fits; decide,
    opened_admits _ _ _ (by decide), opened_admits _ _ _ (by decide)⟩

/-- The smallest and the largest length that wrap. -/
theorem witness_OutLenWrapsOnlyAtTheTop :
    ∀ len ∈ [0xFFFFFFF0#32, 0xFFFFFFFF#32],
      let s := ready 0 0 len []
      let c := s.operands .pad
      2 ^ 32 - 16 ≤ c.len.toNat ∧ ordinary .pad s ∧ fits .pad c ∧ admitted s .read 0 c.len.toNat ∧
        admitted s .write 0 (2 ^ 32) := by
  intro len hl
  simp only [List.mem_cons, List.not_mem_nil, or_false] at hl
  rcases hl with rfl | rfl <;>
    exact ⟨by decide, by unfold ordinary; decide, by unfold fits; decide, reset_admits _ _ _ (by decide),
      reset_admits _ _ _ (by decide)⟩

theorem witness_EveryStepKeepsTheInvariant :
    Inv (running .clear []) ∧ ∃ t, step (running .clear []) = .next t := ⟨running_inv _ (by decide) _, _, rfl⟩

theorem witness_BusyViolIsSticky :
    ∃ t, step { idle [.fence] with busyViol := true } = .next t := ⟨_, rfl⟩

theorem witness_FreshnessComesOnlyFromGeniv :
    ∃ t, step { running .geniv [] with entropy := [some 3] } = .next t ∧
      State.ivFresh { running .geniv [] with entropy := [some 3] } = false ∧ t.ivFresh = true := ⟨_, rfl, rfl, rfl⟩

/-- A stale IV with enforcement on, and an ENCRYPT that completes with OK. -/
theorem witness_AFreshIvEncryptsOnce :
    (∃ t, exec .encrypt { ready 0x1000 0x2000 16 [] with ivFresh := true } = .next t ∧ t.errCode = 0#4) ∧
      (ordinary .encrypt (ready 0x1000 0x2000 16 []) ∧ (ready 0x1000 0x2000 16 []).keyWr = 0xFF#8 ∧
        ((ready 0x1000 0x2000 16 []).operands .encrypt).ivEnforce = true ∧
        (ready 0x1000 0x2000 16 []).ivFresh = false) :=
  ⟨⟨_, rfl, by decide⟩, by unfold ordinary; decide, rfl, rfl, rfl⟩

theorem witness_KeyWrRisesOnlyByHostWrites :
    ∀ j ∈ [(0 : Fin 8), 7],
      left (step (idle [wr (0x30#8 + 4#8 * BitVec.ofNat 8 j.val) 9])) (fun t => t.keyWr.getLsbD j.val) = some true ∧
        (idle [wr (0x30#8 + 4#8 * BitVec.ofNat 8 j.val) 9]).keyWr.getLsbD j.val = false := by decide

theorem witness_FitGivesThirtyTwoBytes :
    32 ≤ (List.replicate 32 (1 : Byte)).length ∧ (List.replicate 31 (1 : Byte)).length < 32 := by decide

end Sys2Proof.Tests
end

section
/-! PROOFS. The state of the engine (spec/10_state.md): its invariant, what steps and commands can change, reset, the packing
of the key and the IV, and what window reads do not reveal. -/

namespace Sys2Proof.Safety

open Sys2Proof.Machine

/-! ## The invariant of the engine (10_state.md) -/

/-- Every word decodes to a well-formed instruction (R92 to R94). -/
theorem decodeWord_wellFormed (w : Word) : (decodeWord w).wellFormed = true := by
  unfold decodeWord
  split
  · next hr => simp [Instr.wellFormed, hr]
  · next hr =>
    rw [not_not.1 hr]
    generalize opcodeField w = opcode
    revert opcode
    decide

/-- With no command latched, the clauses of the invariant that speak of a running command say nothing. -/
theorem Inv.of_idle {s : State} (idle : s.cur = none) (memory : Memory.wf s.mem = true) (code : s.errCode ≤ 9#4)
    (padding : s.padN ≤ 16#5) (results : s.errCode ≠ 0#4 → s.outLen = 0#32 ∧ s.padN = 0#5) (chain : s.cv = 0#128)
    (keyWords : ∀ j : Fin 8, s.keyWr.getLsbD j.val = false → keyWord s.key j = 0#32) : Inv s where
  memory := memory
  code := code
  padding := padding
  results := results
  chain := chain
  exclusive := by simp [State.busy, idle]
  cleared := by simp [State.busy, idle]
  latched := by simp [idle]
  ordinaryCommand := by simp [idle]
  keyWords := keyWords

/-- The invariant does not speak of the host's side, and lets memory change in its canonical form and DONE fall. -/
theorem Inv.of_hostSide {s t : State} (hi : Inv s)
    (h : t = { s with
      done := t.done, busyViol := t.busyViol, mem := t.mem, frees := t.frees, inputs := t.inputs
      reply := t.reply, unfenced := t.unfenced, pending := t.pending, results := t.results })
    (hm : Memory.wf t.mem = true) (hd : s.done = false → t.done = false) : Inv t := by
  rw [h]
  exact { memory := hm, code := hi.code, padding := hi.padding, results := hi.results, chain := hi.chain,
          exclusive := fun hb => hd (hi.exclusive hb), cleared := hi.cleared, latched := hi.latched,
          ordinaryCommand := hi.ordinaryCommand, keyWords := hi.keyWords }

/-- An idle engine keeps the invariant whatever becomes of CTRL, the operands and the IV, and of the key while its
words stay zero under a zero bit of KEY_WR. -/
theorem Inv.of_idleWrite {s t : State} (hi : Inv s) (hc : s.cur = none)
    (h : t = { s with
      ie := t.ie, ivEnforce := t.ivEnforce, srcAddr := t.srcAddr, dstAddr := t.dstAddr, len := t.len
      key := t.key, keyWr := t.keyWr, iv := t.iv, ivFresh := t.ivFresh })
    (hk : ∀ j : Fin 8, t.keyWr.getLsbD j.val = false → keyWord t.key j = 0#32) : Inv t := by
  rw [h]
  exact .of_idle hc hi.memory hi.code hi.padding hi.results hi.chain hk

/-- Issue over ordinary memory keeps the invariant: what it latches is what the registers hold (R38, R119). -/
theorem Inv.of_accept {s : State} {w : Word} (hi : Inv s)
    (ho : (s.issueBuffers w).any (touchesSideEffects s.platform) = false) : Inv (s.accept w) where
  memory := hi.memory
  code := by simp
  padding := by simp
  results := fun _ => ⟨rfl, rfl⟩
  chain := hi.chain
  exclusive := fun _ => rfl
  cleared := fun _ => ⟨rfl, rfl, rfl⟩
  latched := by
    rintro _ ⟨⟩
    exact ⟨⟨rfl, rfl, rfl, rfl, rfl, rfl⟩, decodeWord_wellFormed w⟩
  ordinaryCommand := by
    rintro _ ⟨⟩
    exact ho
  keyWords := hi.keyWords

/-- Every host write keeps the invariant (R110 to R119). -/
theorem Inv.of_hostWrite {off : BitVec 8} {v : Word} {s t : State} (hi : Inv s)
    (h : hostWrite off v s = .next t) : Inv t := by
  rcases hostWrite_cases h with ⟨_, rfl⟩ | ⟨_, rfl⟩ | ⟨hb, h⟩
  · exact hi.of_hostSide rfl hi.memory fun hd => by simp [hd]
  · exact hi.of_hostSide rfl hi.memory id
  · have hc : s.cur = none := by simpa [State.busy] using hb
    rcases h with rfl | rfl | ⟨rfl, ho⟩ | rfl | rfl | rfl | ⟨j, _, rfl⟩ | ⟨j, _, rfl⟩
    · exact hi
    · exact hi.of_idleWrite hc rfl hi.keyWords
    · exact hi.of_accept ho
    · exact hi.of_idleWrite hc rfl hi.keyWords
    · exact hi.of_idleWrite hc rfl hi.keyWords
    · exact hi.of_idleWrite hc rfl hi.keyWords
    · refine hi.of_idleWrite hc rfl fun k hk => ?_
      rw [State.writeKey_keyWr, keyWr_or_bit, Bool.or_eq_false_iff, decide_eq_false_iff_not] at hk
      rw [State.writeKey_key, keyWord_setKeyWord, if_neg hk.1]
      exact hi.keyWords k hk.2
    · exact hi.of_idleWrite hc rfl hi.keyWords

/-- Reset leaves the invariant, whatever the engine was doing (R43, R270, R271). -/
theorem Inv.of_reset {s : State} (hm : Memory.wf s.mem = true) : Inv s.resetEngine := by
  have hm' : Memory.wf s.resetEngine.mem = true := by
    unfold State.resetEngine
    split
    · exact State.scramble_mem_wf _ _ hm
    · exact hm
  exact .of_idle rfl hm' (by simp) (by simp) (fun h => absurd rfl h) rfl fun j _ => keyWord_zero j

/-- The completion of a command keeps the invariant (R120 to R123). -/
theorem Inv.of_exec {i : Instr} {s t : State} (hi : Inv s) (h : exec i s = .next t) : Inv t := by
  obtain ⟨u, code, o, n, rfl, hr⟩ := exec_ran h
  refine .of_idle rfl (hr.memory hi.memory) hr.codeLe ?_ ?_ rfl ?_
  · have := hr.count
    simp only [State.finish_padN, BitVec.le_def, BitVec.toNat_ofNat]
    omega
  · intro hc
    obtain ⟨rfl, rfl⟩ := hr.noResults hc
    exact ⟨rfl, rfl⟩
  · intro j hj
    cases hk : isKeyed i
    · rcases hr.key with ⟨h1, h2⟩ | ⟨_, h1, _⟩
      · simp only [State.finish_keyWr, hk, Bool.false_eq_true, if_false, h2] at hj
        simpa [hk, h1] using hi.keyWords j hj
      · simp [hk, h1]
    · simp [hk]

/-- Settles O54: each of the agents' moves of `step_cases` keeps the invariant. -/
theorem everyStepKeepsTheInvariant : Obligations.EveryStepKeepsTheInvariant := by
  intro s t hi h
  obtain ⟨u, hu, hs⟩ := step_cases h
  have hiu : Inv u := by
    subst hu
    exact hi.of_hostSide rfl hi.memory id
  rcases hs with ⟨_, ⟨_, rfl⟩ | ⟨c, _, he⟩⟩ | ⟨_, rfl⟩ | ⟨off, v, _, _, hw⟩ | ⟨a, b, _, rfl⟩ | ⟨_, ht⟩
  · exact hiu
  · exact hiu.of_exec he
  · exact .of_reset hiu.memory
  · have hi' : Inv (u.withReply .ack) := hiu.of_hostSide rfl hiu.memory id
    exact hi'.of_hostWrite hw
  · exact hiu.of_hostSide rfl (Memory.wf_write b a.isLt hi.memory) id
  · rw [ht]
    exact hiu.of_hostSide rfl hiu.memory id

/-- Settles O53: the state after reset is one that reset leaves. -/
theorem resetSatisfiesTheInvariant : Obligations.ResetSatisfiesTheInvariant :=
  Inv.of_reset (s := State.reset) State.reset_mem_wf

/-! ## What a step, a command and a host write can change (10_state.md) -/

/-- Settles O45: `Ran` says what changes before `finish`, and `finish` says the rest. -/
theorem commandsChangeOnlyWhatTheirRulesName : Obligations.CommandsChangeOnlyWhatTheirRulesName := by
  intro i s t h
  obtain ⟨u, code, o, n, rfl, hr⟩ := exec_ran h
  have frame : CommandFrame s (u.finish i code o n) :=
    { ie := hr.ie, ivEnforce := hr.ivEnforce, busyViol := hr.busyViol, srcAddr := hr.srcAddr, dstAddr := hr.dstAddr,
      len := hr.len, platform := hr.platform, inputs := hr.inputs, reply := hr.reply, unfenced := hr.unfenced,
      pending := hr.pending, results := hr.results }
  have noResults : code ≠ 0#4 → BitVec.ofNat 32 o = 0#32 ∧ BitVec.ofNat 5 n = 0#5 := fun hc => by
    obtain ⟨rfl, rfl⟩ := hr.noResults hc
    exact ⟨rfl, rfl⟩
  have fresh : u.ivFresh = s.ivFresh ∨ i = .geniv ∨ i = .encrypt ∨ i = .encryptMsg ∨ i = .clear := by
    rcases hr.ivFresh with h | ⟨h, _⟩ | ⟨h, _⟩
    · exact .inl h
    · exact .inr (.inl h)
    · exact .inr (.inr h)
  exact ⟨frame, rfl, rfl, rfl, hr.outside, noResults, hr.errorMemory, hr.iv, fresh⟩

/-- A completed command leaves CUR empty (R38). -/
theorem exec_cur {i : Instr} {s t : State} (h : exec i s = .next t) : t.cur = none := by
  obtain ⟨u, code, o, n, rfl, _⟩ := exec_ran h
  rfl

/-- No command touches BUSY_VIOL (R39). -/
theorem exec_busyViol {i : Instr} {s t : State} (h : exec i s = .next t) : t.busyViol = s.busyViol := by
  obtain ⟨u, code, o, n, rfl, hr⟩ := exec_ran h
  exact hr.busyViol

/-- The one command that can set IV_FRESH is GENIV, to the answer of its draw (R30). -/
theorem exec_ivFresh_rises {i : Instr} {s t : State} (h : exec i s = .next t) (hs : s.ivFresh = false)
    (ht : t.ivFresh = true) : i = .geniv ∧ ∃ b, s.nextDraw = some b ∧ t.iv = ivOfBlock b := by
  obtain ⟨u, code, o, n, rfl, hr⟩ := exec_ran h
  rw [State.finish_ivFresh] at ht
  rcases hr.ivFresh with h1 | ⟨hi, _, hb⟩ | ⟨_, h1⟩
  · simp [h1, hs] at ht
  · exact ⟨hi, hb⟩
  · simp [h1] at ht

/-- No command sets a bit of KEY_WR (R27, R122). -/
theorem exec_keyWr {i : Instr} {s t : State} (h : exec i s = .next t) : t.keyWr = s.keyWr ∨ t.keyWr = 0 := by
  obtain ⟨u, code, o, n, rfl, hr⟩ := exec_ran h
  rw [State.finish_keyWr]
  split
  · exact .inr rfl
  · rcases hr.key with ⟨_, h1⟩ | ⟨_, _, h1⟩
    · exact .inl h1
    · exact .inr h1

/-- While a command runs no host write changes CUR (R38, R111). -/
theorem hostWrite_cur {off : BitVec 8} {v : Word} {s t : State} (h : hostWrite off v s = .next t)
    (hb : s.busy = true) : t.cur = s.cur := by
  rcases hostWrite_cases h with ⟨_, rfl⟩ | ⟨_, rfl⟩ | ⟨hb', _⟩
  · rfl
  · rfl
  · simp [hb] at hb'

/-- Among the host writes only that of STATUS with bit 4 set clears BUSY_VIOL (R39, R117). -/
theorem hostWrite_busyViol {off : BitVec 8} {v : Word} {s t : State} (h : hostWrite off v s = .next t)
    (hs : s.busyViol = true) : t.busyViol = true ∨ (off = 0x08#8 ∧ v.getLsbD 4 = true) := by
  rcases hostWrite_cases h with ⟨hr, rfl⟩ | ⟨_, rfl⟩ | ⟨_, h⟩
  · cases hv : v.getLsbD 4
    · exact .inl (by rw [State.writeStatus_busyViol, hs, hv]; rfl)
    · exact .inr ⟨regAt_eq_status.1 hr, rfl⟩
  · exact .inl rfl
  · left
    rcases h with rfl | rfl | ⟨rfl, _⟩ | rfl | rfl | rfl | ⟨_, _, rfl⟩ | ⟨_, _, rfl⟩ <;> exact hs

/-- No host write sets IV_FRESH (R30, R115). -/
theorem hostWrite_ivFresh {off : BitVec 8} {v : Word} {s t : State} (h : hostWrite off v s = .next t)
    (hs : s.ivFresh = false) : t.ivFresh = false := by
  rcases hostWrite_cases h with ⟨_, rfl⟩ | ⟨_, rfl⟩ | ⟨_, h⟩
  · exact hs
  · exact hs
  · rcases h with rfl | rfl | ⟨rfl, _⟩ | rfl | rfl | rfl | ⟨_, _, rfl⟩ | ⟨_, _, rfl⟩ <;> simp [hs]

/-- A host write leaves KEY_WR as it is, or is the write of a key word, which sets that word and its bit (R114). -/
theorem hostWrite_keyWr {off : BitVec 8} {v : Word} {s t : State} (h : hostWrite off v s = .next t) :
    t.keyWr = s.keyWr ∨ ∃ j, regAt off = .key j ∧ t = s.writeKey j v := by
  rcases hostWrite_cases h with ⟨_, rfl⟩ | ⟨_, rfl⟩ | ⟨_, h⟩
  · exact .inl rfl
  · exact .inl rfl
  · rcases h with rfl | rfl | ⟨rfl, _⟩ | rfl | rfl | rfl | hk | ⟨_, _, rfl⟩
    on_goal 7 => exact .inr hk
    all_goals exact .inl rfl

/-- Settles O25: while busy a host write reaches STATUS or BUSY_VIOL alone, and the other inputs leave the engine. -/
theorem onlyCompletionOrResetEndsACommand : Obligations.OnlyCompletionOrResetEndsACommand := by
  intro s t c hc h
  obtain ⟨u, rfl, hs⟩ := step_cases h
  rcases hs with ⟨hin, ⟨_, rfl⟩ | ⟨_, _, he⟩⟩ | ⟨hin, rfl⟩ | ⟨off, v, _, _, hw⟩ | ⟨a, b, _, rfl⟩ | ⟨_, ht⟩
  · exact .inl hc
  · exact .inr ⟨exec_cur he, hin.imp_right .inl⟩
  · exact .inr ⟨rfl, .inr (.inr hin)⟩
  · exact .inl ((hostWrite_cur hw (by simp [State.busy, hc])).trans hc)
  · exact .inl hc
  · rw [ht]
    exact .inl hc

/-- Settles O55: commands and reads leave BUSY_VIOL, and of the writes only STATUS bit 4 clears it. -/
theorem busyViolIsSticky : Obligations.BusyViolIsSticky := by
  intro s t h hv
  obtain ⟨u, rfl, hs⟩ := step_cases h
  rcases hs with ⟨_, ⟨_, rfl⟩ | ⟨_, _, he⟩⟩ | ⟨hin, rfl⟩ | ⟨off, v, hin, _, hw⟩ | ⟨a, b, _, rfl⟩ | ⟨_, ht⟩
  · exact .inl hv
  · exact .inl ((exec_busyViol he).trans hv)
  · exact .inr (.inl hin)
  · rcases hostWrite_busyViol hw hv with h1 | ⟨rfl, h4⟩
    · exact .inl h1
    · exact .inr (.inr ⟨v, hin, h4⟩)
  · exact .inl hv
  · rw [ht]
    exact .inl hv

/-- Settles O56: of all that a step can be, only the completion of GENIV sets IV_FRESH. -/
theorem freshnessComesOnlyFromGeniv : Obligations.FreshnessComesOnlyFromGeniv := by
  intro s t h hs ht
  obtain ⟨u, rfl, hcases⟩ := step_cases h
  rcases hcases with ⟨_, ⟨_, rfl⟩ | ⟨c, hc, he⟩⟩ | ⟨_, rfl⟩ | ⟨off, v, _, _, hw⟩ | ⟨a, b, _, rfl⟩ | ⟨_, heq⟩
  · simp [hs] at ht
  · obtain ⟨hop, b, hb, hiv⟩ := exec_ivFresh_rises he hs ht
    exact ⟨c, b, hc, hop, hb, hiv⟩
  · simp at ht
  · simp [hostWrite_ivFresh hw hs] at ht
  · simp [hs] at ht
  · rw [heq] at ht
    simp [hs] at ht

/-- Settles O58: of all that a step can be, only the write of a key word sets a bit of KEY_WR, and only its own. -/
theorem keyWrRisesOnlyByHostWrites : Obligations.KeyWrRisesOnlyByHostWrites := by
  intro s t j h hs ht
  have risen : t.keyWr ≠ s.keyWr := fun he => by rw [he, hs] at ht; cases ht
  obtain ⟨u, rfl, hcases⟩ := step_cases h
  rcases hcases with ⟨_, ⟨_, rfl⟩ | ⟨c, _, he⟩⟩ | ⟨_, rfl⟩ | ⟨off, v, hin, h4, hw⟩ | ⟨a, b, _, rfl⟩ | ⟨_, heq⟩
  · exact absurd rfl risen
  · rcases exec_keyWr he with h1 | h1
    · exact absurd h1 risen
    · simp [h1] at ht
  · simp at ht
  · rcases hostWrite_keyWr hw with h1 | ⟨k, hk, rfl⟩
    · exact absurd h1 risen
    · rw [State.writeKey_keyWr, keyWr_or_bit, Bool.or_eq_true, decide_eq_true_eq] at ht
      obtain rfl : j = k := ht.resolve_right (ne_true_of_eq_false hs)
      exact ⟨v, by rw [hin, regAt_key_offset hk h4], by simp [keyWord_setKeyWord]⟩
  · exact absurd rfl risen
  · exact absurd (by rw [heq]; rfl) risen

/-- Reset leaves the reset table, from any state (R43, R270). -/
theorem resetEngine_resetTable (s : State) : resetTable s.resetEngine :=
  ⟨rfl, rfl, rfl, rfl, rfl, rfl, rfl, rfl, rfl, rfl, rfl, rfl, rfl, rfl, rfl, keyWord_zero,
    fun j => by fin_cases j <;> rfl, rfl, rfl⟩

/-- With no command in flight reset touches no memory (R271). -/
theorem resetEngine_mem_of_idle {s : State} (hc : s.cur = none) : s.resetEngine.mem = s.mem := by
  simp [State.resetEngine, State.runningBuffers, hc]

/-- Settles O5: the state after reset is what reset leaves of itself. -/
theorem resetLeavesTheTable : Obligations.ResetLeavesTheTable := by
  refine ⟨resetEngine_resetTable State.reset, fun s rest h => ?_⟩
  exact ⟨_, step_cons h, resetEngine_resetTable _, fun hc => resetEngine_mem_of_idle hc⟩

/-- Settles O20: sensing irq answers the wire of R41 and lets the host observe completion. -/
theorem irqIsDoneAndIe : Obligations.IrqIsDoneAndIe := by
  intro s rest h
  exact ⟨_, step_cons h, rfl, rfl⟩

/-! ## The packing of the key and the IV (R26, R29) -/

/-- A byte of a bit vector is told by the place it starts at. -/
theorem byte_at {w i j : Nat} {v : BitVec w} (h : i = j) : v.extractLsb' i 8 = v.extractLsb' j 8 := by rw [h]

/-- Key byte `4j+b`, cut from K, is byte `b` of KEYj (R26). -/
theorem keyOfRegs_byte (r : KeyRegs) (j : Fin 8) (b : Fin 4) :
    (keyOfRegs r).extractLsb' (8 * (4 * j.val + b.val)) 8 = (keyWord r j).extractLsb' (8 * b.val) 8 := by
  have hb := b.isLt
  unfold keyOfRegs
  fin_cases j <;>
  · simp (disch := omega) only [BitVec.extractLsb'_append_eq_of_le, BitVec.extractLsb'_append_eq_of_add_le, keyWord]
    exact byte_at (by omega)

/-- IV byte `4j+b`, cut from IVb, is byte `b` of IVj (R29). -/
theorem blockOfIv_byte (r : IvRegs) (j b : Fin 4) :
    (blockOfIv r).extractLsb' (8 * (4 * j.val + b.val)) 8 = (ivWord r j).extractLsb' (8 * b.val) 8 := by
  have hb := b.isLt
  unfold blockOfIv
  fin_cases j <;>
  · simp (disch := omega) only [BitVec.extractLsb'_append_eq_of_le, BitVec.extractLsb'_append_eq_of_add_le, ivWord]
    exact byte_at (by omega)

/-- Byte `i` of a bit vector written out least significant first is its field of bits `8i+7 : 8i` (R10). -/
theorem leBytes_toNat_getD {w : Nat} (v : BitVec w) {n i : Nat} (h : i < n) :
    (leBytes n v.toNat).getD i 0#8 = v.extractLsb' (8 * i) 8 := by
  rw [leBytes_getD n _ i h, byte_eq_extract]

/-- Settles O15: a byte of the little-endian string is a field of the concatenated registers, and so of one of them. -/
theorem keyAndIvWordsPackLittleEndian : Obligations.KeyAndIvWordsPackLittleEndian := by
  refine ⟨fun r j b => ?_, fun r j b => ?_, blockOfIv_ivOfBlock⟩
  · rw [leBytes_toNat_getD _ (by omega), keyOfRegs_byte]
  · rw [bytesOfBlock, Config.blockSize, leBytes_toNat_getD _ (by omega), blockOfIv_byte]

/-! ## Loading the key (R98, R114) -/

/-- The write of KEYj on the bus, for each word `v` of the list and its number `j`. -/
def keyWrites (ws : List (Fin 8 × Word)) : List Input :=
  ws.map fun p => wr (0x30#8 + 4#8 * BitVec.ofNat 8 p.1.val) p.2

/-- `s` after a key write that the engine has taken (R114). -/
def keyWritten (s : State) (p : Fin 8 × Word) : State := (s.withReply .ack).writeKey p.1 p.2

/-- An idle engine takes key writes one a step. -/
theorem run_keyWrites (ws : List (Fin 8 × Word)) (rest : List Input) {s : State} (hb : s.busy = false) :
    run ws.length (s.withInputs (keyWrites ws ++ rest)) = .next ((ws.foldl keyWritten s).withInputs rest) := by
  induction ws generalizing s with
  | nil => rfl
  | cons p ws ih =>
    have hstep : step (s.withInputs (keyWrites (p :: ws) ++ rest)) =
        .next ((keyWritten s p).withInputs (keyWrites ws ++ rest)) :=
      step_wr_key (s := s.withInputs (keyWrites (p :: ws) ++ rest)) p.1 rfl rfl hb
    exact (run_next _ hstep).trans (ih hb)

/-- The words of a key, each with its number. -/
def keyWordsOf (k : List Byte) : List (Fin 8 × Word) :=
  [(0, wordAt k 0), (1, wordAt k 1), (2, wordAt k 2), (3, wordAt k 3), (4, wordAt k 4), (5, wordAt k 5),
   (6, wordAt k 6), (7, wordAt k 7)]

/-- `ldkey` writes the eight key words (R98). -/
theorem ldkey_eq_keyWrites (k : List Byte) : ldkey k = keyWrites (keyWordsOf k) := rfl

/-- The eight words fill the key registers and every bit of KEY_WR, and change nothing else (R26, R27). -/
theorem keyWritten_keyWordsOf (k : List Byte) (s : State) :
    (keyWordsOf k).foldl keyWritten s = { s with
      reply := .ack
      key := ⟨wordAt k 0, wordAt k 1, wordAt k 2, wordAt k 3, wordAt k 4, wordAt k 5, wordAt k 6, wordAt k 7⟩
      keyWr := 0xFF#8 } := by
  have full : s.keyWr ||| 0xFF#8 = 0xFF#8 := BitVec.or_allOnes
  simp [keyWordsOf, keyWritten, State.writeKey, State.withReply, setKeyWord, BitVec.or_assoc, full]

/-- Settles O14: the words of `ldkey k` give back `k`, and every bit of KEY_WR is set. -/
theorem ldkeyLoadsTheKey : Obligations.LdkeyLoadsTheKey := by
  intro s rest k hk hb h
  rw [ldkey_eq_keyWrites] at h
  have loads : run 8 s = _ := h ▸ run_keyWrites (keyWordsOf k) rest hb
  rw [keyWritten_keyWordsOf] at loads
  exact ⟨_, loads, leBytes_keyOfRegs k hk, rfl, rfl⟩

/-! ## No window read tells anything of the key (R28) -/

/-- `s` with the key registers `r` and, where a command runs, the latched key `k`. -/
def rekey (r : KeyRegs) (k : Key) (s : State) : State :=
  { s with key := r, cur := s.cur.map fun c => { c with key := k } }

/-- BUSY does not depend on the key. -/
theorem rekey_busy (r : KeyRegs) (k : Key) (s : State) : (rekey r k s).busy = s.busy := by
  simp [rekey, State.busy]

/-- STATUS does not depend on the key registers: of the key it shows KEY_WR alone (R24, R27). -/
theorem rekey_statusWord (r : KeyRegs) (k : Key) (s : State) : (rekey r k s).statusWord = s.statusWord := by
  unfold State.statusWord
  rw [rekey_busy]
  rfl

/-- Where a command runs, its operands under another key are the same but for the key. -/
theorem rekey_operands {r : KeyRegs} {k : Key} {s : State} {c : Latched} (hc : s.cur = some c) (i : Instr) :
    (rekey r k s).operands i = { s.operands i with key := k } := by
  simp [rekey, State.operands, hc]

/-- The IV that a running command leaves does not depend on the key, if it is one that writes the IV (R125). -/
theorem rekey_ivAfter {r : KeyRegs} {k : Key} {s : State} {c : Latched} (hc : s.cur = some c) {i : Instr}
    (hi : writesIv i = true) : (rekey r k s).ivAfter i = s.ivAfter i := by
  cases i with
  | geniv => rw [geniv_ivAfter, geniv_ivAfter]; rfl
  | encryptMsg => rw [encryptMsg_ivAfter, encryptMsg_ivAfter, rekey_operands hc]; rfl
  | clear => rfl
  | pad | unpad | encrypt | decrypt | decryptMsg | illegal => cases hi

/-- The IV words a read finds do not depend on the key (R28, R125). -/
theorem rekey_visibleIv (r : KeyRegs) (k : Key) (s : State) : (rekey r k s).visibleIv = s.visibleIv := by
  cases hc : s.cur with
  | none => simp [State.visibleIv, rekey, hc]
  | some c =>
    have hc' : (rekey r k s).cur = some { c with key := k } := by simp [rekey, hc]
    simp only [State.visibleIv, hc, hc']
    by_cases hw : writesIv c.op = true
    · rw [rekey_ivAfter hc hw]; rfl
    · simp [hw]; rfl

/-- Every register reads alike under another key (R28). -/
theorem rekey_readReg (r : KeyRegs) (k : Key) (s : State) (reg : Reg) :
    (rekey r k s).readReg reg = s.readReg reg := by
  cases reg with
  | status => exact rekey_statusWord r k s
  | _ => rfl

/-- Every window read answers alike under another key (R28). -/
theorem rekey_hostRead_reply (r : KeyRegs) (k : Key) (off : BitVec 8) (s : State) :
    (hostRead off (rekey r k s)).reply = (hostRead off s).reply := by
  unfold hostRead
  split
  · rw [State.readIv_reply, State.readIv_reply, rekey_visibleIv]
  · rw [State.readStatus_reply, State.readStatus_reply, rekey_statusWord]
  · rw [State.withReply_reply, State.withReply_reply, rekey_readReg]

/-- Settles O18: a read that the window answers gives the same reply under another key, and any other read faults. -/
theorem readsDoNotRevealTheKey : Obligations.ReadsDoNotRevealTheKey := by
  intro s rest off width r k h s'
  have h' : s'.inputs = .regRead off width :: rest := h
  rw [step_cons h, step_cons h']
  simp only [perform, hostReadAccess]
  split
  · exact .inl ⟨_, _, rfl, rfl, (rekey_hostRead_reply r k off (s.withInputs rest)).symm⟩
  · exact .inr ⟨rfl, rfl⟩

end Sys2Proof.Safety
end

section
/-! PROOFS. System memory (spec/20_memory.md): what the host's window accesses, stores and loads do, the fences it owes,
commands pointed at memory with access side effects, and commands whose memory accesses are refused. -/

namespace Sys2Proof.Safety

open Sys2Proof.Machine

/-! ## A refused access to memory (R74) -/

/-- `s` as the memory phase of a command finds it: ENCRYPT has used its IV up, ENCRYPT_MSG has put the answer of its draw in
the IV registers, and the other commands have changed nothing (R174, R190). -/
def atMemoryPhase (i : Instr) (s : State) : State :=
  match i with
  | .encrypt => s.useIv
  | .encryptMsg => match s.nextDraw with
    | some b => s.dropDraw.setIv b false
    | none => s
  | _ => s

/-- Before its memory phase a command changes the IV and the entropy alone. -/
theorem atMemoryPhase_frame (i : Instr) (s : State) :
    atMemoryPhase i s = { s with
      iv := (atMemoryPhase i s).iv
      ivFresh := (atMemoryPhase i s).ivFresh
      entropy := (atMemoryPhase i s).entropy
      draws := (atMemoryPhase i s).draws } := by
  cases i with
  | encryptMsg => simp only [atMemoryPhase]; cases s.nextDraw <;> rfl
  | _ => rfl

theorem atMemoryPhase_encryptMsg {s : State} {b : Block} (h : s.nextDraw = some b) :
    atMemoryPhase .encryptMsg s = s.dropDraw.setIv b false := by
  simp only [atMemoryPhase, h]

/-- Only ENCRYPT_MSG writes the IV before its memory phase (R190). -/
theorem atMemoryPhase_iv {i : Instr} {s : State} (h : i ≠ .encryptMsg) : (atMemoryPhase i s).iv = s.iv := by
  cases i with
  | encryptMsg => exact absurd rfl h
  | _ => rfl

/-- The memory phase that would fill the maximal destination range ends in BUS_ERR where an access is not admitted. -/
theorem writeOut_whole_refused {op : Instr} {c : Latched} {out : List Byte} {n : Nat} {s : State}
    (hout : out.length = maxout op c.len.toNat)
    (h : ¬(admitted s .read c.src.toNat c.len.toNat ∧ admitted s .write c.dst.toNat (maxout op c.len.toNat))) :
    s.writeOut op c out n = (s.scramble c.dst.toNat (maxout op c.len.toNat)).finish op 9#4 0 0 :=
  writeOut_refused (hout ▸ h)

/-- PAD, ENCRYPT, DECRYPT and ENCRYPT_MSG past their checks, with an access not admitted: they write the whole maximal
destination range or end in BUS_ERR. -/
theorem exec_refused {i : Instr} {s : State} (hi : i = .pad ∨ i = .encrypt ∨ i = .decrypt ∨ i = .encryptMsg)
    (ho : ordinary i s) (hc : firstError (checks i (s.operands i) s) = none)
    (hd : i = .encryptMsg → s.nextDraw ≠ none)
    (hr : ¬(admitted s .read (s.operands i).src.toNat (s.operands i).len.toNat ∧
      admitted s .write (s.operands i).dst.toNat (maxout i (s.operands i).len.toNat))) :
    exec i s = .next (((atMemoryPhase i s).scramble (s.operands i).dst.toNat
      (maxout i (s.operands i).len.toNat)).finish i 9#4 0 0) := by
  obtain ⟨hkey, hiv, halign, hfits⟩ := checks_passed hc
  rcases hi with rfl | rfl | rfl | rfl
  · rw [pad_runs ho (hfits rfl)]
    exact congrArg _ (writeOut_whole_refused (by simp [maxout]) hr)
  · have len16 := (halign (by simp)).2
    rw [encrypt_runs ho (hkey rfl) (hiv rfl) (halign (by simp)) (hfits rfl)]
    exact congrArg _ (writeOut_whole_refused (by simp [maxout]; omega) hr)
  · have len16 := (halign (by simp)).2
    rw [decrypt_runs ho (hkey rfl) (halign (by simp)) (hfits rfl)]
    exact congrArg _ (writeOut_whole_refused (by simp [maxout]; omega) hr)
  · obtain ⟨b, hb⟩ := Option.ne_none_iff_exists'.1 (hd rfl)
    have len16 := add_padlen_mod (s.operands .encryptMsg).len.toNat
    rw [encryptMsg_runs ho (hkey rfl) (hfits rfl), hb, atMemoryPhase_encryptMsg hb]
    exact congrArg _ (writeOut_whole_refused (by simp [maxout]; omega) hr)

/-- Key clean-up at completion (R122), of a state with the key of `s`. -/
theorem finish_key {s u : State} (op : Instr) (code : BitVec 4) (o n : Nat) (hk : u.key = s.key)
    (hw : u.keyWr = s.keyWr) :
    if isKeyed op then keyGone (u.finish op code o n) else keyKept s (u.finish op code o n) := by
  cases h : isKeyed op <;> simp [keyGone, keyKept, h, hk, hw]

/-- Settles O41: the four commands end as `exec_refused` says, and BUS_ERR scrambles the maximal destination range alone. -/
theorem busErrorSparesEverythingOutside : Obligations.BusErrorSparesEverythingOutside := by
  intro i s c hi ho hc hd hr
  have frame := atMemoryPhase_frame i s
  refine ⟨_, exec_refused hi ho hc hd hr, .of_finish .., fun x hx => ?_, ?_, ?_, ?_, fun h => atMemoryPhase_iv h,
    finish_key i _ _ _ (by rw [frame]; rfl) (by rw [frame]; rfl), .of_finish (by rw [frame]; rfl)⟩
  · have mem : (atMemoryPhase i s).mem = s.mem := by rw [frame]
    exact (State.scramble_read_outside hx).trans (by rw [mem])
  · rintro (rfl | rfl)
    · rfl
    · obtain ⟨b, hb⟩ := Option.ne_none_iff_exists'.1 (hd rfl)
      rw [atMemoryPhase_encryptMsg hb]
      rfl
  · rintro (rfl | rfl) <;> rfl
  · rintro b rfl hb
    rw [atMemoryPhase_encryptMsg hb]
    exact blockOfIv_ivOfBlock b

/-! ## Memory with access side effects (R75) -/

/-- A memory command over memory with access side effects stops (R75). -/
theorem memoryCommand_stops {op : Instr} {s : State} {checks : Latched → List (Bool × Error)} {body : Latched → State}
    (h : (buffersOf op (s.operands op)).any (touchesSideEffects s.platform) = true) :
    s.memoryCommand op checks body = .fault .sideEffectMemory := by
  simp [State.memoryCommand, h]

/-- A command pointed at memory with access side effects stops; one without buffers cannot be (R75). -/
theorem exec_stops {i : Instr} {s : State} (h : ¬ordinary i s) : exec i s = .fault .sideEffectMemory := by
  cases i with
  | geniv | clear | illegal => exact absurd rfl h
  | pad | unpad | encrypt | decrypt | encryptMsg | decryptMsg =>
    simp only [exec, execPad, execUnpad, execEncrypt, execDecrypt, execEncryptMsg, execDecryptMsg]
    exact memoryCommand_stops (eq_true_of_ne_false h)

/-- A command over ordinary memory completes (R126). -/
theorem exec_completes {i : Instr} {s : State} (h : ordinary i s) : ∃ t, exec i s = .next t := by
  rcases exec_stops_only_on_side_effects i s with hnext | ⟨_, htouch⟩
  · exact hnext
  · exact absurd htouch (ne_true_of_eq_false h)

/-- A fenced CMD write on an idle engine that points its command at memory with access side effects stops (R75, R246). -/
theorem step_cmd_stops {s : State} {rest : List Input} {w : Word} (h : s.inputs = .regWrite 0x04#8 .word w :: rest)
    (hb : s.busy = false) (hf : fenced w s) (ho : ¬ordinary (decodeWord w) s) : step s = .fault .sideEffectMemory := by
  rw [ordinary_iff_issueBuffers hb] at ho
  exact (step_cmd h hb).trans (writeCmd_stops (fenced_iff.1 hf) (eq_true_of_ne_false ho))

/-- Settles O44: `exec` and the CMD write stop on memory with access side effects, and `exec` on nothing else. -/
theorem onlySideEffectMemoryStopsACommand : Obligations.OnlySideEffectMemoryStopsACommand :=
  fun _ _ => ⟨exec_stops, exec_completes, fun _ _ => step_cmd_stops⟩

/-! ## The host's loads and stores (R60, R73, R273) -/

/-- With the engine idle and completion observed no load is a hazard (R273). -/
theorem loadHazard_of_observed {s : State} (hb : s.busy = false) (hp : s.pending = []) (a : Nat) :
    s.loadHazard a = false := by
  have hc : s.cur = none := by simpa [State.busy] using hb
  simp [State.loadHazard, State.runningBuffers, hc, hp]

/-- A load of a destination byte before the fence owed after completion is a fault (R73). -/
theorem hostLoad_unfenced {s : State} {a : Word} {r : Range} (hd : s.isDevice a.toNat = false)
    (hl : s.loadHazard a.toNat = false) (hr : r ∈ s.results) (ha : r.contains a.toNat = true) :
    hostLoad a s = .fault .missingFence := by
  have owed : s.results.any (·.contains a.toNat) = true := List.any_eq_true.2 ⟨r, hr, ha⟩
  simp [hostLoad, hd, hl, owed]

/-- A load with no fence owed answers the byte in memory (R60, R72). -/
theorem hostLoad_answers {s : State} {a : Word} (hd : s.isDevice a.toNat = false)
    (hl : s.loadHazard a.toNat = false) (hr : s.results = []) :
    hostLoad a s = .next (s.withReply (.byte (Memory.read s.mem a.toNat))) := by
  simp [hostLoad, hd, hl, hr]

/-- A store outside every buffer in use is taken (R60, R61). -/
theorem hostStore_takes {s : State} {a : Word} (b : Byte) (hd : s.isDevice a.toNat = false)
    (hs : s.storeHazard a.toNat = false) :
    hostStore a b s = .next { s with
      mem := Memory.write s.mem a.toNat b, unfenced := a.toNat :: s.unfenced, reply := .ack } := by
  simp [hostStore, hd, hs]

/-- A read of STATUS on the bus (R112). -/
theorem step_readStatus {s : State} {rest : List Input} (h : s.inputs = .regRead 0x08#8 .word :: rest) :
    step s = .next (s.withInputs rest).readStatus := by
  rw [step_cons h, perform_regRead (by decide)]
  rfl

/-- A load by the host (R60). -/
theorem step_memLoad {s : State} {rest : List Input} {a : Word} (h : s.inputs = .memLoad a :: rest) :
    step s = hostLoad a (s.withInputs rest) := step_cons h

/-- A fence and then a load outside every buffer in use answer the byte in memory, whatever waited for the fence (R73). -/
theorem run_fence_memLoad {s : State} {rest : List Input} {a : Word} (h : s.inputs = .fence :: .memLoad a :: rest)
    (hd : s.isDevice a.toNat = false) (hl : s.loadHazard a.toNat = false) :
    ∃ t, run 2 s = .next t ∧ t.reply = .byte (Memory.read s.mem a.toNat) ∧ t.mem = s.mem := by
  have loaded : step (s.withInputs (.memLoad a :: rest)).fence =
      .next ((s.fence.withInputs rest).withReply (.byte (Memory.read s.mem a.toNat))) :=
    (step_memLoad rfl).trans (hostLoad_answers hd hl rfl)
  exact ⟨_, (run_next 1 (step_cons h)).trans (run_next 0 loaded), rfl, rfl⟩

/-- Settles O27: STATUS moves the pending destinations to those that wait for a fence, and the fence takes them off. -/
theorem destinationReadNeedsAFence : Obligations.DestinationReadNeedsAFence := by
  intro s rest b a hb hp hlo hhi hd
  have clear : ∀ l, (s.withInputs l).readStatus.loadHazard a.toNat = false :=
    fun l => loadHazard_of_observed (s := (s.withInputs l).readStatus) hb (by simp [hb]) _
  constructor <;> intro h
  · have owed : b.dst ∈ (s.withInputs (.memLoad a :: rest)).readStatus.results := by
      simpa [hb] using .inl ⟨b, hp, rfl⟩
    rw [run_next 1 (step_readStatus h)]
    refine run_fault 0 ((step_memLoad rfl).trans ?_)
    exact hostLoad_unfenced hd (clear _) owed (by simp [Range.contains, hlo, hhi])
  · rw [run_next 2 (step_readStatus h)]
    exact run_fence_memLoad rfl hd (clear _)

/-- Settles O28: the store writes one byte (`written`) and the host's side of the state. -/
theorem hostStoreWritesOneByte : Obligations.HostStoreWritesOneByte := by
  intro s rest a b h hd hs
  exact ⟨_, (step_cons h).trans (hostStore_takes b hd hs), written_store s a.toNat [b], rfl⟩

/-! ## Window accesses (R64, R73) -/

/-- The engine answers no access of another width or at no multiple of 4 (R64). -/
theorem wellFormedAccess_eq_false {off : BitVec 8} {width : Width} (h : width ≠ .word ∨ off.toNat % 4 ≠ 0) :
    wellFormedAccess off width = false := by
  rcases h with h | h <;> simp [wellFormedAccess, h]

/-- Settles O19: neither access is well formed. -/
theorem badWindowAccessFaults : Obligations.BadWindowAccessFaults := by
  intro s rest off width v hbad
  have bad := wellFormedAccess_eq_false hbad
  constructor <;> intro h
  · simp [step_cons h, perform, hostWriteAccess, bad]
  · simp [step_cons h, perform, hostReadAccess, bad]

/-- A CMD write of a memory command over a source byte not yet fenced stops (R73). -/
theorem writeCmd_unfenced {v : Word} {s : State} {a : Nat} (hm : isMemoryCommand (decodeWord v) = true)
    (ha : a ∈ s.unfenced) (hsrc : Range.contains ⟨s.srcAddr.toNat, s.len.toNat⟩ a = true) :
    s.writeCmd v = .fault .missingFence := by
  have owed : (s.issueBuffers v).any (fun b => s.unfenced.any b.src.contains) = true := by
    simpa [State.issueBuffers, buffersOf, hm] using ⟨a, ha, hsrc⟩
  rw [State.writeCmd, if_pos owed]

/-- Settles O22: the CMD write finds the unfenced source byte. -/
theorem issueWithoutFenceFaults : Obligations.IssueWithoutFenceFaults := by
  intro s rest w a h hb hm ha hlo hhi
  exact (step_cmd h hb).trans (writeCmd_unfenced hm ha (by simp [Range.contains, hlo, hhi]))

end Sys2Proof.Safety
end

section
/-! PROOFS. The command word (spec/30_encoding.md): its decoder and encoder, and the one padded length OUT_LEN cannot hold. -/

namespace Sys2Proof.Safety

open Sys2Proof.Machine

/-! ## The decoder and the encoder (R90 to R94) -/

/-- A word whose fields are those of an illegal word decodes to ILLEGAL with these fields (R92, R93). -/
theorem decodeWord_eq_illegal {w : Word} (h : (Instr.illegal (opcodeField w) (rsvdField w)).wellFormed = true) :
    decodeWord w = .illegal (opcodeField w) (rsvdField w) := by
  unfold decodeWord
  by_cases hr : rsvdField w = 0#28
  · rw [if_neg (not_not.2 hr)]
    rw [hr] at h ⊢
    generalize opcodeField w = opcode at h
    revert opcode
    decide
  · exact if_pos hr

/-- A word with RSVD zero is its opcode (R90). -/
theorem eq_opcodeField_of_rsvdField {w : Word} (hr : rsvdField w = 0#28) : w = 0#28 ++ opcodeField w := by
  rw [← hr, rsvdField_append_opcodeField]

/-- A word whose fields are not those of an illegal word is a legal opcode alone (R91 to R93). -/
theorem eq_legalOpcode_of_not_illegal {w : Word}
    (h : (Instr.illegal (opcodeField w) (rsvdField w)).wellFormed ≠ true) :
    ∃ opcode, legalOpcode opcode = true ∧ w = 0#28 ++ opcode := by
  obtain ⟨hr, ho⟩ : rsvdField w = 0#28 ∧ legalOpcode (opcodeField w) = true := by simpa [Instr.wellFormed] using h
  exact ⟨opcodeField w, ho, eq_opcodeField_of_rsvdField hr⟩

/-- Every legal opcode is that of the command it decodes to (R91). -/
theorem encode_decodeWord_legalOpcode :
    ∀ opcode, legalOpcode opcode = true → encode (decodeWord (0#28 ++ opcode)) = 0#28 ++ opcode := by
  decide

/-- No opcode alone below 1 or above 8 is legal (R93). -/
theorem legalOpcode_eq_false :
    ∀ opcode : BitVec 4, (0#28 ++ opcode = 0#32 ∨ 9#32 ≤ 0#28 ++ opcode) → legalOpcode opcode = false := by
  decide

/-- The word 0 and every word of 9 or more has a reserved bit set or an opcode of no command (R92, R93). -/
theorem illegal_wellFormed_of_word {w : Word} (h : w = 0#32 ∨ 9#32 ≤ w) :
    (Instr.illegal (opcodeField w) (rsvdField w)).wellFormed = true := by
  by_cases hr : rsvdField w = 0#28
  · rw [eq_opcodeField_of_rsvdField hr] at h
    simp [Instr.wellFormed, legalOpcode_eq_false _ h]
  · simp [Instr.wellFormed, hr]

/-- Settles O1: the word of an ILLEGAL instruction carries its two fields, and the eight commands are evaluated. -/
theorem decodeOfEncodeIsTheInstruction : Obligations.DecodeOfEncodeIsTheInstruction := by
  intro i hi
  cases i with
  | illegal opcode rsvd =>
    have ho : opcodeField (encode (.illegal opcode rsvd)) = opcode := opcodeField_append rsvd opcode
    have hr : rsvdField (encode (.illegal opcode rsvd)) = rsvd := rsvdField_append rsvd opcode
    have decoded := decodeWord_eq_illegal (w := encode (.illegal opcode rsvd)) (by rw [ho, hr]; exact hi)
    rwa [ho, hr] at decoded
  | geniv | pad | unpad | encrypt | decrypt | encryptMsg | decryptMsg | clear => decide

/-- Settles O2: an illegal word is the concatenation of the fields ILLEGAL keeps, and any other is a legal opcode. -/
theorem everyWordDecodesAndEncodesBack : Obligations.EveryWordDecodesAndEncodesBack := by
  intro w
  refine ⟨decodeWord_wellFormed w, ?_⟩
  by_cases h : (Instr.illegal (opcodeField w) (rsvdField w)).wellFormed = true
  · rw [decodeWord_eq_illegal h]
    exact rsvdField_append_opcodeField w
  · obtain ⟨opcode, legal, rfl⟩ := eq_legalOpcode_of_not_illegal h
    exact encode_decodeWord_legalOpcode opcode legal

/-- Settles O3: the words 1 to 8 are those the commands encode to, and the fields of every other word are those of an illegal one. -/
theorem opcodeMapIsTotal : Obligations.OpcodeMapIsTotal := by
  have named := decodeOfEncodeIsTheInstruction
  exact ⟨named .geniv rfl, named .pad rfl, named .unpad rfl, named .encrypt rfl, named .decrypt rfl,
    named .encryptMsg rfl, named .decryptMsg rfl, named .clear rfl,
    fun w hw => ⟨opcodeField w, rsvdField w, decodeWord_eq_illegal (illegal_wellFormed_of_word hw)⟩⟩

/-- Settles O4: three closed words, evaluated. -/
theorem sampleWordsDecode : Obligations.SampleWordsDecode := by
  unfold Obligations.SampleWordsDecode
  decide

/-! ## The padded length 2^32 (R97) -/

/-- The padded length of a LEN reaches 2^32 exactly from the last block on (R97, R150). -/
theorem add_padlen_eq_top_iff {l : Nat} (h : l < 2 ^ 32) : l + padlen l = 2 ^ 32 ↔ 2 ^ 32 - 16 ≤ l := by
  simp only [padlen, Config.blockSize]; omega

/-- The padded length of a LEN is at most 2^32 (R97, R150). -/
theorem add_padlen_le_top {l : Nat} (h : l < 2 ^ 32) : l + padlen l ≤ 2 ^ 32 := by
  simp only [padlen, Config.blockSize]; omega

/-- A padded length of 2^32 leaves room at no destination but 0 (R68), and only for the source in place (R69). -/
theorem addresses_zero_of_fits_top {c : Latched} (htop : c.len.toNat + padlen c.len.toNat = 2 ^ 32)
    (hf : fits .pad c) : c.src = 0#32 ∧ c.dst = 0#32 := by
  obtain ⟨_, range, apart⟩ := hf
  simp only [maxout, htop] at range apart
  have long := padlen_le c.len.toNat
  have dst : c.dst = 0#32 := BitVec.eq_of_toNat_eq (by simp only [BitVec.toNat_ofNat]; omega)
  have below := c.src.isLt
  rcases apart with empty | inPlace | beforeSrc | behindSrc
  · omega
  · exact ⟨inPlace.trans dst, dst⟩
  · omega
  · omega

/-- PADN holds every pad length, and none is 0 (R36, R150). -/
theorem ofNat_padlen_ne_zero (l : Nat) : BitVec.ofNat 5 (padlen l) ≠ 0#5 := by
  intro h
  have low := padlen_pos l
  have high := padlen_le l
  have zero := congrArg BitVec.toNat h
  simp only [BitVec.toNat_ofNat] at zero
  omega

/-- PAD in ordinary, admitted memory writes the padded source and completes with OK (R153). -/
theorem exec_pad_admitted {s : State} (ho : ordinary .pad s) (hf : fits .pad (s.operands .pad))
    (hr : admitted s .read (s.operands .pad).src.toNat (s.operands .pad).len.toNat)
    (hw : admitted s .write (s.operands .pad).dst.toNat
      ((s.operands .pad).len.toNat + padlen (s.operands .pad).len.toNat)) :
    exec .pad s =
      .next ((s.store (s.operands .pad).dst.toNat (padBytes (s.source (s.operands .pad)))).finish .pad 0#4
        ((s.operands .pad).len.toNat + padlen (s.operands .pad).len.toNat) (padlen (s.operands .pad).len.toNat)) := by
  have size : (padBytes (s.source (s.operands .pad))).length =
      (s.operands .pad).len.toNat + padlen (s.operands .pad).len.toNat := by simp
  rw [pad_runs ho hf, writeOut_admitted hr (size ▸ hw), size]

/-- Settles O52: the ranges of a PAD to 2^32 bytes fill memory from 0 on, and OUT_LEN takes 2^32 mod 2^32. -/
theorem outLenWrapsOnlyAtTheTop : Obligations.OutLenWrapsOnlyAtTheTop := by
  intro s c l
  have top_iff : l + padlen l = 2 ^ 32 ↔ 2 ^ 32 - 16 ≤ l := add_padlen_eq_top_iff c.len.isLt
  refine ⟨top_iff, add_padlen_le_top c.len.isLt,
    fun hl hf => addresses_zero_of_fits_top (top_iff.2 hl) hf, fun hl ho hf hr hw => ?_⟩
  have top := top_iff.2 hl
  obtain ⟨src, dst⟩ := addresses_zero_of_fits_top top hf
  refine ⟨_, exec_pad_admitted ho hf (by rw [src]; exact hr) (by rw [dst, top]; exact hw), rfl, ?_, ?_⟩
  · rw [State.finish_outLen, top]
    rfl
  · rw [State.finish_padN]
    exact ofNat_padlen_ne_zero l

end Sys2Proof.Safety
end

section
/-! PROOFS. The register interface (spec/40_register_interface.md): host writes and reads of the window, issue, the engine's
turn, and what completion does to the key. -/

namespace Sys2Proof.Safety

open Sys2Proof.Machine

/-! ## Host writes (R110 to R117, R128) -/

/-- A 32-bit write at a multiple of 4 reaches the register dispatch, and the bus answers it (R64, R110). -/
theorem step_regWrite {s : State} {rest : List Input} {off : BitVec 8} {v : Word}
    (h : s.inputs = .regWrite off .word v :: rest) (h4 : off.toNat % 4 = 0) :
    step s = hostWrite off v ((s.withInputs rest).withReply .ack) :=
  (step_cons h).trans (perform_regWrite h4 v _)

/-- While busy a write anywhere but to STATUS sets BUSY_VIOL alone (R111). -/
theorem step_regWrite_busy {s : State} {rest : List Input} {off : BitVec 8} {v : Word}
    (h : s.inputs = .regWrite off .word v :: rest) (h4 : off.toNat % 4 = 0) (hoff : off ≠ 0x08#8)
    (hb : s.busy = true) : step s = .next { s with inputs := rest, reply := .ack, busyViol := true } :=
  (step_regWrite h h4).trans (hostWrite_busy (regAt_eq_status.not.2 hoff) v hb)

/-- A write to STATUS is `writeStatus`, busy or not (R117). -/
theorem step_writeStatus {s : State} {rest : List Input} {v : Word}
    (h : s.inputs = .regWrite 0x08#8 .word v :: rest) :
    step s = .next (((s.withInputs rest).withReply .ack).writeStatus v) :=
  (step_regWrite h (by decide)).trans (hostWrite_status v _)

/-- A write to CTRL while idle is `writeCtrl` (R113). -/
theorem step_writeCtrl {s : State} {rest : List Input} {v : Word}
    (h : s.inputs = .regWrite 0x00#8 .word v :: rest) (hb : s.busy = false) :
    step s = .next (((s.withInputs rest).withReply .ack).writeCtrl v) :=
  (step_regWrite h (by decide)).trans (hostWrite_idle (by decide) v hb)

/-- A write to IVj while idle is `writeIv` (R115). -/
theorem step_writeIv {s : State} {rest : List Input} {j : Fin 4} {v : Word}
    (h : s.inputs = .regWrite (0x50#8 + 4#8 * BitVec.ofNat 8 j.val) .word v :: rest) (hb : s.busy = false) :
    step s = .next (((s.withInputs rest).withReply .ack).writeIv j v) := by
  rw [step_regWrite h (iv_offset_aligned j), hostWrite_idle (by rw [regAt_iv]; simp) v (by simpa using hb),
    regAt_iv]

/-- The offsets of R128 and R42 hold the result registers and nothing else that a write could reach. -/
theorem regAt_readOnly : ∀ off : BitVec 8,
    (off = 0x0C#8 ∨ off = 0x1C#8 ∨ off = 0x20#8 ∨ off = 0x24#8 ∨ off = 0x28#8 ∨ off = 0x2C#8 ∨ 0x60#8 ≤ off) →
    regAt off = .errcode ∨ regAt off = .outLen ∨ regAt off = .padn ∨ regAt off = .reserved := by
  decide

/-- While idle a write to a read-only register or a reserved offset does nothing (R128, R42). -/
theorem hostWrite_readOnly {off : BitVec 8} {v : Word} {s : State}
    (hr : regAt off = .errcode ∨ regAt off = .outLen ∨ regAt off = .padn ∨ regAt off = .reserved)
    (hb : s.busy = false) : hostWrite off v s = .next s := by
  rcases hr with hr | hr | hr | hr <;> rw [hostWrite_idle (by simp [hr]) v hb, hr]

/-- STATUS is cleared by ones: bit 1 clears DONE, bit 4 BUSY_VIOL (R117). -/
theorem writeStatus_eq (v : Word) (s : State) :
    s.writeStatus v = { s with
      done := if v.getLsbD 1 then false else s.done
      busyViol := if v.getLsbD 4 then false else s.busyViol } := by
  unfold State.writeStatus
  cases v.getLsbD 1 <;> cases v.getLsbD 4 <;> simp

/-- After the write of KEYj, KEY_VALID asks for every other bit of KEY_WR (R27, R114). -/
theorem writeKey_keyValid_iff (j : Fin 8) (v : Word) (s : State) :
    (s.writeKey j v).keyValid = true ↔ ∀ k : Fin 8, k = j ∨ s.keyWr.getLsbD k.val = true := by
  rw [keyValid_iff, keyWr_full]
  refine forall_congr' fun k => ?_
  rw [State.writeKey_keyWr, keyWr_or_bit, Bool.or_eq_true, decide_eq_true_eq]

/-- Settles O7: irq is computed from the two bits that the write leaves. -/
theorem ctrlWriteSetsBothBits : Obligations.CtrlWriteSetsBothBits :=
  fun _ _ _ h hb => ⟨_, step_writeCtrl h hb, rfl, rfl⟩

/-- Settles O8: while busy DONE is 0 already, so there is nothing to clear. -/
theorem statusWriteClearsByOnes : Obligations.StatusWriteClearsByOnes := by
  intro s rest v h
  refine ⟨_, step_writeStatus h, writeStatus_eq v _, fun hi hb => ?_⟩
  have notDone : s.done = false := hi.exclusive hb
  simp [notDone]

/-- Settles O9: a write anywhere but to STATUS, by `step_regWrite_busy`. -/
theorem busyWriteIsDropped : Obligations.BusyWriteIsDropped :=
  fun _ _ _ _ => step_regWrite_busy

/-- Settles O10: idle, the write meets a register that takes none; busy, it is a violation as any other. -/
theorem readOnlyAndReservedWritesAreIgnored : Obligations.ReadOnlyAndReservedWritesAreIgnored := by
  intro s rest off v h h4 hoff
  cases hb : s.busy
  · rw [step_regWrite h h4, hostWrite_readOnly (regAt_readOnly off hoff) (by simpa using hb),
      Bool.or_false]
    rfl
  · have notStatus : off ≠ 0x08#8 := by
      rintro rfl
      revert hoff
      decide
    rw [step_regWrite_busy h h4 notStatus hb, Bool.or_true]

/-- Settles O11: the dispatch at each of the three offsets. -/
theorem operandWriteTakesAnyValue : Obligations.OperandWriteTakesAnyValue := by
  intro s rest v hb
  refine ⟨fun h => ?_, fun h => ?_, fun h => ?_⟩ <;>
    exact (step_regWrite h (by decide)).trans (hostWrite_idle (by decide) v hb)

/-- Settles O12: the laws of one key word and of one bit of KEY_WR. -/
theorem keyWriteSetsWordAndMask : Obligations.KeyWriteSetsWordAndMask :=
  fun s _ j v h hb => ⟨_, step_wr_key j rfl h hb, fun k => keyWord_setKeyWord s.key j k v,
    keyWr_or_bit s.keyWr j, writeKey_keyValid_iff j v _, rfl⟩

/-- Settles O13: the law of one IV word. -/
theorem ivWriteClearsFreshness : Obligations.IvWriteClearsFreshness :=
  fun s _ j v h hb => ⟨_, step_writeIv h hb, fun k => ivWord_setIvWord s.iv j k v, rfl⟩

/-! ## Host reads (R112, R125) -/

/-- A 32-bit read at a multiple of 4 is answered (R64, R112). -/
theorem step_regRead {s : State} {rest : List Input} {off : BitVec 8} (h : s.inputs = .regRead off .word :: rest)
    (h4 : off.toNat % 4 = 0) : step s = .next (hostRead off (s.withInputs rest)) :=
  (step_cons h).trans (perform_regRead h4 _)

/-- A read of IVj (R112, R125). -/
theorem step_readIv {s : State} {rest : List Input} {j : Fin 4}
    (h : s.inputs = .regRead (0x50#8 + 4#8 * BitVec.ofNat 8 j.val) .word :: rest) :
    step s = .next ((s.withInputs rest).readIv j) := by
  rw [step_regRead h (iv_offset_aligned j), hostRead, regAt_iv]

/-- The registers at the multiples of 4, those that do not read as 0 first (R21, R112). -/
theorem regAt_aligned : ∀ off : BitVec 8, off.toNat % 4 = 0 → regAt off =
    if off = 0x00#8 then .ctrl
    else if off = 0x08#8 then .status
    else if off = 0x0C#8 then .errcode
    else if off = 0x10#8 then .srcAddr
    else if off = 0x14#8 then .dstAddr
    else if off = 0x18#8 then .len
    else if off = 0x1C#8 then .outLen
    else if off = 0x20#8 then .padn
    else if off = 0x50#8 then .iv 0
    else if off = 0x54#8 then .iv 1
    else if off = 0x58#8 then .iv 2
    else if off = 0x5C#8 then .iv 3
    else if off = 0x04#8 then .cmd
    else if 0x30#8 ≤ off ∧ off ≤ 0x4C#8 then .key (Fin.ofNat 8 ((off.toNat - 0x30) / 4))
    else .reserved := by
  decide

/-- The offsets of the IV registers (R21). -/
theorem regAt_iv_bounds : ∀ (off : BitVec 8) (j : Fin 4), regAt off = .iv j → 0x50#8 ≤ off ∧ off ≤ 0x5C#8 := by
  decide

/-- The commands that write the IV are GENIV, ENCRYPT_MSG and CLEAR (R125). -/
theorem writesIv_iff (i : Instr) : writesIv i = true ↔ i = .geniv ∨ i = .encryptMsg ∨ i = .clear := by
  cases i <;> simp [writesIv]

/-- While no running command writes the IV, a read finds the IV words as they are (R112, R125). -/
theorem readIv_settled {s : State} (j : Fin 4) (h : ∀ c, s.cur = some c → writesIv c.op = false) :
    s.readIv j = s.withReply (.data (ivWord s.iv j)) := by
  cases hc : s.cur with
  | none => simp [State.readIv, State.visibleIv, State.ivInFlight, State.withReply, hc]
  | some c => simp [State.readIv, State.visibleIv, State.ivInFlight, State.withReply, hc, h c hc]

/-- A read answers the register at its offset and otherwise changes only what the host has observed, but for an IV word
that the running command writes (R112, R125; log 14). -/
theorem hostRead_settled {off : BitVec 8} {s : State}
    (h : ∀ j, regAt off = .iv j → ∀ c, s.cur = some c → writesIv c.op = false) :
    hostRead off s = { s with
      reply := .data (s.readReg (regAt off))
      pending := (hostRead off s).pending, results := (hostRead off s).results } := by
  unfold hostRead
  split
  · next j hr =>
    rw [readIv_settled j (h j hr), hr]
    rfl
  · next hr =>
    rw [hr]
    rfl
  · rfl

/-- The IV that a read may find after the running command is the one it completes with, or is unchanged where it stops
(log 19). -/
theorem ivAfter_cases (i : Instr) (s : State) :
    s.ivAfter i = s.iv ∨ ∃ u, exec i s = .next u ∧ s.ivAfter i = u.iv := by
  unfold State.ivAfter
  cases h : exec i s with
  | next u => exact .inr ⟨u, rfl, rfl⟩
  | fault f => exact .inl rfl
  | refused r => exact .inl rfl

/-- While a command runs a read finds the IV words as they are, or those the command leaves (R125). -/
theorem visibleIv_cases {s : State} {c : Latched} (hc : s.cur = some c) :
    s.visibleIv = s.iv ∨ s.visibleIv = s.ivAfter c.op := by
  simp only [State.visibleIv, hc]
  split
  · exact .inr rfl
  · exact .inl rfl

/-- Settles O16: the read is settled, and the table is that of the registers at the multiples of 4. -/
theorem readsReturnTheRegisters : Obligations.ReadsReturnTheRegisters := by
  intro s rest off h h4 hiv
  have settled : ∀ j, regAt off = .iv j → ∀ c, (s.withInputs rest).cur = some c → writesIv c.op = false := by
    intro j hj c hc
    obtain ⟨low, high⟩ := regAt_iv_bounds off j hj
    rw [← Bool.not_eq_true, writesIv_iff]
    have := hiv low high c hc
    tauto
  have answer := hostRead_settled settled
  refine ⟨_, s.readReg (regAt off), step_regRead h h4, by rw [answer]; rfl, answer, ?_, ?_⟩
  · rw [regAt_aligned off h4]
    simp only [apply_ite s.readReg]
    simp only [State.readReg, ite_self]
    rfl
  · intro hi hb hoff
    obtain ⟨errCode, outLen, padN⟩ := hi.cleared hb
    rcases hoff with rfl | rfl | rfl
    · exact congrArg (·.setWidth 32) errCode
    · exact outLen
    · exact congrArg (·.setWidth 32) padN

/-- Settles O17: `visibleIv` is the old IV or `ivAfter`. -/
theorem ivReadDuringCommandIsOldOrNew : Obligations.IvReadDuringCommandIsOldOrNew := by
  intro s rest c j h hc _
  refine ⟨_, ivWord (s.withInputs rest).visibleIv j, step_readIv h, rfl, ?_⟩
  rcases visibleIv_cases (s := s.withInputs rest) hc with old | new
  · exact .inl (congrArg (ivWord · j) old)
  · rcases ivAfter_cases c.op (s.withInputs rest) with stopped | ⟨u, hu, left⟩
    · exact .inl (congrArg (ivWord · j) (new.trans stopped))
    · exact .inr ⟨u, hu, congrArg (ivWord · j) (new.trans left)⟩

/-! ## Issue and the engine's turn (R119, R124, R126) -/

/-- The engine's turn comes by its input or with no input waiting (log 1). -/
theorem step_engine {s : State} {c : Latched} (hc : s.cur = some c)
    (hi : s.inputs = [] ∨ s.inputs.head? = some .engine) :
    step s = exec c.op (s.withInputs s.inputs.tail) := by
  have turn : step s = engineTurn (s.withInputs s.inputs.tail) := by
    rcases hi with hi | hi
    · have same : s.withInputs s.inputs.tail = s := by rw [hi, List.tail_nil, ← hi]; rfl
      rw [step_nil hi, same]
    · exact step_cons (List.eq_cons_of_mem_head? hi)
  rw [turn, engineTurn, State.withInputs_cur, hc]

/-- A command that completes sets DONE, clears BUSY and leaves the inputs waiting (R120, R123). -/
theorem exec_done {i : Instr} {s t : State} (h : exec i s = .next t) :
    t.done = true ∧ t.busy = false ∧ t.inputs = s.inputs := by
  obtain ⟨u, code, o, n, rfl, hr⟩ := exec_ran h
  exact ⟨rfl, rfl, hr.inputs⟩

/-- Settles O21: `accept` latches what `latch` reads from the registers. -/
theorem cmdWriteIssuesTheCommand : Obligations.CmdWriteIssuesTheCommand :=
  fun _ _ _ h hb hf ho => ⟨_, step_issues h hb hf ho, rfl, rfl, rfl⟩

/-- Settles O23: the step by the input at the head, after an issue too. -/
theorem stepRunsTheDecodedCommand : Obligations.StepRunsTheDecodedCommand := by
  refine ⟨fun s hc h => ?_, fun s c hc h => ?_, fun s c rest hc h => ?_, fun s w rest h hb hf ho => ?_,
    fun s nbits w => step_cons (s := s.withFetchWord nbits w) rfl⟩
  · rw [step_nil h, engineTurn, hc]
  · rw [step_nil h, engineTurn, hc]
  · rw [step_engine hc (.inr (by rw [h]; rfl)), h]
    rfl
  · exact ⟨_, step_issues h hb hf ho, step_cons (e := .engine) (rest := rest) rfl⟩

/-- Settles O24: over ordinary memory the command completes, and the invariant runs no other. -/
theorem engineTurnCompletesTheCommand : Obligations.EngineTurnCompletesTheCommand := by
  intro s c hc hi
  rw [step_engine hc hi]
  by_cases ho : ordinary c.op s
  · obtain ⟨t, ht⟩ := exec_completes (s := s.withInputs s.inputs.tail) ho
    exact .inl ⟨t, ht, exec_done ht⟩
  · exact .inr ⟨exec_stops ho, ho, fun inv => ho (inv.ordinaryCommand c hc)⟩

/-! ## Completion and the key (R122, R127) -/

/-- Every command but CLEAR leaves the key to the clean-up of its completion (R122). -/
theorem exec_key {i : Instr} {s t : State} (h : exec i s = .next t) (hi : i ≠ .clear) :
    if isKeyed i then keyGone t else keyKept s t := by
  obtain ⟨u, code, o, n, rfl, hr⟩ := exec_ran h
  obtain ⟨key, keyWr⟩ := hr.key.resolve_right fun hclear => hi hclear.1
  exact finish_key i code o n key keyWr

/-- A key that is gone is not valid (R27). -/
theorem keyGone.keyValid {t : State} (h : keyGone t) : t.keyValid = false := by
  rw [State.keyValid, h.2]
  rfl

/-- The clean-up does nothing for the other commands (R122). -/
theorem keyedCleanup_of_not_keyed {i : Instr} (h : isKeyed i = false) (s : State) : s.keyedCleanup i = s := by
  simp [State.keyedCleanup, h]

/-- Settles O46: CLEAR, the one command with a rule of its own for the key, is not keyed. -/
theorem keyedCommandsZeroiseTheKey : Obligations.KeyedCommandsZeroiseTheKey := by
  intro i s t h
  refine ⟨fun hk => ?_, fun hk hi => ?_, fun hk => keyedCleanup_of_not_keyed hk⟩
  · have notClear : i ≠ .clear := by rintro rfl; cases hk
    have gone : keyGone t := by simpa [hk] using exec_key h notClear
    exact ⟨gone, gone.keyValid⟩
  · simpa [hk] using exec_key h hi

/-- Settles O39: ILLEGAL is `finish` of the state as it stands. -/
theorem illegalWordOnlyReports : Obligations.IllegalWordOnlyReports :=
  fun _ _ _ => ⟨_, rfl, .of_finish .., ⟨rfl, rfl⟩, ⟨rfl, rfl⟩, .of_finish rfl, rfl, ⟨rfl, rfl⟩, rfl⟩

end Sys2Proof.Safety
end

section
/-! PROOFS. The IV generator (spec/41_iv_generator.md): GENIV, and the one ENCRYPT that may use the IV it draws. -/

namespace Sys2Proof.Safety

open Sys2Proof.Machine

/-! ## GENIV (R140) -/

/-- GENIV with an answer waiting loads it into the IV, now fresh, and completes (R140). -/
theorem geniv_loads {s : State} {b : Block} (h : s.nextDraw = some b) :
    exec .geniv s = .next ((s.dropDraw.setIv b true).complete .geniv 0 0) := by
  simp [exec, execGeniv, h]

/-- GENIV whose draw fails only consumes the draw and raises RNG_FAIL (R140, R141). -/
theorem geniv_fails {s : State} (h : s.nextDraw = none) :
    exec .geniv s = .next (s.dropDraw.raise .geniv .rngFail) := by
  simp [exec, execGeniv, h]

/-- Settles O29: the two answers of the draw; GENIV is not keyed, so its completion leaves the key. -/
theorem genivDrawsAFreshIv : Obligations.GenivDrawsAFreshIv := by
  intro s
  constructor
  · intro b hb
    exact ⟨_, geniv_loads hb, .of_finish .., blockOfIv_ivOfBlock b, rfl, .of_finish rfl, ⟨rfl, rfl⟩, rfl, rfl⟩
  · intro hfail
    exact ⟨_, geniv_fails hfail, .of_finish .., ⟨rfl, rfl⟩, .of_finish rfl, ⟨rfl, rfl⟩, rfl, rfl⟩

/-! ## ENCRYPT and the freshness of the IV (R142, R174) -/

/-- Among the codes OK and 9 the only error is BUS_ERR: no error has code 0 (R240). -/
theorem eq_busErr_of_errorCode {e : Error} (h : errorCode e = 0#4 ∨ errorCode e = 9#4) : e = .busErr := by
  cases e with
  | busErr => rfl
  | _ => exact absurd h (by decide)

/-- The memory phase leaves IV_FRESH (R30). -/
theorem writeOut_ivFresh (op : Instr) (c : Latched) (out : List Byte) (n : Nat) (s : State) :
    (s.writeOut op c out n).ivFresh = s.ivFresh := by
  rcases writeOut_cases op c out n s with ⟨_, h⟩ | ⟨_, h⟩ <;> rw [h] <;> rfl

/-- ENCRYPT reports one of its checks, none of which is BUS_ERR, or uses the IV up and runs its memory phase (R174). -/
theorem encrypt_cases {s t : State} (h : exec .encrypt s = .next t) :
    (∃ e, e ≠ .busErr ∧ t = s.raise .encrypt e) ∨
      ∃ out, t = s.useIv.writeOut .encrypt (s.operands .encrypt) out 0 := by
  simp only [exec, execEncrypt] at h
  rcases memoryCommand_cases .encrypt s _ _ with ⟨stops, _⟩ | ⟨e, reported, raises⟩ | ⟨_, runs⟩
  · rw [stops] at h; cases h
  · rw [raises] at h; cases h
    have listed := firstError_mem reported
    exact .inl ⟨e, by rintro rfl; simp at listed, rfl⟩
  · rw [runs] at h; cases h
    exact .inr ⟨_, rfl⟩

/-- ENCRYPT on a stale IV with enforcement on raises IV_STALE, which only NO_KEY goes before (R142, R242). -/
theorem encrypt_stale {s : State} (ho : ordinary .encrypt s) (hk : s.keyWr = 0xFF#8)
    (he : (s.operands .encrypt).ivEnforce = true) (hf : s.ivFresh = false) :
    exec .encrypt s = .next (s.raise .encrypt .ivStale) := by
  simp only [exec, execEncrypt]
  exact memoryCommand_raises ho (by simp [firstError, keyValid_iff.2 hk, he, hf])

/-- Settles O57: OK and BUS_ERR come from the memory phase, which finds the IV used up; a stale IV is refused before it. -/
theorem aFreshIvEncryptsOnce : Obligations.AFreshIvEncryptsOnce := by
  constructor
  · intro s t h hcode
    rcases encrypt_cases h with ⟨e, notBus, rfl⟩ | ⟨out, rfl⟩
    · exact absurd (eq_busErr_of_errorCode hcode) notBus
    · exact writeOut_ivFresh ..
  · intro s ho hk he hf
    exact ⟨_, encrypt_stale ho hk he hf, .of_finish .., rfl⟩

end Sys2Proof.Safety
end

section
/-! PROOFS. The padding functions, PAD and UNPAD (spec/42_padding.md). -/

namespace Sys2Proof.Safety

open Sys2Proof.Machine

/-! ## The laws of Pad and Unpad (R150 to R152) -/

/-- The padded length is the next multiple of 16 (R150). -/
theorem add_padlen_eq (l : Nat) : l + padlen l = 16 * (l / 16 + 1) := by
  simp only [padlen, Config.blockSize]; omega

/-- The number of bytes that completes `l` to whole blocks is `padlen l`, if it is between 1 and 16 (R150). -/
theorem eq_padlen {l n : Nat} (low : 1 ≤ n) (high : n ≤ 16) (whole : (l + n) % 16 = 0) : n = padlen l := by
  simp only [padlen, Config.blockSize]; omega

/-- Unpad takes off `n` bytes of value `n` behind the data, if `n` is between 1 and 16 and the blocks are whole (R152). -/
theorem unpadBytes_append_replicate {x : List Byte} {n : Nat} (low : 1 ≤ n) (high : n ≤ 16)
    (whole : (x.length + n) % 16 = 0) :
    unpadBytes (x ++ List.replicate n (BitVec.ofNat 8 n)) = some (x, n) := by
  have size : (x ++ List.replicate n (BitVec.ofNat 8 n)).length = x.length + n := by simp
  have last : (x ++ List.replicate n (BitVec.ofNat 8 n)).getD (x.length + n - 1) 0#8 = BitVec.ofNat 8 n := by
    rw [List.getD_append_right _ _ _ _ (by omega), List.getD_replicate _ (by omega)]
  have count : (BitVec.ofNat 8 n).toNat = n := by rw [BitVec.toNat_ofNat]; omega
  simp only [unpadBytes, size, last, count, Config.blockSize, Nat.add_sub_cancel]
  rw [if_neg (by omega), if_neg (by omega), if_neg (by omega)]
  simp

/-- Unpad accepts exactly the image of Pad, and inverts it (R155). -/
theorem unpadBytes_eq_some_iff {d p : List Byte} {n : Nat} :
    unpadBytes d = some (p, n) ↔ padBytes p = d ∧ n = padlen p.length := by
  constructor
  · intro h
    obtain ⟨low, high, inside, whole, front, size, back⟩ := unpadBytes_some h
    have count : n = padlen p.length := eq_padlen low high (by rw [size]; omega)
    refine ⟨?_, count⟩
    rw [padBytes, ← count, ← back, front, List.take_append_drop]
  · rintro ⟨rfl, rfl⟩
    exact unpadBytes_append_replicate (padlen_pos _) (padlen_le _) (add_padlen_mod _)

/-- Unpad inverts Pad (R155). -/
theorem unpadBytes_padBytes (x : List Byte) : unpadBytes (padBytes x) = some (x, padlen x.length) :=
  unpadBytes_eq_some_iff.2 ⟨rfl, rfl⟩

/-- Pad is injective, since Unpad gives its argument back (R155). -/
theorem padBytes_injective : Function.Injective padBytes := by
  intro x y h
  have same := congrArg unpadBytes h
  rw [unpadBytes_padBytes, unpadBytes_padBytes, Option.some.injEq, Prod.mk.injEq] at same
  exact same.1

/-- Settles O47: that Unpad accepts exactly the padded byte strings gives the first three laws, and the next multiple of 16
the fourth. -/
theorem paddingLaws : Obligations.PaddingLaws :=
  ⟨unpadBytes_padBytes, fun _ _ _ => unpadBytes_eq_some_iff.1, padBytes_injective,
    fun x => (padBytes_length x).trans (add_padlen_eq x.length)⟩

/-! ## PAD and UNPAD (R153, R154) -/

/-- Settles O30: PAD stores the padded source and completes with OK; it is not keyed, so its completion leaves the key. -/
theorem padWritesThePaddedSource : Obligations.PadWritesThePaddedSource := by
  intro s c l ho hf hr hw
  exact ⟨_, exec_pad_admitted ho hf hr hw, .of_finish .., written_store _ _ _, .of_finish rfl, ⟨rfl, rfl⟩, ⟨rfl, rfl⟩,
    ⟨rfl, rfl⟩, rfl⟩

/-- A source that unpads has the length UNPAD asks for (R152, R154). -/
theorem aligned_of_unpadBytes {s : State} {c : Latched} {p : List Byte} {n : Nat}
    (h : unpadBytes (s.source c) = some (p, n)) : aligned c := by
  obtain ⟨low, _, inside, whole, _⟩ := unpadBytes_some h
  rw [State.source, Memory.readBytes_length] at inside whole
  exact ⟨by omega, whole⟩

/-- What Unpad leaves of a source is as long as LEN without the padding (R152). -/
theorem unpadBytes_source_length {s : State} {c : Latched} {p : List Byte} {n : Nat}
    (h : unpadBytes (s.source c) = some (p, n)) : p.length = c.len.toNat - n := by
  obtain ⟨_, _, _, _, _, size, _⟩ := unpadBytes_some h
  rw [size, State.source, Memory.readBytes_length]

/-- UNPAD of a validly padded source in ordinary, admitted memory writes the data without the padding and completes with OK
(R154). -/
theorem exec_unpad_admitted {s : State} {p : List Byte} {n : Nat} (ho : ordinary .unpad s)
    (hf : fits .unpad (s.operands .unpad)) (hu : unpadBytes (s.source (s.operands .unpad)) = some (p, n))
    (hr : admitted s .read (s.operands .unpad).src.toNat (s.operands .unpad).len.toNat)
    (hw : admitted s .write (s.operands .unpad).dst.toNat p.length) :
    exec .unpad s = .next ((s.store (s.operands .unpad).dst.toNat p).finish .unpad 0#4 p.length n) := by
  rw [unpad_runs ho (aligned_of_unpadBytes hu) hf, hu]
  exact congrArg _ (writeOut_admitted hr hw)

/-- Settles O31: UNPAD stores the unpadded source and completes with OK; it is not keyed, so its completion leaves the key. -/
theorem unpadRemovesThePadding : Obligations.UnpadRemovesThePadding := by
  intro s p n c l ho hf hu hr hw
  have size : p.length = l - n := unpadBytes_source_length hu
  exact ⟨_, exec_unpad_admitted ho hf hu hr (size ▸ hw), size ▸ .of_finish .., written_store _ _ _, size, .of_finish rfl,
    ⟨rfl, rfl⟩, ⟨rfl, rfl⟩, ⟨rfl, rfl⟩, rfl⟩

end Sys2Proof.Safety
end

section
/-! PROOFS. The CBC functions, ENCRYPT and DECRYPT (spec/43_cipher.md). -/

namespace Sys2Proof.Safety

open Sys2Proof.Machine

/-! ## The chaining of the block loops (R172, R173) -/

/-- Block `j` of the encryption loop chains with the block before it, the first value of CV before block 0 (R172). -/
theorem cbcEncBlocks_getD (e : Block → Block) (cv : Block) {ps : List Block} {j : Nat} (h : j < ps.length) :
    (cbcEncBlocks e cv ps).getD j 0 = e (ps.getD j 0 ^^^ (cv :: cbcEncBlocks e cv ps).getD j 0) := by
  induction ps generalizing cv j with
  | nil => cases h
  | cons p ps ih =>
    cases j with
    | zero => rfl
    | succ j => exact ih (e (p ^^^ cv)) (Nat.lt_of_succ_lt_succ h)

/-- Block `j` of the decryption loop chains with the ciphertext block before it, the first value of CV before block 0
(R173). -/
theorem cbcDecBlocks_getD (d : Block → Block) (cv : Block) {cs : List Block} {j : Nat} (h : j < cs.length) :
    (cbcDecBlocks d cv cs).getD j 0 = d (cs.getD j 0) ^^^ (cv :: cs).getD j 0 := by
  induction cs generalizing cv j with
  | nil => cases h
  | cons c cs ih =>
    cases j with
    | zero => rfl
    | succ j => exact ih c (Nat.lt_of_succ_lt_succ h)

/-! ## CBC_Enc and CBC_Dec of whole blocks (R172, R173) -/

/-- The blocks of CBC_Enc are those of its loop (R172). -/
@[simp] theorem toBlocks_cbcEnc (k : Key) (iv : Block) (p : List Byte) :
    toBlocks (cbcEnc k iv p) = cbcEncBlocks (Config.encryptBlock k) iv (toBlocks p) :=
  toBlocks_ofBlocks _

/-- The blocks of CBC_Dec are those of its loop (R173). -/
@[simp] theorem toBlocks_cbcDec (k : Key) (iv : Block) (c : List Byte) :
    toBlocks (cbcDec k iv c) = cbcDecBlocks (Config.decryptBlock k) iv (toBlocks c) :=
  toBlocks_ofBlocks _

/-- CBC_Enc is as long as its whole blocks (R172). -/
theorem cbcEnc_length_of_whole (k : Key) (iv : Block) {p : List Byte} (h : p.length % 16 = 0) :
    (cbcEnc k iv p).length = p.length := by
  rw [cbcEnc_length]; omega

/-- CBC_Dec is as long as its whole blocks (R173). -/
theorem cbcDec_length_of_whole (k : Key) (iv : Block) {c : List Byte} (h : c.length % 16 = 0) :
    (cbcDec k iv c).length = c.length := by
  rw [cbcDec_length]; omega

/-- CBC_Dec undoes CBC_Enc: D undoes E on every block (R171, R173). -/
theorem cbcDec_cbcEnc (k : Key) (iv : Block) {p : List Byte} (h : p.length % 16 = 0) :
    cbcDec k iv (cbcEnc k iv p) = p := by
  rw [cbcDec, cbcDecWith, toBlocks_cbcEnc, cbcDecBlocks_cbcEncBlocks (decryptBlock_encryptBlock k), ofBlocks_toBlocks p h]

/-- CBC_Enc undoes CBC_Dec: E undoes D on every block (R171, R173). -/
theorem cbcEnc_cbcDec (k : Key) (iv : Block) {c : List Byte} (h : c.length % 16 = 0) :
    cbcEnc k iv (cbcDec k iv c) = c := by
  rw [cbcEnc, cbcEncWith, toBlocks_cbcDec, cbcEncBlocks_cbcDecBlocks (encryptBlock_decryptBlock k), ofBlocks_toBlocks c h]

/-- Settles O48: the chaining of the encryption loop, over the blocks of the byte string. -/
theorem cbcEncryptionChains : Obligations.CbcEncryptionChains := by
  intro k iv p whole
  refine ⟨cbcEnc_length_of_whole k iv whole, fun j hj => ?_⟩
  rw [toBlocks_cbcEnc]
  exact cbcEncBlocks_getD _ _ (by rwa [toBlocks_length])

/-- Settles O49: the chaining of the decryption loop, and that the two loops undo each other since E and D do. -/
theorem cbcDecryptionChainsAndInverts : Obligations.CbcDecryptionChainsAndInverts := by
  intro k iv c whole
  refine ⟨cbcDec_length_of_whole k iv whole, cbcDec_cbcEnc k iv whole, cbcEnc_cbcDec k iv whole, fun j hj => ?_⟩
  rw [toBlocks_cbcDec]
  exact cbcDecBlocks_getD _ _ (by rwa [toBlocks_length])

/-! ## ENCRYPT and DECRYPT (R174, R175) -/

/-- The source of an aligned command is whole blocks (R174, R175). -/
theorem source_whole {s : State} {c : Latched} (h : aligned c) : (s.source c).length % 16 = 0 := by
  rw [source_length]
  exact h.2

/-- The ciphertext of an aligned source is as long as LEN (R174). -/
theorem cbcEnc_source_length {s : State} {c : Latched} (k : Key) (iv : Block) (h : aligned c) :
    (cbcEnc k iv (s.source c)).length = c.len.toNat := by
  rw [cbcEnc_length_of_whole k iv (source_whole h), source_length]

/-- The plaintext of an aligned source is as long as LEN (R175). -/
theorem cbcDec_source_length {s : State} {c : Latched} (k : Key) (iv : Block) (h : aligned c) :
    (cbcDec k iv (s.source c)).length = c.len.toNat := by
  rw [cbcDec_length_of_whole k iv (source_whole h), source_length]

/-- ENCRYPT past its checks, in ordinary, admitted memory, uses the IV up, writes the ciphertext of the source and
completes with OK (R174). -/
theorem exec_encrypt_admitted {s : State} (ho : ordinary .encrypt s) (hk : s.keyWr = 0xFF#8)
    (hi : (s.operands .encrypt).ivEnforce = false ∨ s.ivFresh = true) (ha : aligned (s.operands .encrypt))
    (hf : fits .encrypt (s.operands .encrypt))
    (hr : admitted s .read (s.operands .encrypt).src.toNat (s.operands .encrypt).len.toNat)
    (hw : admitted s .write (s.operands .encrypt).dst.toNat (s.operands .encrypt).len.toNat) :
    exec .encrypt s =
      .next ((s.useIv.store (s.operands .encrypt).dst.toNat
        (cbcEnc (s.operands .encrypt).key (s.operands .encrypt).iv (s.source (s.operands .encrypt)))).finish .encrypt
          0#4 (s.operands .encrypt).len.toNat 0) := by
  have size := cbcEnc_source_length (s := s) (s.operands .encrypt).key (s.operands .encrypt).iv ha
  rw [encrypt_runs ho hk hi ha hf, writeOut_admitted (s := s.useIv) hr (size ▸ hw), size]

/-- DECRYPT past its checks, in ordinary, admitted memory, writes the plaintext of the source and completes with OK, with
no check of what it decrypts (R175, R177). -/
theorem exec_decrypt_admitted {s : State} (ho : ordinary .decrypt s) (hk : s.keyWr = 0xFF#8)
    (ha : aligned (s.operands .decrypt)) (hf : fits .decrypt (s.operands .decrypt))
    (hr : admitted s .read (s.operands .decrypt).src.toNat (s.operands .decrypt).len.toNat)
    (hw : admitted s .write (s.operands .decrypt).dst.toNat (s.operands .decrypt).len.toNat) :
    exec .decrypt s =
      .next ((s.store (s.operands .decrypt).dst.toNat
        (cbcDec (s.operands .decrypt).key (s.operands .decrypt).iv (s.source (s.operands .decrypt)))).finish .decrypt
          0#4 (s.operands .decrypt).len.toNat 0) := by
  have size := cbcDec_source_length (s := s) (s.operands .decrypt).key (s.operands .decrypt).iv ha
  rw [decrypt_runs ho hk ha hf, writeOut_admitted hr (size ▸ hw), size]

/-- Settles O32: ENCRYPT clears IV_FRESH, stores the ciphertext and completes with OK; it is keyed, so its completion
zeroises the key. -/
theorem encryptWritesTheCbcCiphertext : Obligations.EncryptWritesTheCbcCiphertext := by
  intro s c l ho hk hi ha hf hr hw
  exact ⟨_, exec_encrypt_admitted ho hk hi ha hf hr hw, .of_finish .., written_store _ _ _,
    cbcEnc_source_length _ _ ha, .of_finish rfl, ⟨rfl, rfl⟩, rfl, rfl, ⟨rfl, rfl⟩, rfl⟩

/-- Settles O33: DECRYPT stores the plaintext and completes with OK; it is keyed, so its completion zeroises the key. -/
theorem decryptWritesTheCbcPlaintext : Obligations.DecryptWritesTheCbcPlaintext := by
  intro s c l ho hk ha hf hr hw
  exact ⟨_, exec_decrypt_admitted ho hk ha hf hr hw, .of_finish .., written_store _ _ _,
    cbcDec_source_length _ _ ha, .of_finish rfl, ⟨rfl, rfl⟩, ⟨rfl, rfl⟩, ⟨rfl, rfl⟩, rfl⟩

end Sys2Proof.Safety
end

section
/-! PROOFS. ENCRYPT_MSG and DECRYPT_MSG (spec/44_message.md). -/

namespace Sys2Proof.Safety

open Sys2Proof.Machine

/-! ## Unpad and whole blocks in front (R192) -/

/-- Whole blocks in front of the data do not change the length of its padding (R150). -/
theorem padlen_append {x : List Byte} (whole : x.length % 16 = 0) (p : List Byte) :
    padlen (x ++ p).length = padlen p.length := by
  simp only [padlen, Config.blockSize, List.length_append]; omega

/-- Whole blocks in front of the data do not change its padding (R151). -/
theorem padBytes_append {x : List Byte} (whole : x.length % 16 = 0) (p : List Byte) :
    padBytes (x ++ p) = x ++ padBytes p := by
  rw [padBytes, padBytes, padlen_append whole, List.append_assoc]

/-- Unpad passes whole blocks in front of a block or more on as they are: it takes off at most 16 bytes (R152, R192). -/
theorem unpadBytes_append_eq_some_iff {x d q : List Byte} {n : Nat} (whole : x.length % 16 = 0) (long : 16 ≤ d.length) :
    unpadBytes (x ++ d) = some (q, n) ↔ ∃ p, q = x ++ p ∧ unpadBytes d = some (p, n) := by
  constructor
  · intro h
    obtain ⟨_, high, _, _, front, _⟩ := unpadBytes_some h
    have split : q = x ++ d.take (d.length - n) := by
      rw [front, List.length_append, Nat.add_sub_assoc (high.trans long), List.take_length_add_append]
    obtain ⟨padded, count⟩ := unpadBytes_eq_some_iff.1 (split ▸ h)
    rw [padBytes_append whole, List.append_cancel_left_eq] at padded
    exact ⟨_, split, unpadBytes_eq_some_iff.2 ⟨padded, count.trans (padlen_append whole _)⟩⟩
  · rintro ⟨p, rfl, h⟩
    obtain ⟨padded, count⟩ := unpadBytes_eq_some_iff.1 h
    exact unpadBytes_eq_some_iff.2 ⟨by rw [padBytes_append whole, padded], count.trans (padlen_append whole p).symm⟩

/-- Settles O50: all but the last block of a byte string are whole blocks in front. -/
theorem unpadReadsOnlyTheLastBlock : Obligations.UnpadReadsOnlyTheLastBlock := by
  intro q long whole
  have front : (q.take (q.length - 16)).length % 16 = 0 := by rw [List.length_take]; omega
  have last : 16 ≤ (q.drop (q.length - 16)).length := by rw [List.length_drop]; omega
  have same (p n) := unpadBytes_append_eq_some_iff (q := p) (n := n) front last
  rw [List.take_append_drop] at same
  ext n
  simp [same]

/-! ## ENCRYPT_MSG (R190) -/

/-- The ciphertext of a padded source is as long as LEN with its padding (R190). -/
theorem cbcEnc_padBytes_source_length (s : State) (c : Latched) (k : Key) (iv : Block) :
    (cbcEnc k iv (padBytes (s.source c))).length = c.len.toNat + padlen c.len.toNat := by
  rw [cbcEnc_length_of_whole k iv (by rw [padBytes_length]; exact add_padlen_mod _), padBytes_length, source_length]

/-- ENCRYPT_MSG past its checks, in ordinary, admitted memory, loads the drawn IV, not fresh, writes the ciphertext of the
padded source under it and completes with OK (R190). -/
theorem exec_encryptMsg_admitted {s : State} {c : Latched} {b : Block} (hc : s.operands .encryptMsg = c)
    (ho : ordinary .encryptMsg s) (hk : s.keyWr = 0xFF#8) (hf : fits .encryptMsg c) (hd : s.nextDraw = some b)
    (hr : admitted s .read c.src.toNat c.len.toNat)
    (hw : admitted s .write c.dst.toNat (c.len.toNat + padlen c.len.toNat)) :
    exec .encryptMsg s =
      .next (((s.dropDraw.setIv b false).store c.dst.toNat (cbcEnc c.key b (padBytes (s.source c)))).finish .encryptMsg
        0#4 (c.len.toNat + padlen c.len.toNat) (padlen c.len.toNat)) := by
  subst hc
  have size := cbcEnc_padBytes_source_length s (s.operands .encryptMsg) (s.operands .encryptMsg).key b
  rw [encryptMsg_runs ho hk hf, hd, ← size]
  exact congrArg _ (writeOut_admitted hr (size ▸ hw))

/-- ENCRYPT_MSG past its checks whose draw fails only consumes the draw and raises RNG_FAIL (R190). -/
theorem encryptMsg_fails {s : State} (ho : ordinary .encryptMsg s) (hk : s.keyWr = 0xFF#8)
    (hf : fits .encryptMsg (s.operands .encryptMsg)) (hd : s.nextDraw = none) :
    exec .encryptMsg s = .next (s.dropDraw.raise .encryptMsg .rngFail) := by
  rw [encryptMsg_runs ho hk hf, hd]

/-- Settles O34: ENCRYPT_MSG stores the ciphertext and completes with OK; it is keyed, so its completion zeroises the key. -/
theorem encryptMsgPadsDrawsAndEncrypts : Obligations.EncryptMsgPadsDrawsAndEncrypts := by
  intro s b c l ho hk hf hd hr hw
  exact ⟨_, exec_encryptMsg_admitted rfl ho hk hf hd hr hw, .of_finish .., written_store _ _ _,
    cbcEnc_padBytes_source_length s c _ _, .of_finish rfl, ⟨rfl, rfl⟩, blockOfIv_ivOfBlock b, rfl, rfl⟩

/-- Settles O35: RNG_FAIL comes before the IV and memory are written; its completion zeroises the key like any other. -/
theorem encryptMsgDrawFailure : Obligations.EncryptMsgDrawFailure := by
  intro s ho hk hf hd
  exact ⟨_, encryptMsg_fails ho hk hf hd, .of_finish .., rfl, ⟨rfl, rfl⟩, ⟨rfl, rfl⟩, .of_finish rfl⟩

/-- No error has the code of OK (R240). -/
theorem errorCode_ne_zero (e : Error) : errorCode e ≠ 0#4 := by
  cases e <;> decide

/-- A memory phase that completes with OK has stored its output (R74, R120). -/
theorem writeOut_of_ok {op : Instr} {c : Latched} {out : List Byte} {n : Nat} {s : State}
    (ok : (s.writeOut op c out n).errCode = 0#4) :
    s.writeOut op c out n = (s.store c.dst.toNat out).finish op 0#4 out.length n := by
  rcases writeOut_cases op c out n s with ⟨_, stored⟩ | ⟨_, refused⟩
  · exact stored
  · simp [refused] at ok

/-- ENCRYPT_MSG raises an error of its checks or of its draw, or runs its memory phase under the drawn IV (R190). -/
theorem encryptMsg_cases {s t : State} {c : Latched} (hc : s.operands .encryptMsg = c)
    (h : exec .encryptMsg s = .next t) :
    (∃ u e, t = State.raise .encryptMsg e u) ∨
      ∃ b, t = (s.dropDraw.setIv b false).writeOut .encryptMsg c (cbcEnc c.key b (padBytes (s.source c)))
        (padlen c.len.toNat) := by
  subst hc
  simp only [exec, execEncryptMsg] at h
  rcases memoryCommand_cases .encryptMsg s _ _ with ⟨stops, _⟩ | ⟨e, _, raises⟩ | ⟨_, runs⟩
  · rw [stops] at h; cases h
  · rw [raises] at h; cases h
    exact .inl ⟨s, e, rfl⟩
  · rw [runs] at h
    cases draw : s.nextDraw with
    | none =>
      rw [draw] at h; cases h
      exact .inl ⟨s.dropDraw, .rngFail, rfl⟩
    | some b =>
      rw [draw] at h; cases h
      exact .inr ⟨b, rfl⟩

/-- An ENCRYPT_MSG that completes with OK wrote the ciphertext of the padded source under the IV it leaves in IV0..IV3
(R190). -/
theorem encryptMsg_of_ok {s t : State} {c : Latched} (hc : s.operands .encryptMsg = c)
    (h : exec .encryptMsg s = .next t) (ok : t.errCode = 0#4) :
    written c.dst.toNat (cbcEnc c.key (blockOfIv t.iv) (padBytes (s.source c))) s.mem t.mem := by
  rcases encryptMsg_cases hc h with ⟨u, e, rfl⟩ | ⟨b, rfl⟩
  · exact absurd ok (errorCode_ne_zero e)
  · have iv : blockOfIv (ivOfBlock b) = b := blockOfIv_ivOfBlock b
    rw [writeOut_of_ok ok]
    exact iv.symm ▸ written_store _ _ _

/-! ## DECRYPT_MSG (R191, R194) -/

/-- DECRYPT_MSG past its checks, its decrypted source validly padded, in ordinary, admitted memory, writes the data without
the padding and completes with OK (R191). -/
theorem exec_decryptMsg_admitted {s : State} {c : Latched} {p : List Byte} {n : Nat}
    (hc : s.operands .decryptMsg = c) (ho : ordinary .decryptMsg s) (hk : s.keyWr = 0xFF#8) (ha : aligned c)
    (hf : fits .decryptMsg c) (hu : unpadBytes (cbcDec c.key c.iv (s.source c)) = some (p, n))
    (hr : admitted s .read c.src.toNat c.len.toNat) (hw : admitted s .write c.dst.toNat p.length) :
    exec .decryptMsg s = .next ((s.store c.dst.toNat p).finish .decryptMsg 0#4 p.length n) := by
  subst hc
  rw [decryptMsg_runs ho hk ha hf, hu]
  exact congrArg _ (writeOut_admitted hr hw)

/-- DECRYPT_MSG past its checks, its decrypted source not validly padded, with the source admitted, only raises PADDING_ERR
(R191, R244). -/
theorem exec_decryptMsg_badPadding {s : State} {c : Latched} (hc : s.operands .decryptMsg = c)
    (ho : ordinary .decryptMsg s) (hk : s.keyWr = 0xFF#8) (ha : aligned c) (hf : fits .decryptMsg c)
    (hu : unpadBytes (cbcDec c.key c.iv (s.source c)) = none) (hr : admitted s .read c.src.toNat c.len.toNat) :
    exec .decryptMsg s = .next (s.raise .decryptMsg .paddingErr) := by
  subst hc
  rw [decryptMsg_runs ho hk ha hf, hu, State.writeUnpadded, if_pos (sourceAdmitted_iff.2 hr)]

/-- What Unpad leaves of the decrypted source is as long as LEN without the padding (R191). -/
theorem unpadBytes_cbcDec_length {s : State} {c : Latched} {k : Key} {iv : Block} {p : List Byte} {n : Nat}
    (ha : aligned c) (hu : unpadBytes (cbcDec k iv (s.source c)) = some (p, n)) : p.length = c.len.toNat - n := by
  obtain ⟨_, _, _, _, _, size, _⟩ := unpadBytes_some hu
  rw [size, cbcDec_source_length k iv ha]

/-- Settles O36: DECRYPT_MSG stores the data and completes with OK; it is keyed, so its completion zeroises the key. -/
theorem decryptMsgDecryptsAndUnpads : Obligations.DecryptMsgDecryptsAndUnpads := by
  intro s p n c l ho hk ha hf hu hr hw
  have size : p.length = l - n := unpadBytes_cbcDec_length ha hu
  exact ⟨_, exec_decryptMsg_admitted rfl ho hk ha hf hu hr (size ▸ hw), size ▸ .of_finish .., written_store _ _ _, size,
    .of_finish rfl, ⟨rfl, rfl⟩, ⟨rfl, rfl⟩, ⟨rfl, rfl⟩, rfl⟩

/-- Settles O37: the two answers of Unpad; the data is no longer than LEN, so memory admits it. -/
theorem wrongKeyIsDetectedOnlyByPadding : Obligations.WrongKeyIsDetectedOnlyByPadding := by
  intro s c l ho hk ha hf hr hw
  cases hu : unpadBytes (cbcDec c.key c.iv (Memory.readBytes s.mem c.src.toNat l)) with
  | none => exact ⟨_, exec_decryptMsg_badPadding rfl ho hk ha hf hu hr, rfl⟩
  | some r =>
    obtain ⟨p, n⟩ := r
    have size : p.length = l - n := unpadBytes_cbcDec_length ha hu
    exact ⟨_, exec_decryptMsg_admitted rfl ho hk ha hf hu hr (admitted_mono (by omega) hw), rfl⟩

/-! ## The round trip (R193) -/

/-- Decrypting and unpadding undo padding and encrypting under the same key and IV (R155, R176, R193). -/
theorem unpadBytes_cbcDec_cbcEnc_padBytes (k : Key) (iv : Block) (x : List Byte) :
    unpadBytes (cbcDec k iv (cbcEnc k iv (padBytes x))) = some (x, padlen x.length) := by
  rw [cbcDec_cbcEnc k iv (by rw [padBytes_length]; exact add_padlen_mod _), unpadBytes_padBytes]

/-- A padded length is a positive multiple of 16 (R150). -/
theorem aligned_of_padded_len {c : Latched} {l : Nat} (h : c.len.toNat = l + padlen l) : aligned c :=
  ⟨h ▸ Nat.add_pos_right l (padlen_pos l), h ▸ add_padlen_mod l⟩

/-- Settles O51: the source of DECRYPT_MSG is the ciphertext of the padded source of ENCRYPT_MSG, so it decrypts and unpads
to that source. -/
theorem messageRoundTrip : Obligations.MessageRoundTrip := by
  intro s t u c d l henc ok key hk iv hlen hsrc ho hf hr hw
  have cipher := encryptMsg_of_ok rfl henc ok
  have found : u.source d = cbcEnc d.key d.iv (padBytes (s.source c)) := by
    have size := cbcEnc_padBytes_source_length s c c.key (blockOfIv t.iv)
    rw [State.source, hlen, hsrc, written_readBytes cipher size.ge, List.take_of_length_le size.le, key, iv]
  have opens : unpadBytes (cbcDec d.key d.iv (u.source d)) = some (s.source c, padlen l) := by
    rw [found, unpadBytes_cbcDec_cbcEnc_padBytes, source_length]
  have size : (s.source c).length = l := source_length s c
  refine ⟨_, exec_decryptMsg_admitted rfl ho hk (aligned_of_padded_len hlen) hf opens (hlen.symm ▸ hr) (size.symm ▸ hw),
    size ▸ .of_finish .., ?_⟩
  have plain := written_readBytes (written_store u d.dst.toNat (s.source c)) size.ge
  exact plain.trans (List.take_of_length_le size.le)

end Sys2Proof.Safety
end

section
/-! PROOFS. CLEAR (spec/45_maintenance.md). -/

namespace Sys2Proof.Safety

open Sys2Proof.Machine

/-- CLEAR completes with OK from the zeroised state, whatever the state (R210). -/
theorem exec_clear (s : State) : exec .clear s = .next (s.zeroise.finish .clear 0#4 0 0) := rfl

/-- Settles O38: `zeroise` writes the secrets and nothing else; CLEAR is not keyed, so its completion adds only the results,
and without a key KEY_VALID is 0. -/
theorem clearZeroisesEverySecret : Obligations.ClearZeroisesEverySecret := by
  intro s
  have gone : keyGone (s.zeroise.finish .clear 0#4 0 0) := ⟨s.zeroise_key, s.zeroise_keyWr⟩
  exact ⟨_, exec_clear s, .of_finish .., gone, s.zeroise_iv, s.zeroise_ivFresh, gone.keyValid, .of_finish rfl,
    s.zeroise_mem, ⟨s.zeroise_entropy, s.zeroise_draws⟩, s.zeroise_frees⟩

end Sys2Proof.Safety
end

section
/-! PROOFS. The host's duties (spec/49_host_software.md): the envelope codec and key fitting. -/

namespace Sys2Proof.Safety

open Sys2Proof.Machine

/-! ## The envelope (R223, R224) -/

/-- Parse cuts an envelope of two or more whole blocks after its 16-byte IV, and refuses any other (R224). -/
theorem parseEnvelope_cases (env : List Byte) :
    (16 < env.length ∧ env.length % 16 = 0 ∧ parseEnvelope env = .ok (env.take 16, env.drop 16)) ∨
      (¬(16 < env.length ∧ env.length % 16 = 0) ∧ parseEnvelope env = .error .formatError) := by
  simp only [parseEnvelope, Config.ivSize, Config.blockSize]
  split
  · exact .inr ⟨by omega, rfl⟩
  · split
    · exact .inr ⟨by omega, rfl⟩
    · exact .inl ⟨by omega, by omega, rfl⟩

/-- Parse inverts Build on a 16-byte IV and a positive whole number of ciphertext blocks (R223, R224). -/
theorem parseEnvelope_buildEnvelope {iv c : List Byte} (hiv : iv.length = 16) (hpos : 0 < c.length)
    (hblocks : c.length % 16 = 0) : parseEnvelope (buildEnvelope iv c) = .ok (iv, c) := by
  have size : (buildEnvelope iv c).length = 16 + c.length := by rw [buildEnvelope, List.length_append, hiv]
  rcases parseEnvelope_cases (buildEnvelope iv c) with ⟨_, _, parsed⟩ | ⟨short, _⟩
  · rw [parsed, buildEnvelope, List.take_left' hiv, List.drop_left' hiv]
  · exact absurd ⟨by omega, by omega⟩ short

/-- What Parse accepts is Build of the parts it gives, which have the lengths of an IV and of whole blocks (R224). -/
theorem buildEnvelope_of_parseEnvelope {env iv c : List Byte} (h : parseEnvelope env = .ok (iv, c)) :
    env = buildEnvelope iv c ∧ iv.length = 16 ∧ 0 < c.length ∧ c.length % 16 = 0 := by
  rcases parseEnvelope_cases env with ⟨long, blocks, parsed⟩ | ⟨_, refused⟩
  · rw [parsed] at h
    cases h
    simp only [List.length_take, List.length_drop]
    exact ⟨(List.take_append_drop 16 env).symm, by omega, by omega, by omega⟩
  · rw [refused] at h
    cases h

/-- Parse fails only with FormatError (R224). -/
theorem parseEnvelope_error {env : List Byte} {e : HostError} (h : parseEnvelope env = .error e) :
    e = .formatError := by
  rcases parseEnvelope_cases env with ⟨_, _, parsed⟩ | ⟨_, refused⟩
  · rw [parsed] at h
    cases h
  · rw [refused] at h
    cases h
    rfl

/-- Settles O60: Parse and Build are inverse on the envelopes Parse accepts. -/
theorem parseInvertsBuild : Obligations.ParseInvertsBuild := by
  refine ⟨fun env iv c => ⟨buildEnvelope_of_parseEnvelope, ?_⟩, fun _ _ => rfl, fun _ _ => parseEnvelope_error⟩
  rintro ⟨rfl, hiv, hpos, hblocks⟩
  exact parseEnvelope_buildEnvelope hiv hpos hblocks

/-! ## Key fitting (R220) -/

/-- Fit cuts a passphrase of 32 bytes or more (R220). -/
theorem fit_of_long {p : List Byte} (h : 32 ≤ p.length) : fit p = p.take 32 := if_pos h

/-- Fit fills up a passphrase of fewer than 32 bytes with ASCII '0' (R220). -/
theorem fit_of_short {p : List Byte} (h : p.length < 32) : fit p = p ++ List.replicate (32 - p.length) 0x30#8 :=
  if_neg h.not_ge

/-- A fitted key has 32 bytes (R220). -/
theorem fit_length (p : List Byte) : (fit p).length = 32 := by
  rcases le_or_gt 32 p.length with long | short
  · rw [fit_of_long long, List.length_take_of_le long]
  · rw [fit_of_short short, List.length_append, List.length_replicate, Nat.add_sub_of_le short.le]

/-- Fit reads only the first 32 bytes of the passphrase (R220). -/
theorem fit_take (p : List Byte) : fit (p.take 32) = fit p := by
  rcases le_or_gt 32 p.length with long | short
  · rw [fit_of_long (List.length_take_of_le long).ge, fit_of_long long, List.take_take, min_self]
  · rw [List.take_of_length_le short.le]

/-- Settles O59: Fit cuts or fills up, by the length of the passphrase. -/
theorem fitGivesThirtyTwoBytes : Obligations.FitGivesThirtyTwoBytes :=
  fun p => ⟨fit_length p, fit_of_long, fit_of_short, fit_take p⟩

end Sys2Proof.Safety
end

section
/-! PROOFS. Exceptions (spec/60_exceptions.md): the order of the checks, the codes of each command, the padding and bus errors
of a memory phase, and the faults of a host that breaks the buffer hazard. -/

namespace Sys2Proof.Safety

open Sys2Proof.Machine

/-! ## The checks in their order (R242) -/

/-- A command over ordinary memory reports the first of the checks of R242 that fails, before it does anything else
(R247). -/
theorem exec_raises {i : Instr} {s : State} {e : Error} (ho : ordinary i s)
    (he : firstError (checks i (s.operands i) s) = some e) : exec i s = .next (s.raise i e) := by
  cases i with
  | geniv | clear | illegal => simp [checks, firstError, isKeyed, isMemoryCommand] at he
  | pad | unpad | encrypt | decrypt | encryptMsg | decryptMsg =>
    simp only [exec, execPad, execUnpad, execEncrypt, execDecrypt, execEncryptMsg, execDecryptMsg]
    -- the checks a command makes are those of R242 that are meant for it, in the same order
    refine memoryCommand_raises ho (Eq.trans ?_ he)
    simp [checks, firstError, isKeyed, isMemoryCommand, rangeFails_eq, overlapFails_eq, misaligned_eq,
      unpadLengthFails_eq]

/-- Settles O40: the command is `raise` of the state as it stands. -/
theorem firstFailingCheckIsReported : Obligations.FirstFailingCheckIsReported :=
  fun i _ _ ho he => ⟨_, exec_raises ho he, .of_finish .., rfl, ⟨rfl, rfl⟩, ⟨rfl, rfl⟩, .of_finish rfl,
    finish_key i _ _ _ rfl rfl⟩

/-! ## The codes of each command (R243) -/

/-- A memory phase that writes its output ends with OK or BUS_ERR (R74, R120). -/
theorem writeOut_errCode (op : Instr) (c : Latched) (out : List Byte) (n : Nat) (s : State) :
    (s.writeOut op c out n).errCode ∈ [0#4, 9#4] := by
  rcases writeOut_cases op c out n s with ⟨_, h⟩ | ⟨_, h⟩ <;> simp [h]

/-- The memory phase of UNPAD and DECRYPT_MSG ends with OK, PADDING_ERR or BUS_ERR (R244). -/
theorem writeUnpadded_errCode (op : Instr) (c : Latched) (r : Option (List Byte × Nat)) (s : State) :
    (s.writeUnpadded op c r).errCode ∈ [0#4, 5#4, 9#4] := by
  rcases writeUnpadded_cases op c r s with ⟨p, n, _, h⟩ | ⟨_, _, h⟩ | ⟨_, _, h | h⟩
  · have phase := writeOut_errCode op c p n s
    rw [h]
    exact (by decide : [0#4, 9#4] ⊆ [0#4, 5#4, 9#4]) phase
  all_goals simp [h]

/-- A memory command completes with the code of one of its checks or with that of its memory phase. -/
theorem memoryCommand_errCode {op : Instr} {s t : State} {checks : Latched → List (Bool × Error)}
    {body : Latched → State} {l : List (BitVec 4)} (h : s.memoryCommand op checks body = .next t)
    (hchecks : ∀ e ∈ (checks (s.operands op)).map Prod.snd, errorCode e ∈ l)
    (hbody : (body (s.operands op)).errCode ∈ l) : t.errCode ∈ l := by
  rcases memoryCommand_cases op s checks body with ⟨stops, _⟩ | ⟨e, reported, raises⟩ | ⟨_, runs⟩
  · rw [stops] at h; cases h
  · rw [raises] at h; cases h
    exact hchecks e (firstError_mem reported)
  · rw [runs] at h; cases h
    exact hbody

/-- Settles O43: the codes of a memory command are those of its checks and of its memory phase. -/
theorem codesOfEachCommand : Obligations.CodesOfEachCommand := by
  intro i s t h
  cases i with
  | geniv =>
    cases draw : s.nextDraw with
    | none => rw [geniv_fails draw] at h; cases h; simp [codes, errorCode]
    | some b => rw [geniv_loads draw] at h; cases h; simp [codes]
  | clear => cases h; simp [codes]
  | illegal => cases h; simp [codes, errorCode]
  | pad | encrypt | decrypt =>
    simp only [exec, execPad, execEncrypt, execDecrypt] at h
    refine memoryCommand_errCode h (by simp [codes, errorCode]) ?_
    exact (by decide : [0#4, 9#4] ⊆ codes _) (writeOut_errCode ..)
  | unpad | decryptMsg =>
    simp only [exec, execUnpad, execDecryptMsg] at h
    refine memoryCommand_errCode h (by simp [codes, errorCode]) ?_
    exact (by decide : [0#4, 5#4, 9#4] ⊆ codes _) (writeUnpadded_errCode ..)
  | encryptMsg =>
    simp only [exec, execEncryptMsg] at h
    refine memoryCommand_errCode h (by simp [codes, errorCode]) ?_
    cases draw : s.nextDraw with
    | none => simp [codes, errorCode]
    | some b => exact (by decide : [0#4, 9#4] ⊆ codes .encryptMsg) (writeOut_errCode ..)

/-! ## PADDING_ERR and BUS_ERR (R244) -/

/-- UNPAD and DECRYPT_MSG past their checks run their memory phase on what they check the padding of (R154, R191). -/
theorem exec_unpads {i : Instr} {s : State} (hi : i = .unpad ∨ i = .decryptMsg) (ho : ordinary i s)
    (hc : firstError (checks i (s.operands i) s) = none) :
    exec i s = .next (s.writeUnpadded i (s.operands i) (content i (s.operands i) s)) := by
  obtain ⟨hkey, _, halign, hfits⟩ := checks_passed hc
  rcases hi with rfl | rfl
  · exact unpad_runs ho (halign (by simp)) (hfits rfl)
  · exact decryptMsg_runs ho (hkey rfl) (halign (by simp)) (hfits rfl)

/-- What UNPAD or DECRYPT_MSG past its checks would write is as long as LEN without the padding (R154, R191). -/
theorem content_length {i : Instr} {c : Latched} {s : State} {p : List Byte} {n : Nat}
    (hi : i = .unpad ∨ i = .decryptMsg) (hc : firstError (checks i c s) = none)
    (h : content i c s = some (p, n)) : p.length = c.len.toNat - n := by
  obtain ⟨_, _, halign, _⟩ := checks_passed hc
  rcases hi with rfl | rfl
  · exact unpadBytes_source_length h
  · exact unpadBytes_cbcDec_length (halign (by simp)) h

/-- Invalid padding in an admitted source only raises PADDING_ERR (R244). -/
theorem writeUnpadded_badPadding {op : Instr} {c : Latched} {s : State}
    (hr : admitted s .read c.src.toNat c.len.toNat) :
    s.writeUnpadded op c none = s.raise op .paddingErr := if_pos (sourceAdmitted_iff.2 hr)

/-- Invalid padding in a source that is not admitted is a draw between PADDING_ERR, with nothing written, and BUS_ERR
(R244; log 7). -/
theorem writeUnpadded_refused {op : Instr} {c : Latched} {s : State}
    (hr : ¬admitted s .read c.src.toNat c.len.toNat) :
    (Completed (s.writeUnpadded op c none) 5#4 0 0 ∧ (s.writeUnpadded op c none).mem = s.mem) ∨
      Completed (s.writeUnpadded op c none) 9#4 0 0 := by
  rcases writeUnpadded_cases op c none s with ⟨_, _, h, _⟩ | ⟨_, hsrc, _⟩ | ⟨_, _, h | h⟩
  · cases h
  · exact absurd (sourceAdmitted_iff.1 hsrc) hr
  · rw [h]
    exact .inl ⟨.of_finish .., rfl⟩
  · rw [h]
    exact .inr (.of_finish ..)

/-- Settles O42: the three outcomes of the memory phase; what would be written is as long as LEN without the padding. -/
theorem paddingAndBusErrors : Obligations.PaddingAndBusErrors := by
  intro i s c hi ho hc
  have runs : exec i s = .next (s.writeUnpadded i c (content i c s)) := exec_unpads hi ho hc
  refine ⟨fun hbad hr => ?_, fun hbad hr => ?_, fun p n hgood hr => ?_⟩
  · rw [hbad, writeUnpadded_badPadding hr] at runs
    exact ⟨_, runs, .of_finish .., rfl⟩
  · rw [hbad] at runs
    exact ⟨_, runs, writeUnpadded_refused hr⟩
  · have size : p.length = c.len.toNat - n := content_length hi hc hgood
    rw [hgood, State.writeUnpadded, writeOut_refused (size ▸ hr)] at runs
    exact ⟨_, runs, .of_finish ..⟩

/-! ## The buffer hazard (R246, R273) -/

/-- A range contains the addresses from its base up to its end (R66). -/
theorem contains_iff {r : Range} {a : Nat} : r.contains a = true ↔ r.base ≤ a ∧ a < r.base + r.size := by
  simp [Range.contains]

/-- The buffers of a running memory command (R66). -/
theorem runningBuffers_of_memoryCommand {s : State} {c : Latched} (hc : s.cur = some c)
    (hm : isMemoryCommand c.op = true) :
    s.runningBuffers = some ⟨⟨c.src.toNat, c.len.toNat⟩, ⟨c.dst.toNat, maxout c.op c.len.toNat⟩⟩ := by
  simp [State.runningBuffers, buffersOf, hc, hm]

/-- Issue puts the buffers of a memory command on the list of those not observed complete (R273; log 14). -/
theorem accept_pending_of_memoryCommand {w : Word} {s : State} (hm : isMemoryCommand (decodeWord w) = true) :
    (s.accept w).pending =
      ⟨⟨s.srcAddr.toNat, s.len.toNat⟩, ⟨s.dstAddr.toNat, maxout (decodeWord w) s.len.toNat⟩⟩ :: s.pending := by
  simp [State.issueBuffers, buffersOf, hm, State.latch]

/-- While a memory command runs, its buffers are closed to the host's stores and loads alike (R246). -/
theorem hazard_of_running {s : State} {b : Buffers} {a : Nat} (hb : s.runningBuffers = some b)
    (ha : b.src.contains a = true ∨ b.dst.contains a = true) : s.storeHazard a = true ∧ s.loadHazard a = true := by
  have meets : (b.src.contains a || b.dst.contains a) = true := by simpa using ha
  simp [State.storeHazard, State.loadHazard, hb, meets]

/-- Until completion is observed, both buffers are closed to the host's stores (R273). -/
theorem storeHazard_of_pending {s : State} {b : Buffers} {a : Nat} (hb : b ∈ s.pending)
    (ha : b.src.contains a = true ∨ b.dst.contains a = true) : s.storeHazard a = true := by
  have meets : s.pending.any (fun b => b.src.contains a || b.dst.contains a) = true :=
    List.any_eq_true.2 ⟨b, hb, by simpa using ha⟩
  rw [State.storeHazard, meets, Bool.or_true]

/-- Until completion is observed, the destination is closed to the host's loads (R273). -/
theorem loadHazard_of_pending {s : State} {b : Buffers} {a : Nat} (hb : b ∈ s.pending)
    (ha : b.dst.contains a = true) : s.loadHazard a = true := by
  have meets : s.pending.any (fun b => b.dst.contains a) = true := List.any_eq_true.2 ⟨b, hb, ha⟩
  rw [State.loadHazard, meets, Bool.or_true]

/-- A store that breaks the hazard rule is a fault (R246). -/
theorem step_memStore_hazard {s : State} {rest : List Input} {a : Word} {b : Byte}
    (h : s.inputs = .memStore a b :: rest) (hd : s.isDevice a.toNat = false) (hs : s.storeHazard a.toNat = true) :
    step s = .fault .bufferHazard :=
  (step_cons h).trans ((if_neg (ne_true_of_eq_false hd)).trans (if_pos hs))

/-- A load that breaks the hazard rule is a fault (R246). -/
theorem step_memLoad_hazard {s : State} {rest : List Input} {a : Word}
    (h : s.inputs = .memLoad a :: rest) (hd : s.isDevice a.toNat = false) (hl : s.loadHazard a.toNat = true) :
    step s = .fault .bufferHazard :=
  (step_memLoad h).trans ((if_neg (ne_true_of_eq_false hd)).trans (if_pos hl))

/-- The engine takes no buffers off the list of those not observed complete (R273). -/
theorem engineTurn_pending {s t : State} (h : engineTurn s = .next t) : t.pending = s.pending := by
  unfold engineTurn at h
  split at h
  · obtain ⟨u, code, o, n, rfl, hr⟩ := exec_ran h
    exact hr.pending
  · cases h
    rfl

/-- A host write takes no buffers off the list; a CMD write may put some on it (R273). -/
theorem hostWrite_pending {off : BitVec 8} {v : Word} {s t : State} (h : hostWrite off v s = .next t) :
    s.pending ⊆ t.pending := by
  rcases hostWrite_cases h with ⟨_, rfl⟩ | ⟨_, rfl⟩ | ⟨_, h⟩
  · exact List.Subset.refl _
  · exact List.Subset.refl _
  · rcases h with rfl | rfl | ⟨rfl, _⟩ | rfl | rfl | rfl | ⟨_, _, rfl⟩ | ⟨_, _, rfl⟩
    on_goal 3 => exact List.subset_append_right _ _
    all_goals exact List.Subset.refl _

/-- Of the inputs only a STATUS read that finds BUSY = 0 and irq sensed as 1 take buffers off the list (R273). -/
theorem perform_pending {e : Input} {s t : State} {p : Buffers} (hp : p ∈ s.pending) (h : perform e s = .next t) :
    p ∈ t.pending ∨ (e = .regRead 0x08#8 .word ∧ s.busy = false) ∨ (e = .senseIrq ∧ s.irq = true) := by
  cases e with
  | engine => exact .inl (engineTurn_pending h ▸ hp)
  | reset => cases h; exact .inl hp
  | fence => cases h; exact .inl hp
  | regWrite off width v =>
    simp only [perform, hostWriteAccess] at h
    split at h
    · exact .inl (hostWrite_pending h hp)
    · cases h
  | regRead off width =>
    simp only [perform, hostReadAccess] at h
    split at h
    · next hw =>
      cases h
      simp only [wellFormedAccess, Bool.and_eq_true, beq_iff_eq] at hw
      obtain ⟨rfl, _⟩ := hw
      rw [hostRead_pending]
      split
      · next seen =>
        obtain ⟨status, idle⟩ := seen
        exact .inr (.inl ⟨by rw [regAt_eq_status.1 status], idle⟩)
      · exact .inl hp
    · cases h
  | memStore a b =>
    simp only [perform, hostStore] at h
    split_ifs at h
    cases h
    exact .inl hp
  | memLoad a =>
    simp only [perform, hostLoad] at h
    split_ifs at h
    cases h
    exact .inl hp
  | senseIrq =>
    cases h
    cases hirq : s.irq
    · exact .inl (by simpa [hirq] using hp)
    · exact .inr (.inr ⟨rfl, rfl⟩)

/-- Settles O26: a buffer in use makes the access a hazard, whether its command runs or waits to be observed complete, and
`perform_pending` says what ends the wait. -/
theorem hostAccessToBusyBuffersFaults : Obligations.HostAccessToBusyBuffersFaults := by
  refine ⟨fun s rest w h hb hf ho hm => ?_, fun s rest c a b hc hm hd ha => ?_, fun s rest p a b hp hd => ?_,
    fun s t p hp h => ?_⟩
  · exact ⟨_, step_issues h hb hf ho, accept_pending_of_memoryCommand hm⟩
  · obtain ⟨hstore, hload⟩ := hazard_of_running (runningBuffers_of_memoryCommand hc hm)
      (ha.imp contains_iff.2 contains_iff.2)
    exact ⟨fun h => step_memStore_hazard h hd hstore, fun h => step_memLoad_hazard h hd hload⟩
  · exact ⟨fun ha h => step_memStore_hazard h hd (storeHazard_of_pending hp (ha.imp contains_iff.2 contains_iff.2)),
      fun ha h => step_memLoad_hazard h hd (loadHazard_of_pending hp (contains_iff.2 ha))⟩
  · rcases hi : s.inputs with _ | ⟨e, rest⟩
    · rw [step_nil hi] at h
      exact .inl (engineTurn_pending h ▸ hp)
    · rw [step_cons hi] at h
      simpa using perform_pending (s := s.withInputs rest) hp h

end Sys2Proof.Safety
end

section
/-! PROOFS. Reset while a command runs (spec/70_reset_and_hazards.md): the memory it spares. -/

namespace Sys2Proof.Safety

open Sys2Proof.Machine

/-! ## What reset spares of memory (R271) -/

/-- Buffers are in use only while a memory command runs, and they are that command's (R66, R246). -/
theorem runningBuffers_eq_some {s : State} {b : Buffers} (hb : s.runningBuffers = some b) :
    ∃ c, s.cur = some c ∧ isMemoryCommand c.op = true ∧
      b = ⟨⟨c.src.toNat, c.len.toNat⟩, ⟨c.dst.toNat, maxout c.op c.len.toNat⟩⟩ := by
  rw [State.runningBuffers] at hb
  split at hb
  · next c hc =>
    obtain ⟨hm, h⟩ := Option.ite_none_right_eq_some.1 hb
    exact ⟨c, hc, hm, (Option.some.inj h).symm⟩
  · cases hb

/-- Reset touches no byte outside the destination buffer in use (R271). -/
theorem resetEngine_read_outside {s : State} {x : Nat}
    (outside : ∀ b, s.runningBuffers = some b → x < b.dst.base ∨ b.dst.base + b.dst.size ≤ x) :
    Memory.read s.resetEngine.mem x = Memory.read s.mem x := by
  unfold State.resetEngine
  split
  · next b hb => exact State.scramble_read_outside (outside b hb)
  · rfl

/-- Settles O6: but for its memory the state after the step is what reset leaves, and the destination buffer in use is the
maximal destination range of the command reset abandons. -/
theorem resetAbandonsTheCommand : Obligations.ResetAbandonsTheCommand := by
  intro s rest h
  refine ⟨_, step_cons h, rfl, fun x spared => resetEngine_read_outside fun b hb => ?_⟩
  obtain ⟨c, hc, hm, rfl⟩ := runningBuffers_eq_some hb
  exact spared c hc hm

end Sys2Proof.Safety
end
